-- ==== Sys2Proof/Word.lean ====
section
/-! DEFINITION. The words of the MBC core: the widths of 00_scope.md R8 and R10 and 30_encoding.md R100. -/

namespace Sys2Proof

/-- One byte of the bus (00_scope.md R8, BUS_DATA_WIDTH). -/
abbrev Byte := BitVec 8

/-- A cartridge bus address (00_scope.md R8, BUS_ADDR_WIDTH). -/
abbrev Addr := BitVec 16

/-- A ROM or RAM bank number, as the driver's mirrors and the H16 operand hold it (00_scope.md R10). -/
abbrev Bank := BitVec 16

/-- A logical offset or byte count of 24 bits: the W24 operand and the ROM cursor (00_scope.md R10). -/
abbrev Offset := BitVec 24

/-- A command word, and the width of the sizes and of a result's value and aux (30_encoding.md R100, R104). -/
abbrev Word := BitVec 32

end Sys2Proof
end

