-- ==== Sys2Proof/Config.lean ====
section
/-! DEFINITION. What an implementation fixes (the parameters of 00_scope.md R8 and R9), the closed sets those
parameters speak of, the vocabulary of the bus, and the free values: the bus oracle and the settle delay. The
parameters' values stand in Sys2Proof/Machine/Params.lean. -/

namespace Sys2Proof

/-- The controller families (00_scope.md R2, R16). -/
inductive Family where
  | romOnly
  | mbc1
  | mbc2
  | mbc3
  | mbc5
deriving DecidableEq, Repr

/-- The twelve controller variants, in the order of 00_scope.md R2. -/
inductive MbcType where
  | romOnly
  | mbc1
  | mbc1Ram
  | mbc1RamBattery
  | mbc2
  | mbc2Battery
  | mbc3
  | mbc3Ram
  | mbc3RamBattery
  | mbc5
  | mbc5Ram
  | mbc5RamBattery
deriving DecidableEq, Repr

/-- The answer of the bus to a read, and the `r` of a `Read` event (20_memory.md R67, R71). -/
inductive ReadAnswer where
  | ok (v : Byte)
  | err
deriving DecidableEq, Repr, Inhabited

/-- The answer of the bus to a write, and the `r` of a `Write` event (20_memory.md R68, R71). -/
inductive WriteAnswer where
  | ok
  | err
deriving DecidableEq, Repr, Inhabited

/-- The bus events, all of them (20_memory.md R71). -/
inductive BusEvent where
  | setAddr (a : Addr)
  | read (a : Addr) (r : ReadAnswer)
  | write (a : Addr) (v : Byte) (r : WriteAnswer)
  | wait
deriving DecidableEq, Repr

/-- What the block asks of the bus: the request the oracle sees (20_memory.md R70). -/
inductive BusRequest where
  | read (a : Addr)
  | write (a : Addr) (v : Byte)
deriving DecidableEq, Repr

/-- The parameters of 00_scope.md R8 (the values the source fixes) and R9 (those it leaves open, each with the
default of that rule). -/
structure Config where
  /-- HEADER_REGION, first address. -/
  headerBase : Addr
  /-- HEADER_REGION, number of bytes. -/
  headerLen : Nat
  /-- HDR_TITLE_OFF. -/
  hdrTitleOff : Addr
  /-- HDR_TYPE_OFF. -/
  hdrTypeOff : Addr
  /-- HDR_ROMSIZE_OFF. -/
  hdrRomSizeOff : Addr
  /-- HDR_RAMSIZE_OFF. -/
  hdrRamSizeOff : Addr
  /-- TYPE_TABLE: the rows of 30_encoding.md R110 but the last ("any other"). -/
  typeTable : List (Byte × MbcType)
  /-- ROM_CODE_MAX. -/
  romCodeMax : Byte
  /-- The RAM-size table of 30_encoding.md R113, but for the row "any other". -/
  ramTable : List (Byte × Word)
  /-- FAM_MAX_ROM_BANKS. -/
  famMaxRomBanks : Family → Nat
  /-- FAM_MAX_RAM_BANKS. -/
  famMaxRamBanks : Family → Nat
  /-- BANK_REG_ADDRS: the RAM enable register of every family that has one. -/
  ramEnableAddr : Addr
  /-- RAM_ENABLE_VALUE. -/
  ramEnableValue : Byte
  /-- RAM_DISABLE_VALUE. -/
  ramDisableValue : Byte
  /-- MBC2_RAM_ENABLE. -/
  mbc2RamEnable : List (Addr × Byte)
  /-- BANK_REG_ADDRS: the (low) ROM bank register of MBC1, MBC3 and MBC5. -/
  romBankAddr : Addr
  /-- BANK_REG_ADDRS: the ROM bank register of MBC2. -/
  mbc2RomBankAddr : Addr
  /-- BANK_REG_ADDRS: the register of MBC5's ROM bank bit 8. -/
  mbc5RomHighAddr : Addr
  /-- BANK_REG_ADDRS: the RAM bank register; on MBC1 also the secondary register of the upper ROM bank bits. -/
  ramBankAddr : Addr
  /-- BANK_REG_ADDRS: the banking mode register of MBC1. -/
  modeAddr : Addr
  /-- The banking mode register's value for ROM mode. -/
  modeRom : Byte
  /-- The banking mode register's value for RAM mode. -/
  modeRam : Byte
  /-- MBC2_FIX_READ_ADDR. -/
  mbc2FixReadAddr : Addr
  /-- RESTORE_PAD_BYTE. -/
  restorePadByte : Byte

/-- The bus oracle of 20_memory.md R70: what the bus answers to a read, from every event since power-on (newest
first) and the request. No law constrains it: a free value (log 3). -/
opaque Config.busRead : List BusEvent → Addr → ReadAnswer

/-- The bus oracle of 20_memory.md R70, for a write: a free value (log 3). -/
opaque Config.busWrite : List BusEvent → Addr → Byte → WriteAnswer

/-- T_SETTLE, in microseconds: OPEN in 00_scope.md R9 and 70_reset_and_hazards.md R305, so a free value (log 12). -/
opaque Config.tSettle : Nat

end Sys2Proof
end

