-- ==== Sys2Proof/Syntax.lean ====
section
/-! DEFINITION. The commands: one constructor per row of spec/opcode_table.json, the formats of their words, and the
commands as a person writes them (a mnemonic and a number, 30_encoding.md R108). -/

namespace Sys2Proof

/-- The sixteen commands of 30_encoding.md R103, with the operand fields of R101. -/
inductive Instr where
  | parseHeader
  | makeRomReader
  | enableRam
  | disableRam
  | selectRomBank (n : BitVec 16)
  | selectRamBank (n : BitVec 16)
  | setAddr (a : BitVec 16)
  | readByte
  | writeByte (v : BitVec 8)
  | romSize
  | romStatus
  | romRead (cap : BitVec 24)
  | ramDump
  | ramRestore
  | xlateRom (o : BitVec 24)
  | xlateRam (o : BitVec 24)
deriving DecidableEq, Repr

/-- The four word formats of 30_encoding.md R101. -/
inductive Format where
  | n
  | b8
  | h16
  | w24
deriving DecidableEq, Repr

/-- How many low bits of the word are the operand; the bits between them and the opcode are reserved
(30_encoding.md R101). -/
def Format.operandBits : Format → Nat
  | .n => 0
  | .b8 => 8
  | .h16 => 16
  | .w24 => 24

/-- The names of 30_encoding.md R103. -/
inductive Mnemonic where
  | parseHeader
  | makeRomReader
  | enableRam
  | disableRam
  | selectRomBank
  | selectRamBank
  | setAddr
  | readByte
  | writeByte
  | romSize
  | romStatus
  | romRead
  | ramDump
  | ramRestore
  | xlateRom
  | xlateRam
deriving DecidableEq, Repr

/-- A command as written in source: a mnemonic and at most one number, which may be too large for its field or be
missing where the format wants it (30_encoding.md R108). -/
structure SourceCommand where
  mnemonic : Mnemonic
  operand  : Option Nat
deriving DecidableEq, Repr

/-- The pseudo-instructions of 30_encoding.md R109: notation only, no word encodes them. -/
inductive Pseudo where
  | readAt (a : BitVec 16)
  | writeAt (a : BitVec 16) (v : BitVec 8)
  | romReadAll
deriving DecidableEq, Repr

end Sys2Proof
end

