-- ==== Sys2Proof/WellFormed.lean ====
section
/-! DEFINITION. What makes a command well formed: its operand fits the field its format has (30_encoding.md R101,
R102, R108). A command of `Instr` has its operand's width in its type, so every one is well formed; the checks bite
on a command as written in source. -/

namespace Sys2Proof

/-- The format of each command (30_encoding.md R103). -/
def Mnemonic.format : Mnemonic → Format
  | .parseHeader | .makeRomReader | .enableRam | .disableRam => .n
  | .selectRomBank | .selectRamBank | .setAddr => .h16
  | .readByte => .n
  | .writeByte => .b8
  | .romSize | .romStatus => .n
  | .romRead => .w24
  | .ramDump | .ramRestore => .n
  | .xlateRom | .xlateRam => .w24

/-- The name of a command's row. -/
def Instr.mnemonic : Instr → Mnemonic
  | .parseHeader => .parseHeader
  | .makeRomReader => .makeRomReader
  | .enableRam => .enableRam
  | .disableRam => .disableRam
  | .selectRomBank _ => .selectRomBank
  | .selectRamBank _ => .selectRamBank
  | .setAddr _ => .setAddr
  | .readByte => .readByte
  | .writeByte _ => .writeByte
  | .romSize => .romSize
  | .romStatus => .romStatus
  | .romRead _ => .romRead
  | .ramDump => .ramDump
  | .ramRestore => .ramRestore
  | .xlateRom _ => .xlateRom
  | .xlateRam _ => .xlateRam

/-- The operand of a command as a number, where its format has one. -/
def Instr.operand? : Instr → Option Nat
  | .selectRomBank n | .selectRamBank n => some n.toNat
  | .setAddr a => some a.toNat
  | .writeByte v => some v.toNat
  | .romRead cap => some cap.toNat
  | .xlateRom o | .xlateRam o => some o.toNat
  | .parseHeader | .makeRomReader | .enableRam | .disableRam | .readByte | .romSize | .romStatus | .ramDump
  | .ramRestore => none

/-- The command as one would write it. -/
def Instr.toSource (i : Instr) : SourceCommand := ⟨i.mnemonic, i.operand?⟩

/-- Why a written command is no command (30_encoding.md R108: an assembly error, never a truncation). -/
inductive SourceError where
  /-- The format has an operand and none is written. -/
  | missingOperand
  /-- The format has no operand and one is written. -/
  | unexpectedOperand
  /-- The number does not fit its field. -/
  | operandTooWide
deriving DecidableEq, Repr

/-- The checks on a written command: the operand is there exactly where the format has one, and fits. -/
def SourceCommand.check (c : SourceCommand) : Except SourceError Unit :=
  match c.mnemonic.format, c.operand with
  | .n, none => .ok ()
  | .n, some _ => .error .unexpectedOperand
  | _, none => .error .missingOperand
  | f, some k => if k < 2 ^ f.operandBits then .ok () else .error .operandTooWide

/-- A written command that passes every check. -/
def SourceCommand.wellFormed (c : SourceCommand) : Bool :=
  match c.check with
  | .ok _ => true
  | .error _ => false

/-- A command is well formed when the command one would write for it is. -/
def Instr.wellFormed (i : Instr) : Bool := i.toSource.wellFormed

end Sys2Proof
end

