-- ==== Sys2Proof/Decode.lean ====
section
/-! DEFINITION. Decoding and encoding command words (30_encoding.md R100 to R107), and the step from a written command
to a command (R108). -/

namespace Sys2Proof

/-- The opcode of each command (30_encoding.md R103). -/
def Mnemonic.opcode : Mnemonic → Byte
  | .parseHeader => 0x01
  | .makeRomReader => 0x02
  | .enableRam => 0x03
  | .disableRam => 0x04
  | .selectRomBank => 0x05
  | .selectRamBank => 0x06
  | .setAddr => 0x07
  | .readByte => 0x08
  | .writeByte => 0x09
  | .romSize => 0x0A
  | .romStatus => 0x0B
  | .romRead => 0x0C
  | .ramDump => 0x0D
  | .ramRestore => 0x0E
  | .xlateRom => 0x0F
  | .xlateRam => 0x10

/-- The opcode map read from the word's side: 0x00 and 0x11 to 0xFF name no command (30_encoding.md R103, R106). -/
def mnemonicOf (op : Byte) : Option Mnemonic :=
  match op.toNat with
  | 0x01 => some .parseHeader
  | 0x02 => some .makeRomReader
  | 0x03 => some .enableRam
  | 0x04 => some .disableRam
  | 0x05 => some .selectRomBank
  | 0x06 => some .selectRamBank
  | 0x07 => some .setAddr
  | 0x08 => some .readByte
  | 0x09 => some .writeByte
  | 0x0A => some .romSize
  | 0x0B => some .romStatus
  | 0x0C => some .romRead
  | 0x0D => some .ramDump
  | 0x0E => some .ramRestore
  | 0x0F => some .xlateRom
  | 0x10 => some .xlateRam
  | _ => none

/-- `cmd[31:24]` (30_encoding.md R100). -/
def opcodeField (w : Word) : Byte := w.extractLsb' 24 8

/-- `imm8 = cmd[7:0]` (30_encoding.md R101). -/
def imm8 (w : Word) : BitVec 8 := w.extractLsb' 0 8

/-- `imm16 = cmd[15:0]` (30_encoding.md R101). -/
def imm16 (w : Word) : BitVec 16 := w.extractLsb' 0 16

/-- `imm24 = cmd[23:0]` (30_encoding.md R101). -/
def imm24 (w : Word) : BitVec 24 := w.extractLsb' 0 24

/-- The reserved bits of a format are all zero in the word (30_encoding.md R101, R106). -/
def reservedClear (f : Format) (w : Word) : Bool :=
  match f with
  | .n => w.extractLsb' 0 24 == 0
  | .b8 => w.extractLsb' 8 16 == 0
  | .h16 => w.extractLsb' 16 8 == 0
  | .w24 => true

/-- The command of a row with its operand taken from the word. -/
def Mnemonic.withOperand (m : Mnemonic) (w : Word) : Instr :=
  match m with
  | .parseHeader => .parseHeader
  | .makeRomReader => .makeRomReader
  | .enableRam => .enableRam
  | .disableRam => .disableRam
  | .selectRomBank => .selectRomBank (imm16 w)
  | .selectRamBank => .selectRamBank (imm16 w)
  | .setAddr => .setAddr (imm16 w)
  | .readByte => .readByte
  | .writeByte => .writeByte (imm8 w)
  | .romSize => .romSize
  | .romStatus => .romStatus
  | .romRead => .romRead (imm24 w)
  | .ramDump => .ramDump
  | .ramRestore => .ramRestore
  | .xlateRom => .xlateRom (imm24 w)
  | .xlateRam => .xlateRam (imm24 w)

/-- Why a word is Illegal: the two causes of 30_encoding.md R106. -/
inductive DecodeError where
  /-- The opcode is 0x00 or in 0x11 to 0xFF. -/
  | unknownOpcode (op : Byte)
  /-- A reserved bit of the format is 1. -/
  | reservedBitSet (m : Mnemonic)
deriving DecidableEq, Repr

/-- Total decoding of a command word; an error is the verdict Illegal (30_encoding.md R106, R107). -/
def decode (w : Word) : Except DecodeError Instr :=
  match mnemonicOf (opcodeField w) with
  | none => .error (.unknownOpcode (opcodeField w))
  | some m => if reservedClear m.format w then .ok (m.withOperand w) else .error (.reservedBitSet m)

/-- The instruction the decoder reads from the word whose bits are w, bits at and above nbits being 0. -/
def decodeTableWord (nbits w : Nat) : Option Instr :=
  match decode (BitVec.ofNat 32 (w % 2 ^ nbits)) with
  | .ok i => some i
  | .error _ => none

/-- The operand area of a command's word, its reserved bits 0 (30_encoding.md R101). -/
def Instr.operandArea : Instr → BitVec 24
  | .selectRomBank n | .selectRamBank n => n.setWidth 24
  | .setAddr a => a.setWidth 24
  | .writeByte v => v.setWidth 24
  | .romRead cap => cap
  | .xlateRom o | .xlateRam o => o
  | .parseHeader | .makeRomReader | .enableRam | .disableRam | .readByte | .romSize | .romStatus | .ramDump
  | .ramRestore => 0

/-- The word of a command: opcode in bits 31:24, operand area below (30_encoding.md R100, R101, R103). -/
def encode (i : Instr) : Word := i.mnemonic.opcode ++ i.operandArea

/-- A written command that passes the checks becomes a command; one that does not is an assembly error
(30_encoding.md R108). -/
def SourceCommand.toInstr (c : SourceCommand) : Except SourceError Instr :=
  match c.check with
  | .error e => .error e
  | .ok _ => .ok (c.mnemonic.withOperand (BitVec.ofNat 32 (c.operand.getD 0)))

end Sys2Proof
end

