-- ==== Sys2Proof/Machine/State.lean ====
section
/-! DEFINITION. The state of the MBC core (10_state.md), the result record (30_encoding.md R104), the host and the bus
side as the block sees them (60_exceptions.md R288), the stops, and the state after reset (10_state.md R40). -/

namespace Sys2Proof.Machine

/-- S.phase (10_state.md R20). -/
inductive Phase where
  | noSession
  | ready
  | faulted
deriving DecidableEq, Repr

/-- What S.fault may hold: the two fatal errors (10_state.md R21). -/
inductive FatalError where
  | busError
  | fileIoError
deriving DecidableEq, Repr

/-- The status of a result: every status of 60_exceptions.md R270. -/
inductive Status where
  | ok
  | busError
  | unsupportedOperation
  | fileIoError
  | illegalCommand
  | noSession
  | sessionFaulted
  | addressUnset
  | controlWriteRefused
  | ramNotEnabled
deriving DecidableEq, Repr

/-- A CartridgeHeader (10_state.md R23, R24). -/
structure Header where
  title   : Vector Byte 16
  mbcType : MbcType
  romSize : Word
  ramSize : Word
  /-- Bit 0 TITLE_NOT_TEXT, bit 1 TYPE_UNRECOGNISED. -/
  warn    : BitVec 2
deriving DecidableEq, Repr

/-- The DriverState S.drv: what the driver last wrote (10_state.md R25, R26). -/
structure Driver where
  romBank    : Bank
  ramBank    : Bank
  ramEnabled : Bool
deriving DecidableEq, Repr

/-- The streaming ROM reader S.rd (10_state.md R28). -/
structure Reader where
  cursor : Offset
  eos    : Bool
deriving DecidableEq, Repr

/-- The host input source S.in (10_state.md R32). -/
structure InputSource where
  bytes : List Byte
  fails : Bool
deriving DecidableEq, Repr

/-- The result record (30_encoding.md R104). -/
structure Result where
  status : Status
  value  : Word
  aux    : Word
  flag   : Bool
  hdr    : Option Header
deriving DecidableEq, Repr

/-- What the host does to the block, one action at a time (60_exceptions.md R288; 70_reset_and_hazards.md R300). -/
inductive HostAction where
  /-- Issue a command word. -/
  | command (w : Word)
  /-- Set S.in (10_state.md R32). -/
  | setInput (src : InputSource)
  /-- Reset the block; no command word does (70_reset_and_hazards.md R300). -/
  | reset
deriving DecidableEq, Repr

/-- A memory of the cartridge behind the bus: (address, byte) pairs, addresses strictly rising, no entry equal to what
an unlisted address reads as (Machine/Memory.lean has its operations and its canonical form). -/
abbrev Memory := List Host.Cell

/-- The reference cartridge of 95_test_vectors.md section 2: one bus side, with the control registers of 10_state.md
R34 to R37 (log 13). -/
structure RefCart where
  family   : Family
  /-- `rs`, the length of the ROM image. -/
  romSize  : Nat
  /-- The ROM bytes that differ from the fixture's pattern. -/
  rom      : Memory
  /-- `rsz`, the length of the RAM image. -/
  ramSize  : Nat
  /-- The RAM image `M`. -/
  ram      : Memory
  ramg     : Bool
  r1       : Byte
  r2       : Byte
  r2h      : Bool
  mode     : Bool
  /-- `k`, how many requests have been made. -/
  requests : Nat
  /-- `F`, the request indices that fail. -/
  failures : List Nat
deriving DecidableEq, Repr

/-- Who answers the bus requests (20_memory.md R70; log 3). -/
inductive BusSide where
  /-- A cartridge about which nothing is known: first the answers already lined up, then the oracle's. -/
  | unknown (answers : List ReadAnswer)
  /-- The reference cartridge. -/
  | reference (c : RefCart)
deriving DecidableEq, Repr

/-- The block state S (10_state.md), the results it has returned, and what stands around it. Lists that only grow are
held newest first (log 8); `State.trace`, `State.out` and `State.results` read them in issue order. -/
structure State where
  phase      : Phase
  fault      : Option FatalError
  hdr        : Option Header
  drv        : Driver
  rd         : Reader
  /-- S.addr, the adapter's address as last set (10_state.md R29). -/
  addr       : Option Addr
  /-- S.trace, newest event first (10_state.md R30). -/
  revTrace   : List BusEvent
  /-- S.out, newest byte first (10_state.md R31). -/
  revOut     : List Byte
  /-- S.in (10_state.md R32). -/
  input      : InputSource
  /-- The result records returned since reset, newest first (30_encoding.md R104; log 5). -/
  revResults : List Result
  /-- The model's own: what the host will do, the next action first (log 1). -/
  host       : List HostAction
  /-- The model's own: the bus side (log 3). -/
  bus        : BusSide
  /-- The model's own: the bus events issued before the last reset, newest first (log 4). -/
  revPast    : List BusEvent
deriving DecidableEq, Repr

/-- No behaviour of the spec stops the machine: an error is a result record and, where it is fatal, phase Faulted
(00_scope.md R18, 60_exceptions.md R283; log 16). So there is no reason to stop with, and this type has no
constructor. -/
inductive Fault where
deriving DecidableEq, Repr

/-- Why an instruction may have no meaning. -/
inductive Refusal where
  /-- Raised by an arm of `exec` whose instruction has no meaning in the model yet; no arm is one. Safe: the machine
  stops. -/
  | notModelled (mnemonic : String)
deriving DecidableEq, Repr

/-- The state after reset (10_state.md R40). The spec leaves S.in to the host; the fields of the model's own are empty
(log 1, log 4, log 6, log 7). -/
def State.reset : State where
  phase := .noSession
  fault := none
  hdr := none
  drv := { romBank := 1, ramBank := 0, ramEnabled := false }
  rd := { cursor := 0, eos := false }
  addr := none
  revTrace := []
  revOut := []
  input := { bytes := [], fails := false }
  revResults := []
  host := []
  bus := .unknown []
  revPast := []

end Sys2Proof.Machine
end

