-- ==== Sys2Proof/Machine/Memory.lean ====
section
/-! DEFINITION. The memories of the reference cartridge: sparse, in one canonical form. `dflt` says what an unlisted
address reads as. -/

namespace Sys2Proof.Machine

/-- One byte of a memory. -/
def Memory.read (dflt : Nat → Byte) : Memory → Nat → Byte
  | [], a => dflt a
  | (b, w) :: m, a => if a = b then w else Memory.read dflt m a

/-- A memory with one byte stored; storing what an unlisted address reads as removes the entry. -/
def Memory.write (dflt : Nat → Byte) : Memory → Nat → Byte → Memory
  | [], a, v => if v = dflt a then [] else [(a, v)]
  | (b, w) :: m, a, v =>
    if a < b then (if v = dflt a then (b, w) :: m else (a, v) :: (b, w) :: m)
    else if a = b then (if v = dflt a then m else (a, v) :: m)
    else (b, w) :: Memory.write dflt m a v

/-- The canonical form: addresses strictly rising, no entry equal to what an unlisted address reads as. -/
abbrev Memory.wf (dflt : Nat → Byte) (m : Memory) : Prop :=
  m.Pairwise (fun x y => x.1 < y.1) ∧ ∀ c ∈ m, c.2 ≠ dflt c.1

end Sys2Proof.Machine
end

