-- ==== Sys2Proof/Machine/Params.lean ====
section
/-! DEFINITION. The values of the parameters (00_scope.md R8, R9; log 11), and the fixed windows of the bus. -/

namespace Sys2Proof.Machine

/-- ROM_BANK_SIZE (00_scope.md R8). -/
def romBankSize : Nat := 0x4000

/-- RAM_BANK_SIZE (00_scope.md R8). -/
def ramBankSize : Nat := 0x2000

/-- The first address of ROM_SWITCH_WINDOW (00_scope.md R8). -/
def romSwitchBase : Nat := 0x4000

/-- The first address of RAM_WINDOW (00_scope.md R8). -/
def ramWindowBase : Nat := 0xA000

/-- An address of the control-register region 0x0000-0x7FFF (20_memory.md R61). -/
def isControlAddr (a : Addr) : Bool := a.toNat < 0x8000

/-- An address of RAM_WINDOW 0xA000-0xBFFF (00_scope.md R8, 20_memory.md R61). -/
def isRamWindow (a : Addr) : Bool := 0xA000 ≤ a.toNat && a.toNat ≤ 0xBFFF

/-- The parameters at the values and defaults of 00_scope.md R8 and R9. The type table is 30_encoding.md R110, the RAM
table R113, the register addresses R114, the header offsets R116. -/
def params : Config where
  headerBase := 0x0100
  headerLen := 0x50
  hdrTitleOff := 0x0134
  hdrTypeOff := 0x0147
  hdrRomSizeOff := 0x0148
  hdrRamSizeOff := 0x0149
  typeTable :=
    [(0x00, .romOnly),
     (0x01, .mbc1), (0x02, .mbc1Ram), (0x03, .mbc1RamBattery),
     (0x05, .mbc2), (0x06, .mbc2Battery),
     (0x11, .mbc3), (0x12, .mbc3Ram), (0x13, .mbc3RamBattery),
     (0x19, .mbc5), (0x1A, .mbc5Ram), (0x1B, .mbc5RamBattery)]
  romCodeMax := 0x08
  ramTable := [(0x00, 0), (0x02, 0x2000), (0x03, 0x8000), (0x04, 0x20000), (0x05, 0x10000)]
  famMaxRomBanks := fun
    | .romOnly => 2
    | .mbc1 => 128
    | .mbc2 => 16
    | .mbc3 => 128
    | .mbc5 => 512
  famMaxRamBanks := fun
    | .romOnly => 0
    | .mbc1 => 4
    | .mbc2 => 0
    | .mbc3 => 4
    | .mbc5 => 16
  ramEnableAddr := 0x0000
  ramEnableValue := 0x0A
  ramDisableValue := 0x00
  mbc2RamEnable := [(0x0000, 0x0A)]
  romBankAddr := 0x2000
  mbc2RomBankAddr := 0x2100
  mbc5RomHighAddr := 0x3000
  ramBankAddr := 0x4000
  modeAddr := 0x6000
  modeRom := 0x00
  modeRam := 0x01
  mbc2FixReadAddr := 0x0134
  restorePadByte := 0xFF

/-- The family of a controller variant (30_encoding.md R111). -/
def familyOf : MbcType → Family
  | .romOnly => .romOnly
  | .mbc1 | .mbc1Ram | .mbc1RamBattery => .mbc1
  | .mbc2 | .mbc2Battery => .mbc2
  | .mbc3 | .mbc3Ram | .mbc3RamBattery => .mbc3
  | .mbc5 | .mbc5Ram | .mbc5RamBattery => .mbc5

/-- The 4 bit code of a controller variant: its place in the list of 00_scope.md R2 (10_state.md R23). -/
def mbcTypeCode : MbcType → BitVec 4
  | .romOnly => 0
  | .mbc1 => 1
  | .mbc1Ram => 2
  | .mbc1RamBattery => 3
  | .mbc2 => 4
  | .mbc2Battery => 5
  | .mbc3 => 6
  | .mbc3Ram => 7
  | .mbc3RamBattery => 8
  | .mbc5 => 9
  | .mbc5Ram => 10
  | .mbc5RamBattery => 11

/-- `family(h)` (00_scope.md R17). -/
def family (h : Header) : Family := familyOf h.mbcType

/-- `rom_banks(h)` (00_scope.md R17). -/
def romBanks (h : Header) : Nat := h.romSize.toNat / romBankSize

/-- `ram_banks(h)` (00_scope.md R17). -/
def ramBanks (h : Header) : Nat := h.ramSize.toNat / ramBankSize

/-- `has_ram_banking(f)` (00_scope.md R17). -/
def hasRamBanking : Family → Bool
  | .mbc1 | .mbc3 | .mbc5 => true
  | .romOnly | .mbc2 => false

/-- `lim_rom(h)` (41_driver.md R182). -/
def limRom (h : Header) : Nat := min (params.famMaxRomBanks (family h)) (romBanks h)

/-- `lim_ram(h)` (41_driver.md R182). -/
def limRam (h : Header) : Nat := min (params.famMaxRamBanks (family h)) (ramBanks h)

end Sys2Proof.Machine
end

