-- ==== Sys2Proof/Machine/Cartridge.lean ====
section
/-! DEFINITION. Who answers a bus request: the oracle (20_memory.md R70) or the reference cartridge of
95_test_vectors.md section 2, which has the control registers of 10_state.md R34 to R37. The reference cartridge is a
test fixture and no part of the block (log 13). -/

namespace Sys2Proof.Machine

/-- `PAT(o) = (o / 0x4000 + o) mod 256`: the fixture's ROM contents where its image lists nothing. -/
def romPattern (o : Nat) : Byte := BitVec.ofNat 8 (o / 0x4000 + o)

/-- What an unlisted byte of the fixture's RAM image holds (DESIGN CHOICE, log 13). -/
def ramFill (_ : Nat) : Byte := 0

/-- `ROM[o]`. -/
def RefCart.romByte (c : RefCart) (o : Nat) : Byte := Memory.read romPattern c.rom o

/-- `M[o]`. -/
def RefCart.ramByte (c : RefCart) (o : Nat) : Byte := Memory.read ramFill c.ram o

/-- `rombank()`, with MBC1's aliasing of a BANK1 of 0 (70_reset_and_hazards.md R315). -/
def RefCart.romBank (c : RefCart) : Nat :=
  match c.family with
  | .mbc1 => (if c.r1 = 0 then 1 else c.r1.toNat) ||| (c.r2.toNat <<< 5)
  | .mbc2 | .mbc3 => if c.r1 = 0 then 1 else c.r1.toNat
  | .mbc5 => c.r1.toNat ||| (c.r2h.toNat <<< 8)
  | .romOnly => 1

/-- `rambank()`. -/
def RefCart.ramBank (c : RefCart) : Nat :=
  match c.family with
  | .mbc1 => if c.mode then c.r2.toNat else 0
  | .mbc3 | .mbc5 => c.r2.toNat
  | .mbc2 | .romOnly => 0

/-- The RAM image offset the RAM window shows at bus address a. -/
def RefCart.ramOffset (c : RefCart) (a : Addr) : Nat :=
  (c.ramBank * ramBankSize + (a.toNat - ramWindowBase)) % c.ramSize

/-- The RAM window answers: RAM is enabled and there is some. -/
def RefCart.ramVisible (c : RefCart) (a : Addr) : Bool := isRamWindow a && c.ramg && decide (0 < c.ramSize)

/-- The value that enables RAM: the low four bits are 0x0A. -/
def ramgValue (v : Byte) : Bool := v &&& 0x0F == 0x0A

/-- A write to 0x0000-0x7FFF: the control registers of the cartridge's family (10_state.md R33 to R37). -/
def RefCart.writeControl (c : RefCart) (a : Addr) (v : Byte) : RefCart :=
  match c.family with
  | .romOnly => c
  | .mbc1 =>
    if a.toNat < 0x2000 then { c with ramg := ramgValue v }
    else if a.toNat < 0x4000 then { c with r1 := v &&& 0x1F }
    else if a.toNat < 0x6000 then { c with r2 := v &&& 0x03 }
    else { c with mode := v.getLsbD 0 }
  | .mbc2 =>
    if a.toNat < 0x4000 then
      (if a.getLsbD 8 then { c with r1 := v &&& 0x0F } else { c with ramg := ramgValue v })
    else c
  | .mbc3 =>
    if a.toNat < 0x2000 then { c with ramg := ramgValue v }
    else if a.toNat < 0x4000 then { c with r1 := v &&& 0x7F }
    else if a.toNat < 0x6000 then { c with r2 := v }
    else c
  | .mbc5 =>
    if a.toNat < 0x2000 then { c with ramg := ramgValue v }
    else if a.toNat < 0x3000 then { c with r1 := v }
    else if a.toNat < 0x4000 then { c with r2h := v.getLsbD 0 }
    else if a.toNat < 0x6000 then { c with r2 := v &&& 0x0F }
    else c

/-- What a write that does not fail changes in the cartridge. -/
def RefCart.store (c : RefCart) (a : Addr) (v : Byte) : RefCart :=
  if isControlAddr a then c.writeControl a v
  else if c.ramVisible a then { c with ram := Memory.write ramFill c.ram (c.ramOffset a) v }
  else c

/-- What a read that does not fail answers. -/
def RefCart.load (c : RefCart) (a : Addr) : Byte :=
  if a.toNat ≤ 0x3FFF then c.romByte (a.toNat % c.romSize)
  else if a.toNat ≤ 0x7FFF then c.romByte ((c.romBank * romBankSize + (a.toNat - romSwitchBase)) % c.romSize)
  else if c.ramVisible a then c.ramByte (c.ramOffset a)
  else 0xFF

/-- The cartridge with one more request counted. -/
def RefCart.count (c : RefCart) : RefCart := { c with requests := c.requests + 1 }

/-- The next request is one of the failures `F`. -/
def RefCart.failing (c : RefCart) : Bool := c.failures.contains c.requests

/-- The answer to `Read(a)` and the bus side after it. `past` is every event so far, newest first. -/
def BusSide.read (past : List BusEvent) (a : Addr) : BusSide → ReadAnswer × BusSide
  | .unknown [] => (Config.busRead past a, .unknown [])
  | .unknown (r :: rs) => (r, .unknown rs)
  | .reference c => if c.failing then (.err, .reference c.count) else (.ok (c.load a), .reference c.count)

/-- The answer to `Write(a, v)` and the bus side after it. An answer lined up for a write says only whether it
succeeds. -/
def BusSide.write (past : List BusEvent) (a : Addr) (v : Byte) : BusSide → WriteAnswer × BusSide
  | .unknown [] => (Config.busWrite past a v, .unknown [])
  | .unknown (.ok _ :: rs) => (.ok, .unknown rs)
  | .unknown (.err :: rs) => (.err, .unknown rs)
  | .reference c => if c.failing then (.err, .reference c.count) else (.ok, .reference (c.store a v).count)

end Sys2Proof.Machine
end

