-- ==== Sys2Proof/Machine/Operands.lean ====
section
/-! DEFINITION. Every operand form and its use (30_encoding.md R101, R102): each immediate is unsigned and
zero-extended, none is scaled, shifted or sign-extended. And the bit fields a bank number is split into
(20_memory.md R75). -/

namespace Sys2Proof.Machine

/-- imm16 as a bank number, zero-extended from 16 bits. -/
def bankOperand (n : BitVec 16) : Nat := n.toNat

/-- imm16 as a bus address. -/
def addrOperand (a : BitVec 16) : Addr := a

/-- imm8 as a data byte. -/
def dataOperand (v : BitVec 8) : Byte := v

/-- imm24 as a byte count. -/
def countOperand (cap : BitVec 24) : Nat := cap.toNat

/-- imm24 as a logical offset. -/
def offsetOperand (o : BitVec 24) : Nat := o.toNat

/-- `n[lo+len-1:lo]` of a bank number, zero-extended to the byte that is written (00_scope.md R11). -/
def bankField (n : Bank) (lo len : Nat) : Byte := (n.extractLsb' lo len).setWidth 8

/-- `zext_32` of a field (00_scope.md R11). -/
def zext32 {k : Nat} (v : BitVec k) : Word := v.setWidth 32

end Sys2Proof.Machine
end

