-- ==== Sys2Proof/Machine/Flags.lean ====
section
/-! DEFINITION. Every flag and status bit the spec computes: the warning bits of a header (10_state.md R24,
40_header.md R147), the result's flag (30_encoding.md R105), the status codes (60_exceptions.md R270), and the RAM
protocol state that is a view of one bit (10_state.md R27). -/

namespace Sys2Proof.Machine

/-- A byte of lo to hi. -/
def inRange (lo hi : Nat) (b : Byte) : Bool := lo ≤ b.toNat && b.toNat ≤ hi

/-- A UTF-8 continuation byte, 0x80 to 0xBF. -/
def isCont (b : Byte) : Bool := inRange 0x80 0xBF b

/-- Well-formed UTF-8: the table of well-formed byte sequences of the Unicode Standard (no overlong form, no
surrogate, nothing above U+10FFFF). PRESUMED (log 10): 40_header.md R147 names the test and does not give its table. -/
def wellFormedUtf8 : List Byte → Bool
  | [] => true
  | b0 :: t0 =>
    if b0.toNat < 0x80 then wellFormedUtf8 t0
    else match t0 with
      | [] => false
      | b1 :: t1 =>
        if inRange 0xC2 0xDF b0 && isCont b1 then wellFormedUtf8 t1
        else match t1 with
          | [] => false
          | b2 :: t2 =>
            if (inRange 0xE0 0xE0 b0 && inRange 0xA0 0xBF b1 || inRange 0xE1 0xEC b0 && isCont b1
                || inRange 0xED 0xED b0 && inRange 0x80 0x9F b1 || inRange 0xEE 0xEF b0 && isCont b1)
                && isCont b2 then wellFormedUtf8 t2
            else match t2 with
              | [] => false
              | b3 :: t3 =>
                (inRange 0xF0 0xF0 b0 && inRange 0x90 0xBF b1 || inRange 0xF1 0xF3 b0 && isCont b1
                  || inRange 0xF4 0xF4 b0 && inRange 0x80 0x8F b1)
                  && isCont b2 && isCont b3 && wellFormedUtf8 t3

/-- `TitleNotText(title)`: taken over all 16 bytes together (40_header.md R147). -/
def titleNotText (title : Vector Byte 16) : Bool := !wellFormedUtf8 title.toList

/-- `h.warn = (t_unrec << 1) | TitleNotText` (40_header.md R142, 10_state.md R24). -/
def warnBits (typeUnrecognised titleIsNotText : Bool) : BitVec 2 :=
  BitVec.ofBool typeUnrecognised ++ BitVec.ofBool titleIsNotText

/-- The result flag of PARSE_HEADER and MAKE_ROM_READER: `h.warn != 0` (30_encoding.md R105). -/
def warnFlag (h : Header) : Bool := h.warn != 0

/-- The in_range flag of XLATE_ROM and XLATE_RAM (30_encoding.md R105, 44_translate.md R260, R261). -/
def inRangeFlag (o : Nat) (size : Word) : Bool := decide (o < size.toNat)

/-- The status code returned in `res.status` (60_exceptions.md R270). -/
def statusCode : Status → BitVec 8
  | .ok => 0x00
  | .busError => 0x01
  | .unsupportedOperation => 0x02
  | .fileIoError => 0x03
  | .illegalCommand => 0x04
  | .noSession => 0x05
  | .sessionFaulted => 0x06
  | .addressUnset => 0x07
  | .controlWriteRefused => 0x08
  | .ramNotEnabled => 0x09

/-- The fatal (sticky) statuses: BusError and FileIoError alone (60_exceptions.md R270, R272, R273). -/
def fatalOf : Status → Option FatalError
  | .busError => some .busError
  | .fileIoError => some .fileIoError
  | .ok | .unsupportedOperation | .illegalCommand | .noSession | .sessionFaulted | .addressUnset
  | .controlWriteRefused | .ramNotEnabled => none

/-- The RAM protocol's two stored states (10_state.md R27). -/
inductive RamProtocol where
  | idle
  | ramEnabled
deriving DecidableEq, Repr

/-- The RAM protocol state is a function of the bit ram_enabled (10_state.md R27). -/
def ramProtocol (d : Driver) : RamProtocol := if d.ramEnabled then .ramEnabled else .idle

end Sys2Proof.Machine
end

