-- ==== Sys2Proof/Machine/Ops.lean ====
section
/-! DEFINITION. The named operations every meaning is made of: the bus primitives (20_memory.md R66 to R76), raising an
error and the session checks (00_scope.md R14, 60_exceptions.md R271), the loops, the output and input streams, how a
command ends (30_encoding.md R104, 60_exceptions.md R272, R273, R283), and the reset event
(70_reset_and_hazards.md R300). -/

namespace Sys2Proof.Machine

/-! ### Reading the growing lists in issue order -/

/-- S.trace (10_state.md R30). -/
def State.trace (s : State) : List BusEvent := s.revTrace.reverse

/-- S.out (10_state.md R31). -/
def State.out (s : State) : List Byte := s.revOut.reverse

/-- The result records returned since reset, in order. -/
def State.results (s : State) : List Result := s.revResults.reverse

/-- The result record of the last command. -/
def State.lastResult (s : State) : Option Result := s.revResults.head?

/-- Every bus event since power-on, newest first: what the oracle sees (20_memory.md R70, log 4). -/
def State.history (s : State) : List BusEvent := s.revTrace ++ s.revPast

/-- One more event in S.trace (20_memory.md R71). -/
def State.record (e : BusEvent) (s : State) : State := { s with revTrace := e :: s.revTrace }

/-- One more result record. -/
def State.respond (r : Result) (s : State) : State := { s with revResults := r :: s.revResults }

/-! ### Commands as procedures over the state -/

/-- An error raised inside a command: its status, and how many data bytes the command has moved so far
(30_encoding.md R104). -/
structure Raised where
  status : Status
  moved  : Nat
deriving DecidableEq, Repr

/-- A procedure of the spec's pseudocode: it reads and writes S, and returns a value or raises an error. What it wrote
before the raise persists (00_scope.md R14). -/
abbrev Proc := EStateM Raised State

/-- `raise E` (00_scope.md R14). -/
def raise {α : Type} (e : Status) : Proc α := fun s => .error ⟨e, 0⟩ s

/-- A write to S. -/
def modifyState (f : State → State) : Proc Unit := fun s => .ok () (f s)

/-- A procedure some of whose command's data bytes have been moved before it: an error of its own counts them. -/
def withMoved {α : Type} (k : Nat) (p : Proc α) : Proc α := fun s =>
  match p s with
  | .ok a t => .ok a t
  | .error e t => .error ⟨e.status, k + e.moved⟩ t

/-- `for i in first .. first + n - 1`: a loop that moves one data byte each time round, in ascending order
(00_scope.md R14). -/
def forBytes (body : Nat → Proc Unit) : (n first moved : Nat) → Proc Unit
  | 0, _, _ => pure ()
  | n + 1, first, moved => do
    withMoved moved (body first)
    forBytes body n (first + 1) (moved + 1)

/-- `for b in first .. first + n - 1` over banks of `size` bytes, each of which moves `size` data bytes. -/
def forBanks (size : Nat) (body : Nat → Proc Unit) : (n first : Nat) → Proc Unit
  | 0, _ => pure ()
  | n + 1, first => do
    withMoved (first * size) (body first)
    forBanks size body n (first + 1)

/-! ### The bus primitives -/

/-- `BusSetAddr(a)` (20_memory.md R66). -/
def busSetAddr (a : Addr) : Proc Unit := modifyState fun s => { s.record (.setAddr a) with addr := some a }

/-- `BusRead()` at S.addr (20_memory.md R67). Every caller has set S.addr or checked it; with none it raises
AddressUnset, the status of that check (log 9). -/
def busRead : Proc Byte := fun s =>
  match s.addr with
  | none => raise .addressUnset s
  | some a =>
    match s.bus.read s.history a with
    | (.ok v, side) => .ok v { s.record (.read a (.ok v)) with bus := side }
    | (.err, side) => raise .busError { s.record (.read a .err) with bus := side }

/-- `BusWrite(v)` at S.addr (20_memory.md R68); with no address as `busRead`. -/
def busWrite (v : Byte) : Proc Unit := fun s =>
  match s.addr with
  | none => raise .addressUnset s
  | some a =>
    match s.bus.write s.history a v with
    | (.ok, side) => .ok () { s.record (.write a v .ok) with bus := side }
    | (.err, side) => raise .busError { s.record (.write a v .err) with bus := side }

/-- `Wait(T_SETTLE)`: an event and nothing else (20_memory.md R76). -/
def settleWait : Proc Unit := modifyState fun s => s.record .wait

/-- `MemRead(a, 1)` (20_memory.md R69). -/
def memRead (a : Addr) : Proc Byte := do
  busSetAddr a
  busRead

/-- `MemWrite(a, 1, v)` (20_memory.md R69). -/
def memWrite (a : Addr) (v : Byte) : Proc Unit := do
  busSetAddr a
  busWrite v

/-- How long the settle waits of a trace last together: T_SETTLE each (70_reset_and_hazards.md R305). -/
def settleTime (trace : List BusEvent) : Nat := trace.count .wait * Config.tSettle

/-! ### The streams -/

/-- `Emit(v)` (00_scope.md R13, 10_state.md R31). -/
def emit (v : Byte) : Proc Unit := modifyState fun s => { s with revOut := v :: s.revOut }

/-- `TakeInput(k)` (43_ram_accessor.md R236). -/
def takeInput (k : Nat) : Proc (List Byte) := fun s =>
  if k ≤ s.input.bytes.length then
    .ok (s.input.bytes.take k) { s with input := { s.input with bytes := s.input.bytes.drop k } }
  else if s.input.fails then raise .fileIoError s
  else .ok s.input.bytes { s with input := { s.input with bytes := [] } }

/-! ### The session checks -/

/-- Step 2 of the command frame: SessionFaulted (60_exceptions.md R271, R277). -/
def requireNotFaulted : Proc Unit := fun s =>
  match s.phase with
  | .faulted => raise .sessionFaulted s
  | .noSession | .ready => .ok () s

/-- `RequireSession()`: steps 2 and 3 of the command frame (60_exceptions.md R271, R276, R277). -/
def requireSession : Proc Unit := fun s =>
  match s.phase with
  | .faulted => raise .sessionFaulted s
  | .noSession => raise .noSession s
  | .ready => .ok () s

/-- The session header h (41_driver.md). In phase Ready S.hdr is some h (10_state.md R20); in a state where it is not,
which no run reaches, there is no session to speak of: NoSession (log 9). -/
def sessionHeader : Proc Header := fun s =>
  match s.hdr with
  | some h => .ok h s
  | none => raise .noSession s

/-! ### How a command ends -/

/-- What `return (value, aux, flag)` gives, and the header of the header commands (00_scope.md R14, 30_encoding.md
R104, R105). -/
structure Reply where
  value : Word
  aux   : Word
  flag  : Bool
  hdr   : Option Header
deriving DecidableEq, Repr

/-- `return (0, 0, 0)`. -/
def Reply.nothing : Reply := ⟨0, 0, false, none⟩

/-- `return (value, 0, 0)`. -/
def Reply.ofValue (v : Word) : Reply := ⟨v, 0, false, none⟩

/-- The result record of a command that returns (30_encoding.md R104, R105). -/
def okResult (r : Reply) : Result := ⟨.ok, r.value, r.aux, r.flag, r.hdr⟩

/-- The result record of a command that raised an error: value is the number of data bytes moved, aux, flag and hdr are
0 and none (30_encoding.md R104). -/
def errorResult (e : Raised) : Result := ⟨e.status, BitVec.ofNat 32 e.moved, 0, false, none⟩

/-- The fatal errors make the phase Faulted and say why in S.fault; the others change nothing (60_exceptions.md R272,
R273, R274, R283). -/
def State.enterFaulted (e : Status) (s : State) : State :=
  match fatalOf e with
  | some f => { s with phase := .faulted, fault := some f }
  | none => s

/-- TAKING AN ERROR, the one shared operation: its effects are the status in the result record, the phase and S.fault
for the fatal ones, and what was written before it; no vector, no handler, no mode (60_exceptions.md R283; log 16). -/
def takeError (e : Raised) (s : State) : State := (s.enterFaulted e.status).respond (errorResult e)

/-- There is no return from an error (60_exceptions.md R284): after a sticky one only the RESET EVENT restores service.
It puts every field into its reset value but S.in, issues no bus event, writes no cartridge register
(70_reset_and_hazards.md R300, 10_state.md R40), and leaves the host and the cartridge as they are (log 4). -/
def resetEvent (s : State) : State :=
  { State.reset with input := s.input, host := s.host, bus := s.bus, revPast := s.history }

/-- The state after a command's procedure, with its result record returned (00_scope.md R18, 30_encoding.md R104). -/
def complete (x : EStateM.Result Raised State Reply) : State :=
  match x with
  | .ok r s => s.respond (okResult r)
  | .error e s => takeError e s

/-- The one way a meaning ends: a next state, whatever the procedure did. -/
def runCommand (p : Proc Reply) (s : State) : Host.Outcome State Fault Refusal := .next (complete (p s))

/-- An illegal word changes no state and issues no event (30_encoding.md R106, 60_exceptions.md R275). -/
def illegalCommand (_ : DecodeError) (s : State) : State := takeError ⟨.illegalCommand, 0⟩ s

/-! ### The host's actions -/

/-- What the block finds at its host port. -/
inductive Fetched where
  /-- No action is queued: the block waits for the next command (70_reset_and_hazards.md R301, 60_exceptions.md
  R292). -/
  | idle
  /-- A command word, and the state with the word taken from the queue. -/
  | word (w : Word) (s : State)
  /-- A host action that is no command has been done. -/
  | done (s : State)
deriving DecidableEq, Repr

/-- Take the host's next action (60_exceptions.md R288; log 1). -/
def fetch (s : State) : Fetched :=
  match s.host with
  | [] => .idle
  | .command w :: rest => .word w { s with host := rest }
  | .setInput src :: rest => .done { s with host := rest, input := src }
  | .reset :: rest => .done (resetEvent { s with host := rest })

end Sys2Proof.Machine
end

