-- ==== Sys2Proof/Machine/Header.lean ====
section
/-! DEFINITION. The header parser: decoding (40_header.md R142 to R148, 30_encoding.md R110, R112, R113) and the
commands PARSE_HEADER and MAKE_ROM_READER (40_header.md R140, R141). -/

namespace Sys2Proof.Machine

/-- A row of a table of codes. -/
def tableLookup {α : Type} (table : List (Byte × α)) (code : Byte) : Option α :=
  (table.find? fun row => row.1 == code).map (·.2)

/-- `DecodeType(t)`: the variant, and whether the byte is unrecognised (40_header.md R144). -/
def decodeType (t : Byte) : MbcType × Bool :=
  match tableLookup params.typeTable t with
  | some m => (m, false)
  | none => (.romOnly, true)

/-- `rom_size(code)` (30_encoding.md R112). -/
def romSizeOf (code : Byte) : Word := if code ≤ params.romCodeMax then 0x8000 <<< code.toNat else 0

/-- `ram_table(c)` (30_encoding.md R113). -/
def ramTableSize (code : Byte) : Word := (tableLookup params.ramTable code).getD 0

/-- `DecodeRam(mt, c)` (40_header.md R146). -/
def decodeRam (mt : MbcType) (code : Byte) : Word := if mt = .romOnly then 0 else ramTableSize code

/-- Where a header field stands in the bytes of the read pass (40_header.md R142). -/
def headerIndex (off : Addr) : Nat := off.toNat - params.headerBase.toNat

/-- The header of the 80 raw bytes (40_header.md R142). -/
def decodeHeader (raw : List Byte) : Header :=
  let title := Vector.ofFn fun i : Fin 16 => raw.getD (headerIndex params.hdrTitleOff + i.val) 0
  let t := decodeType (raw.getD (headerIndex params.hdrTypeOff) 0)
  { title := title
    mbcType := t.1
    romSize := romSizeOf (raw.getD (headerIndex params.hdrRomSizeOff) 0)
    ramSize := decodeRam t.1 (raw.getD (headerIndex params.hdrRamSizeOff) 0)
    warn := warnBits t.2 (titleNotText title) }

/-- `n` bytes read from bus address `a` on, one MemRead each, ascending. -/
def readRange : (n : Nat) → (a : Addr) → Proc (List Byte)
  | 0, _ => pure []
  | n + 1, a => do
    let v ← memRead a
    let vs ← readRange n (a + 1)
    pure (v :: vs)

/-- `ReadHeader()` (40_header.md R142). -/
def readHeader : Proc Header := do
  let raw ← readRange params.headerLen params.headerBase
  pure (decodeHeader raw)

/-- The reply of both header commands (30_encoding.md R105). -/
def headerReply (h : Header) : Reply := ⟨h.romSize, h.ramSize, warnFlag h, some h⟩

/-- The session MAKE_ROM_READER builds (40_header.md R141). -/
def openSession (h : Header) (s : State) : State :=
  { s with
    hdr := some h
    drv := { romBank := 1, ramBank := 0, ramEnabled := false }
    rd := { cursor := 0, eos := false }
    phase := .ready }

/-- PARSE_HEADER (40_header.md R140). -/
def execParseHeader (s : State) : Host.Outcome State Fault Refusal :=
  runCommand (do
    requireNotFaulted
    let h ← readHeader
    pure (headerReply h)) s

/-- MAKE_ROM_READER (40_header.md R141; what a failing pass leaves of the old session is log 2). -/
def execMakeRomReader (s : State) : Host.Outcome State Fault Refusal :=
  runCommand (do
    requireNotFaulted
    let h ← readHeader
    modifyState (openSession h)
    pure (headerReply h)) s

end Sys2Proof.Machine
end

