-- ==== Sys2Proof/Machine/Driver.lean ====
section
/-! DEFINITION. The MBC protocol driver: the BankSwitchRule table (30_encoding.md R114, R115; 41_driver.md R172, R175,
R181), the internal operations (41_driver.md R179, R180) and the driver's commands (R170, R171, R173, R174, R176 to
R178). -/

namespace Sys2Proof.Machine

/-- `EnableSeq(f)` (41_driver.md R181). -/
def enableSeq : Family → List (Addr × Byte)
  | .romOnly => []
  | .mbc2 => params.mbc2RamEnable
  | .mbc1 | .mbc3 | .mbc5 => [(params.ramEnableAddr, params.ramEnableValue)]

/-- `DisableSeq(f)` (41_driver.md R181). -/
def disableSeq : Family → List (Addr × Byte)
  | .romOnly => []
  | .mbc1 | .mbc2 | .mbc3 | .mbc5 => [(params.ramEnableAddr, params.ramDisableValue)]

/-- `RomBankSeq(f, n', B)` (41_driver.md R172). -/
def romBankSeq (f : Family) (n : Bank) (banks : Nat) : List (Addr × Byte) :=
  match f with
  | .romOnly => []
  | .mbc1 =>
    if 32 < banks then
      [(params.modeAddr, params.modeRom), (params.romBankAddr, bankField n 0 5), (params.ramBankAddr, bankField n 5 2)]
    else [(params.romBankAddr, bankField n 0 5)]
  | .mbc2 => [(params.mbc2RomBankAddr, bankField n 0 4)]
  | .mbc3 => [(params.romBankAddr, bankField n 0 7)]
  | .mbc5 => [(params.romBankAddr, bankField n 0 8), (params.mbc5RomHighAddr, bankField n 8 1)]

/-- `RamBankSeq(f, n)`; RomOnly and MBC2 have none (41_driver.md R175). -/
def ramBankSeq (f : Family) (n : Bank) : List (Addr × Byte) :=
  match f with
  | .mbc1 => [(params.modeAddr, params.modeRam), (params.ramBankAddr, bankField n 0 2)]
  | .mbc3 => [(params.ramBankAddr, bankField n 0 2)]
  | .mbc5 => [(params.ramBankAddr, bankField n 0 4)]
  | .romOnly | .mbc2 => []

/-- `RunSeq(seq)`: in list order, stopping at the first BusError; what is written stays written (41_driver.md R180). -/
def runSeq : List (Addr × Byte) → Proc Unit
  | [] => pure ()
  | (a, v) :: rest => do
    memWrite a v
    runSeq rest

/-- A write of one field of S.drv. -/
def modifyDriver (f : Driver → Driver) : Proc Unit := modifyState fun s => { s with drv := f s.drv }

/-- `EnableRamOp()` (41_driver.md R179). -/
def enableRamOp (f : Family) : Proc Unit := do
  runSeq (enableSeq f)
  modifyDriver fun d => { d with ramEnabled := true }

/-- `DisableRamOp()` (41_driver.md R179; only after the write succeeded, R171). -/
def disableRamOp (f : Family) : Proc Unit := do
  runSeq (disableSeq f)
  modifyDriver fun d => { d with ramEnabled := false }

/-- Bank 0 is illegal for the switchable window: the driver substitutes 1 (41_driver.md R173, R179). -/
def substituteBank (n : Nat) : Nat := if n = 0 then 1 else n

/-- `SelectRomOp(n)` (41_driver.md R179). -/
def selectRomOp (h : Header) (n : Nat) : Proc Unit :=
  let n' := substituteBank n
  if limRom h ≤ n' then raise .unsupportedOperation
  else do
    runSeq (romBankSeq (family h) (BitVec.ofNat 16 n') (romBanks h))
    modifyDriver fun d => { d with romBank := BitVec.ofNat 16 n' }

/-- `SelectRamOp(n)` (41_driver.md R179). -/
def selectRamOp (h : Header) (n : Nat) : Proc Unit :=
  if hasRamBanking (family h) = false then raise .unsupportedOperation
  else if limRam h ≤ n then raise .unsupportedOperation
  else do
    runSeq (ramBankSeq (family h) (BitVec.ofNat 16 n))
    modifyDriver fun d => { d with ramBank := BitVec.ofNat 16 n }

/-- The pre-write fix of RAM_RESTORE (30_encoding.md R115): MBC2's throwaway read, MBC1's mode write. -/
def preWriteFix (f : Family) : Proc Unit :=
  match f with
  | .mbc2 => do
    let _ ← memRead params.mbc2FixReadAddr
    pure ()
  | .mbc1 => memWrite params.modeAddr params.modeRam
  | .romOnly | .mbc3 | .mbc5 => pure ()

/-- The checks of READ_BYTE, in order, and the address it reads (41_driver.md R177). -/
def readByteAddr : Proc Addr := fun s =>
  match s.addr with
  | none => raise .addressUnset s
  | some a => if isRamWindow a && !s.drv.ramEnabled then raise .ramNotEnabled s else .ok a s

/-- The checks of WRITE_BYTE, in order, and the address it writes (41_driver.md R178). -/
def writeByteAddr : Proc Addr := fun s =>
  match s.addr with
  | none => raise .addressUnset s
  | some a =>
    if isControlAddr a then raise .controlWriteRefused s
    else if isRamWindow a && !s.drv.ramEnabled then raise .ramNotEnabled s
    else .ok a s

/-- A data write to the RAM window at S.addr, between its two settle waits (20_memory.md R76). -/
def settledWrite (v : Byte) : Proc Unit := do
  settleWait
  busWrite v
  settleWait

/-- ENABLE_RAM (41_driver.md R170). -/
def execEnableRam (s : State) : Host.Outcome State Fault Refusal :=
  runCommand (do
    requireSession
    let h ← sessionHeader
    enableRamOp (family h)
    pure Reply.nothing) s

/-- DISABLE_RAM (41_driver.md R171). -/
def execDisableRam (s : State) : Host.Outcome State Fault Refusal :=
  runCommand (do
    requireSession
    let h ← sessionHeader
    disableRamOp (family h)
    pure Reply.nothing) s

/-- SELECT_ROM_BANK n (41_driver.md R173). -/
def execSelectRomBank (n : BitVec 16) (s : State) : Host.Outcome State Fault Refusal :=
  runCommand (do
    requireSession
    let h ← sessionHeader
    selectRomOp h (bankOperand n)
    pure Reply.nothing) s

/-- SELECT_RAM_BANK n (41_driver.md R174). -/
def execSelectRamBank (n : BitVec 16) (s : State) : Host.Outcome State Fault Refusal :=
  runCommand (do
    requireSession
    let h ← sessionHeader
    selectRamOp h (bankOperand n)
    pure Reply.nothing) s

/-- SET_ADDR a (41_driver.md R176). -/
def execSetAddr (a : BitVec 16) (s : State) : Host.Outcome State Fault Refusal :=
  runCommand (do
    requireSession
    busSetAddr (addrOperand a)
    pure Reply.nothing) s

/-- READ_BYTE (41_driver.md R177). -/
def execReadByte (s : State) : Host.Outcome State Fault Refusal :=
  runCommand (do
    requireSession
    let _ ← readByteAddr
    let v ← busRead
    pure (Reply.ofValue (zext32 v))) s

/-- WRITE_BYTE v (41_driver.md R178). -/
def execWriteByte (v : BitVec 8) (s : State) : Host.Outcome State Fault Refusal :=
  runCommand (do
    requireSession
    let a ← writeByteAddr
    if isRamWindow a then settledWrite (dataOperand v) else busWrite (dataOperand v)
    pure Reply.nothing) s

end Sys2Proof.Machine
end

