-- ==== Sys2Proof/Machine/RamAccessor.lean ====
section
/-! DEFINITION. The RAM accessor: RAM_DUMP and RAM_RESTORE (43_ram_accessor.md R230 to R240). -/

namespace Sys2Proof.Machine

/-- `NeedSelect(f, NB)` (43_ram_accessor.md R233). -/
def needSelect (h : Header) : Bool := hasRamBanking (family h) && decide (ramBanks h ≠ 1)

/-- `BankLimitCheck()` (43_ram_accessor.md R231). -/
def bankLimitCheck (h : Header) : Proc Unit :=
  if needSelect h && decide (params.famMaxRamBanks (family h) < ramBanks h) then raise .unsupportedOperation
  else pure ()

/-- `if NeedSelect(f, NB): SelectRamOp(b)` (43_ram_accessor.md R233). -/
def selectForAccess (h : Header) (b : Nat) : Proc Unit := if needSelect h then selectRamOp h b else pure ()

/-- The bus address of byte i of a RAM bank: `0xA000 + i` (43_ram_accessor.md R230). -/
def ramWindowAddr (i : Nat) : Addr := BitVec.ofNat 16 (ramWindowBase + i)

/-- One byte of a dump (43_ram_accessor.md R232). -/
def dumpByte (i : Nat) : Proc Unit := do
  let v ← memRead (ramWindowAddr i)
  emit v

/-- One bank of a dump (43_ram_accessor.md R232). -/
def dumpBank (h : Header) (b : Nat) : Proc Unit := do
  selectForAccess h b
  forBytes dumpByte ramBankSize 0 0

/-- The byte a restore writes at position i of a bank: the chunk's, or the pad byte past its end (43_ram_accessor.md
R237). -/
def restoreValue (chunk : List Byte) (i : Nat) : Byte := chunk.getD i params.restorePadByte

/-- One byte of a restore: set the address, wait, write, wait (43_ram_accessor.md R237). -/
def restoreByte (chunk : List Byte) (i : Nat) : Proc Unit := do
  busSetAddr (ramWindowAddr i)
  settledWrite (restoreValue chunk i)

/-- One bank of a restore (43_ram_accessor.md R237). -/
def restoreBank (h : Header) (b : Nat) : Proc Unit := do
  selectForAccess h b
  let chunk ← takeInput ramBankSize
  forBytes (restoreByte chunk) ramBankSize 0 0

/-- The number of bytes RAM_DUMP and RAM_RESTORE move when they return OK: `NB * 0x2000`. -/
def ramImageSize (h : Header) : Nat := ramBanks h * ramBankSize

/-- The body of RAM_DUMP after its session check (43_ram_accessor.md R232). An error after the bank loop has moved the
whole image. -/
def ramDumpOp (h : Header) : Proc Reply := do
  bankLimitCheck h
  enableRamOp (family h)
  forBanks ramBankSize (dumpBank h) (ramBanks h) 0
  withMoved (ramImageSize h) (disableRamOp (family h))
  pure (Reply.ofValue (BitVec.ofNat 32 (ramImageSize h)))

/-- The body of RAM_RESTORE after its session check (43_ram_accessor.md R235, R237). -/
def ramRestoreOp (h : Header) : Proc Reply :=
  if h.ramSize = 0 then pure Reply.nothing
  else do
    bankLimitCheck h
    preWriteFix (family h)
    enableRamOp (family h)
    forBanks ramBankSize (restoreBank h) (ramBanks h) 0
    withMoved (ramImageSize h) (disableRamOp (family h))
    pure (Reply.ofValue (BitVec.ofNat 32 (ramImageSize h)))

/-- RAM_DUMP (43_ram_accessor.md R232). -/
def execRamDump (s : State) : Host.Outcome State Fault Refusal :=
  runCommand (do
    requireSession
    let h ← sessionHeader
    ramDumpOp h) s

/-- RAM_RESTORE (43_ram_accessor.md R237). -/
def execRamRestore (s : State) : Host.Outcome State Fault Refusal :=
  runCommand (do
    requireSession
    let h ← sessionHeader
    ramRestoreOp h) s

end Sys2Proof.Machine
end

