-- ==== Sys2Proof/Machine/Translate.lean ====
section
/-! DEFINITION. The address translator: logical offset to bank and bus address (20_memory.md R72, R73) and the commands
XLATE_ROM and XLATE_RAM (44_translate.md R260, R261). -/

namespace Sys2Proof.Machine

/-- `rom_bank_of(o)` (20_memory.md R72). -/
def romBankOf (o : Nat) : Nat := o / romBankSize

/-- `rom_intra_of(o)` (20_memory.md R72). -/
def romIntraOf (o : Nat) : Nat := o % romBankSize

/-- `rom_bus_addr(o)` (20_memory.md R72). -/
def romBusAddr (o : Nat) : Addr :=
  if romBankOf o = 0 then BitVec.ofNat 16 (romIntraOf o) else BitVec.ofNat 16 (romSwitchBase + romIntraOf o)

/-- `ram_bank_of(o)` (20_memory.md R73). -/
def ramBankOf (o : Nat) : Nat := o / ramBankSize

/-- `ram_intra_of(o)` (20_memory.md R73). -/
def ramIntraOf (o : Nat) : Nat := o % ramBankSize

/-- `ram_bus_addr(o)` (20_memory.md R73). -/
def ramBusAddr (o : Nat) : Addr := BitVec.ofNat 16 (ramWindowBase + ramIntraOf o)

/-- The reply of a translation (30_encoding.md R105). -/
def translateReply (bank : Nat) (a : Addr) (o : Nat) (size : Word) : Reply :=
  ⟨BitVec.ofNat 32 bank, zext32 a, inRangeFlag o size, none⟩

/-- XLATE_ROM o (44_translate.md R260). -/
def execXlateRom (o : BitVec 24) (s : State) : Host.Outcome State Fault Refusal :=
  runCommand (do
    requireSession
    let h ← sessionHeader
    let k := offsetOperand o
    pure (translateReply (romBankOf k) (romBusAddr k) k h.romSize)) s

/-- XLATE_RAM o (44_translate.md R261). -/
def execXlateRam (o : BitVec 24) (s : State) : Host.Outcome State Fault Refusal :=
  runCommand (do
    requireSession
    let h ← sessionHeader
    let k := offsetOperand o
    pure (translateReply (ramBankOf k) (ramBusAddr k) k h.ramSize)) s

end Sys2Proof.Machine
end

