-- ==== Sys2Proof/Machine/RomReader.lean ====
section
/-! DEFINITION. The streaming ROM reader: ROM_SIZE, ROM_STATUS and ROM_READ (42_rom_reader.md R210 to R216). -/

namespace Sys2Proof.Machine

/-- A write of S.rd. -/
def modifyReader (f : Reader → Reader) : Proc Unit := modifyState fun s => { s with rd := f s.rd }

/-- A logical offset at which ROM_READ selects a bank first: a 16 KiB boundary other than 0 (42_rom_reader.md R213). -/
def atRomBoundary (c : Nat) : Bool := decide (1 ≤ romBankOf c) && decide (romIntraOf c = 0)

/-- One turn of ROM_READ's loop: select at a boundary, read, emit, advance the cursor (42_rom_reader.md R213). -/
def readRomByte (h : Header) : Proc Unit := fun s =>
  let c := s.rd.cursor
  (do
    if atRomBoundary c.toNat then selectRomOp h (romBankOf c.toNat)
    let v ← memRead (romBusAddr c.toNat)
    emit v
    modifyReader fun r => { r with cursor := c + 1 } : Proc Unit) s

/-- The body of ROM_READ after its session check (42_rom_reader.md R213; a cursor beyond the image is log 14). -/
def romReadOp (h : Header) (cap : Nat) : Proc Reply := fun s =>
  if cap = 0 then .ok Reply.nothing s
  else if s.rd.cursor.toNat = h.romSize.toNat then
    .ok Reply.nothing { s with rd := { s.rd with eos := true } }
  else
    let k := min cap (h.romSize.toNat - s.rd.cursor.toNat)
    (do
      forBytes (fun _ => readRomByte h) k 0 0
      pure (Reply.ofValue (BitVec.ofNat 32 k)) : Proc Reply) s

/-- The reply of ROM_STATUS: cursor, the driver's bank mirror, end of stream (42_rom_reader.md R211). -/
def statusReply (s : State) : Reply := ⟨zext32 s.rd.cursor, zext32 s.drv.romBank, s.rd.eos, none⟩

/-- ROM_SIZE (42_rom_reader.md R210). -/
def execRomSize (s : State) : Host.Outcome State Fault Refusal :=
  runCommand (do
    requireSession
    let h ← sessionHeader
    pure (Reply.ofValue h.romSize)) s

/-- ROM_STATUS (42_rom_reader.md R211). -/
def execRomStatus (s : State) : Host.Outcome State Fault Refusal :=
  runCommand (do
    requireSession
    pure (statusReply s)) s

/-- ROM_READ cap (42_rom_reader.md R213, R214, R216). -/
def execRomRead (cap : BitVec 24) (s : State) : Host.Outcome State Fault Refusal :=
  runCommand (do
    requireSession
    let h ← sessionHeader
    romReadOp h (countOperand cap)) s

end Sys2Proof.Machine
end

