-- ==== Sys2Proof/Machine/Dispatch.lean ====
section
/-! DEFINITION. One arm per command: the call of its meaning. -/

namespace Sys2Proof.Machine

def exec (i : Instr) (s : State) : Host.Outcome State Fault Refusal :=
  match i with
  | .parseHeader => Sys2Proof.Machine.execParseHeader s
  | .makeRomReader => Sys2Proof.Machine.execMakeRomReader s
  | .enableRam => Sys2Proof.Machine.execEnableRam s
  | .disableRam => Sys2Proof.Machine.execDisableRam s
  | .selectRomBank n => Sys2Proof.Machine.execSelectRomBank n s
  | .selectRamBank n => Sys2Proof.Machine.execSelectRamBank n s
  | .setAddr a => Sys2Proof.Machine.execSetAddr a s
  | .readByte => Sys2Proof.Machine.execReadByte s
  | .writeByte v => Sys2Proof.Machine.execWriteByte v s
  | .romSize => Sys2Proof.Machine.execRomSize s
  | .romStatus => Sys2Proof.Machine.execRomStatus s
  | .romRead cap => Sys2Proof.Machine.execRomRead cap s
  | .ramDump => Sys2Proof.Machine.execRamDump s
  | .ramRestore => Sys2Proof.Machine.execRamRestore s
  | .xlateRom o => Sys2Proof.Machine.execXlateRom o s
  | .xlateRam o => Sys2Proof.Machine.execXlateRam o s

end Sys2Proof.Machine
end

