-- ==== Sys2Proof/Machine/Step.lean ====
section
/-! DEFINITION. One step: the host's next action, and where it is a command word, the command (00_scope.md R18,
60_exceptions.md R271). -/

namespace Sys2Proof.Machine

/-- One step of the block: it takes the host's next action; a legal word runs its command, an illegal one returns
IllegalCommand; with nothing queued the block waits (00_scope.md R18, 60_exceptions.md R271, R275). -/
def step (s : State) : Host.Outcome State Fault Refusal :=
  match fetch s with
  | .idle => .next s
  | .done t => .next t
  | .word w t =>
    match decode w with
    | .error e => .next (illegalCommand e t)
    | .ok i => exec i t

/-- The state in which the host's next action is to issue the word w; bits at and above nbits are 0 (log 1). -/
def State.withFetchWord (s : State) (nbits w : Nat) : State :=
  { s with host := .command (BitVec.ofNat 32 (w % 2 ^ nbits)) :: s.host }

end Sys2Proof.Machine
end

