-- ==== Sys2Proof/Machine/Assembler.lean ====
section
/-! DEFINITION. The notation of 30_encoding.md R108 and R109: one line of assembly to a command or a
pseudo-instruction, and what a pseudo-instruction stands for. It is the host's notation and no part of the block. What
the spec leaves open about the text (white space, the case of hexadecimal digits, the comma) is log 15. -/

namespace Sys2Proof.Machine

/-- The upper-case name of a command (30_encoding.md R103). -/
def mnemonicName : Mnemonic → String
  | .parseHeader => "PARSE_HEADER"
  | .makeRomReader => "MAKE_ROM_READER"
  | .enableRam => "ENABLE_RAM"
  | .disableRam => "DISABLE_RAM"
  | .selectRomBank => "SELECT_ROM_BANK"
  | .selectRamBank => "SELECT_RAM_BANK"
  | .setAddr => "SET_ADDR"
  | .readByte => "READ_BYTE"
  | .writeByte => "WRITE_BYTE"
  | .romSize => "ROM_SIZE"
  | .romStatus => "ROM_STATUS"
  | .romRead => "ROM_READ"
  | .ramDump => "RAM_DUMP"
  | .ramRestore => "RAM_RESTORE"
  | .xlateRom => "XLATE_ROM"
  | .xlateRam => "XLATE_RAM"

/-- Every command's name, in the order of 30_encoding.md R103. -/
def allMnemonics : List Mnemonic :=
  [.parseHeader, .makeRomReader, .enableRam, .disableRam, .selectRomBank, .selectRamBank, .setAddr, .readByte,
   .writeByte, .romSize, .romStatus, .romRead, .ramDump, .ramRestore, .xlateRom, .xlateRam]

/-- Why a line is no line of assembly. -/
inductive AsmError where
  | unknownMnemonic
  | badNumber
  | malformed
  | operand (e : SourceError)
deriving DecidableEq, Repr

/-- What one line says. -/
inductive AsmLine where
  | blank
  | command (i : Instr)
  | pseudo (p : Pseudo)
deriving DecidableEq, Repr

/-- A token and the tokens after it; an empty one is no token. -/
def pushToken (cur : List Char) (rest : List (List Char)) : List (List Char) :=
  if cur.isEmpty then rest else cur :: rest

/-- The tokens of a line from the characters still to read and the token read so far: `;` starts a comment, blanks
separate, a comma is a token of its own. -/
def tokens : List Char → List Char → List (List Char)
  | [], cur => pushToken cur []
  | c :: cs, cur =>
    if c = ';' then pushToken cur []
    else if c = ' ' ∨ c = '\t' then pushToken cur (tokens cs [])
    else if c = ',' then pushToken cur ([','] :: tokens cs [])
    else tokens cs (cur ++ [c])

/-- The value of a digit in a base of at most 16. -/
def digitValue (base : Nat) (c : Char) : Option Nat :=
  let n := c.toNat
  let d :=
    if 48 ≤ n ∧ n ≤ 57 then some (n - 48)
    else if 65 ≤ n ∧ n ≤ 70 then some (n - 55)
    else if 97 ≤ n ∧ n ≤ 102 then some (n - 87)
    else none
  d.filter (· < base)

/-- The number a list of digits names, from the value read so far. -/
def digitsValue (base : Nat) : List Char → Nat → Option Nat
  | [], acc => some acc
  | c :: cs, acc =>
    match digitValue base c with
    | none => none
    | some d => digitsValue base cs (acc * base + d)

/-- A hexadecimal `0x...` or a decimal literal (30_encoding.md R108). -/
def parseNumber : List Char → Option Nat
  | '0' :: 'x' :: c :: cs => digitsValue 16 (c :: cs) 0
  | c :: cs => digitsValue 10 (c :: cs) 0
  | [] => none

/-- The operand of a pseudo-instruction: it must fit its field, as a command's must (30_encoding.md R108). -/
def fitOperand (width : Nat) (tok : List Char) : Except AsmError Nat :=
  match parseNumber tok with
  | none => .error .badNumber
  | some k => if k < 2 ^ width then .ok k else .error (.operand .operandTooWide)

/-- A command of a name and its operand token, if there is one. -/
def commandLine (name : List Char) (operand : Option (List Char)) : Except AsmError AsmLine :=
  match allMnemonics.find? fun m => (mnemonicName m).toList == name with
  | none => .error .unknownMnemonic
  | some m =>
    match operand.map parseNumber with
    | some none => .error .badNumber
    | some (some k) =>
      match (SourceCommand.mk m (some k)).toInstr with
      | .ok i => .ok (.command i)
      | .error e => .error (.operand e)
    | none =>
      match (SourceCommand.mk m none).toInstr with
      | .ok i => .ok (.command i)
      | .error e => .error (.operand e)

/-- One line of assembly (30_encoding.md R108, R109). -/
def assembleLine (line : String) : Except AsmError AsmLine :=
  match tokens line.toList [] with
  | [] => .ok .blank
  | [name] => if name = "ROM_READ_ALL".toList then .ok (.pseudo .romReadAll) else commandLine name none
  | [name, x] =>
    if name = "READ_AT".toList then
      match fitOperand 16 x with
      | .ok a => .ok (.pseudo (.readAt (BitVec.ofNat 16 a)))
      | .error e => .error e
    else commandLine name (some x)
  | [name, x, [','], y] =>
    if name = "WRITE_AT".toList then
      match fitOperand 16 x, fitOperand 8 y with
      | .ok a, .ok v => .ok (.pseudo (.writeAt (BitVec.ofNat 16 a) (BitVec.ofNat 8 v)))
      | .error e, _ => .error e
      | _, .error e => .error e
    else .error .malformed
  | _ => .error .malformed

/-- The commands a pseudo-instruction stands for, in order; ROM_READ_ALL's is repeated (30_encoding.md R109). -/
def expandPseudo : Pseudo → List Instr
  | .readAt a => [.setAddr a, .readByte]
  | .writeAt a v => [.setAddr a, .writeByte v]
  | .romReadAll => [.romRead 0xFFFFFF]

/-- The host's loop of ROM_READ_ALL: `ROM_READ 0xFFFFFF` until a result value of 0, at most `fuel` times
(30_encoding.md R109, 70_reset_and_hazards.md R304; the bound is log 17). -/
def romReadAll : (fuel : Nat) → State → Host.Outcome State Fault Refusal
  | 0, s => .next s
  | fuel + 1, s =>
    match exec (.romRead 0xFFFFFF) s with
    | .next t => if (t.lastResult.map (·.value)) = some 0 then .next t else romReadAll fuel t
    | .fault e => .fault e
    | .refused e => .refused e

end Sys2Proof.Machine
end

