-- ==== Sys2Proof/Safety.lean ====
section
/-! DEFINITION. What the claims speak of: the invariant of reachable states, the bus sequences the commands issue, and
what a trace must look like. -/

namespace Sys2Proof.Machine

/-! ### The invariant -/

/-- The sizes rom_size may have (30_encoding.md R112). -/
def romSizes : List Nat :=
  [0, 0x8000, 0x10000, 0x20000, 0x40000, 0x80000, 0x100000, 0x200000, 0x400000, 0x800000]

/-- The sizes ram_size may have (30_encoding.md R113). -/
def ramSizes : List Nat := [0, 0x2000, 0x8000, 0x10000, 0x20000]

/-- A header as the parser makes it: sizes of the tables, no RAM on RomOnly, an unrecognised type only as RomOnly, and
the title warning as the title says (10_state.md R23, R24; 40_header.md R144 to R147). -/
abbrev Header.wf (h : Header) : Prop :=
  h.romSize.toNat ∈ romSizes ∧ h.ramSize.toNat ∈ ramSizes ∧ (h.mbcType = .romOnly → h.ramSize = 0) ∧
  (h.warn.getLsbD 1 = true → h.mbcType = .romOnly) ∧ h.warn.getLsbD 0 = titleNotText h.title

/-- The memories behind the bus are in their canonical form. -/
def BusSide.wf : BusSide → Prop
  | .unknown _ => True
  | .reference c => Memory.wf ramFill c.ram ∧ Memory.wf romPattern c.rom

/-- What the driver's mirrors and the reader hold in a session with header h: each bank is the construction value or
below its limit (10_state.md R25, R26; 41_driver.md R182), and the cursor is in the image, at its end once eos is set
(10_state.md R28). -/
structure SessionInv (h : Header) (d : Driver) (r : Reader) : Prop where
  header  : h.wf
  romBank : d.romBank = 1 ∨ d.romBank.toNat < limRom h
  ramBank : d.ramBank = 0 ∨ d.ramBank.toNat < limRam h
  cursor  : r.cursor.toNat ≤ h.romSize.toNat
  eos     : r.eos = true → r.cursor.toNat = h.romSize.toNat

/-- The invariant of every reachable state (10_state.md R20, R21, R25, R26, R28; 60_exceptions.md R278). -/
structure State.Inv (s : State) : Prop where
  /-- S.drv.rom_bank >= 1, and at most 511 (10_state.md R25, R26). -/
  romBank   : 1 ≤ s.drv.romBank.toNat ∧ s.drv.romBank.toNat ≤ 511
  /-- S.drv.ram_bank at most 15 (10_state.md R25). -/
  ramBank   : s.drv.ramBank.toNat ≤ 15
  /-- S.fault says why exactly when the phase is Faulted (10_state.md R21). -/
  fault     : s.phase = .faulted ↔ s.fault ≠ none
  /-- In phase Ready the session header is there and an address has been set (10_state.md R20, 60_exceptions.md
  R278). -/
  ready     : s.phase = .ready → s.hdr ≠ none ∧ s.addr ≠ none
  /-- In phase NoSession there is no header (10_state.md R20, R22). -/
  noSession : s.phase = .noSession → s.hdr = none
  /-- The session's own values fit its header. -/
  session   : ∀ h, s.hdr = some h → SessionInv h s.drv s.rd
  /-- The memories behind the bus are in canonical form. -/
  bus       : s.bus.wf

/-! ### Result records -/

/-- A result record with status e and value v, aux, flag and hdr 0 and none (30_encoding.md R104). -/
def resultOf (e : Status) (v : Nat) : Result := ⟨e, BitVec.ofNat 32 v, 0, false, none⟩

/-- The state a fatal error leaves: Faulted, and S.fault says why (60_exceptions.md R272, R273). -/
def faultedWith (f : FatalError) (s : State) : State := { s with phase := .faulted, fault := some f }

/-- The status of the last result record is e. -/
def lastStatusIs (e : Status) (s : State) : Prop := ∃ r, s.lastResult = some r ∧ r.status = e

/-- `RequireSession()` at the head of a command: outside phase Ready it is refused and nothing else happens
(60_exceptions.md R271). -/
abbrev RefusedOutOfSession (i : Instr) (s : State) : Prop :=
  (s.phase = .noSession → exec i s = .next (s.respond (resultOf .noSession 0))) ∧
  (s.phase = .faulted → exec i s = .next (s.respond (resultOf .sessionFaulted 0)))

/-! ### Words -/

/-- The word with this opcode and this operand, in arithmetic (30_encoding.md R100, R101). -/
def wordOf (op operand : Nat) : Word := BitVec.ofNat 32 (op * 0x1000000 + operand)

/-- The bits that must be zero in a word of this opcode (30_encoding.md R101, R103). -/
def reservedMask (op : Nat) : Word :=
  match op with
  | 0x05 | 0x06 | 0x07 => 0x00FF0000
  | 0x09 => 0x00FFFF00
  | 0x0C | 0x0F | 0x10 => 0
  | _ => 0x00FFFFFF

/-- An illegal word: opcode 0x00 or 0x11 to 0xFF, or a reserved bit set (30_encoding.md R106). -/
def illegalWord (w : Word) : Bool :=
  let op := (w >>> 24).toNat
  op == 0 || decide (0x11 ≤ op) || w &&& reservedMask op != 0

/-- The rows of spec/opcode_table.json: match and mask (30_encoding.md R107). -/
def opcodeRows : List (Word × Word) :=
  [(0x01000000, 0xFFFFFFFF), (0x02000000, 0xFFFFFFFF), (0x03000000, 0xFFFFFFFF), (0x04000000, 0xFFFFFFFF),
   (0x05000000, 0xFFFF0000), (0x06000000, 0xFFFF0000), (0x07000000, 0xFFFF0000), (0x08000000, 0xFFFFFFFF),
   (0x09000000, 0xFFFFFF00), (0x0A000000, 0xFFFFFFFF), (0x0B000000, 0xFFFFFFFF), (0x0C000000, 0xFF000000),
   (0x0D000000, 0xFFFFFFFF), (0x0E000000, 0xFFFFFFFF), (0x0F000000, 0xFF000000), (0x10000000, 0xFF000000)]

/-- The rows of the table a word matches. -/
def rowsMatching (w : Word) : List (Word × Word) := opcodeRows.filter fun r => w &&& r.2 == r.1

/-! ### Bus sequences -/

/-- One step of a bus sequence: the primitives of 00_scope.md R13. -/
inductive BusOp where
  | setAddr (a : Addr)
  | read
  | write (v : Byte)
  | wait
deriving DecidableEq, Repr

/-- A bus sequence issued in order, stopping at the first BusError: the bytes its reads return. -/
def play : List BusOp → Proc (List Byte)
  | [] => pure []
  | .setAddr a :: rest => do
    busSetAddr a
    play rest
  | .read :: rest => do
    let v ← busRead
    let vs ← play rest
    pure (v :: vs)
  | .write v :: rest => do
    busWrite v
    play rest
  | .wait :: rest => do
    settleWait
    play rest

/-- `RD(a)` of 95_test_vectors.md section 0. -/
def readOps (a : Addr) : List BusOp := [.setAddr a, .read]

/-- `WR(a, v)` of 95_test_vectors.md section 0. -/
def writeOps (a : Addr) (v : Byte) : List BusOp := [.setAddr a, .write v]

/-- `WW(a, v)` of 95_test_vectors.md section 0. -/
def settledWriteOps (a : Addr) (v : Byte) : List BusOp := [.setAddr a, .wait, .write v, .wait]

/-- A list of register writes, in order (41_driver.md R180). -/
def seqOps (seq : List (Addr × Byte)) : List BusOp := seq.flatMap fun p => writeOps p.1 p.2

/-- The writes that select ROM bank n on a cartridge of `banks` ROM banks, in arithmetic (41_driver.md R172, 20_memory.md
R75). -/
def romSelectWrites (f : Family) (n banks : Nat) : List (Addr × Byte) :=
  match f with
  | .romOnly => []
  | .mbc1 =>
    if 32 < banks then
      [(0x6000, 0x00), (0x2000, BitVec.ofNat 8 (n % 32)), (0x4000, BitVec.ofNat 8 (n / 32 % 4))]
    else [(0x2000, BitVec.ofNat 8 (n % 32))]
  | .mbc2 => [(0x2100, BitVec.ofNat 8 (n % 16))]
  | .mbc3 => [(0x2000, BitVec.ofNat 8 (n % 128))]
  | .mbc5 => [(0x2000, BitVec.ofNat 8 (n % 256)), (0x3000, BitVec.ofNat 8 (n / 256 % 2))]

/-- The writes that select RAM bank n, in arithmetic (41_driver.md R175). -/
def ramSelectWrites (f : Family) (n : Nat) : List (Addr × Byte) :=
  match f with
  | .mbc1 => [(0x6000, 0x01), (0x4000, BitVec.ofNat 8 (n % 4))]
  | .mbc3 => [(0x4000, BitVec.ofNat 8 (n % 4))]
  | .mbc5 => [(0x4000, BitVec.ofNat 8 (n % 16))]
  | .romOnly | .mbc2 => []

/-- The write of v to the RAM enable register, on every family but RomOnly (41_driver.md R181). -/
def ramEnableWrites (f : Family) (v : Byte) : List (Addr × Byte) :=
  match f with
  | .romOnly => []
  | .mbc1 | .mbc2 | .mbc3 | .mbc5 => [(0x0000, v)]

/-- `HDR` of 95_test_vectors.md section 0: the 80 reads of the header pass (40_header.md R142). -/
def headerOps : List BusOp := (List.range 80).flatMap fun i => readOps (BitVec.ofNat 16 (0x0100 + i))

/-- A logical ROM offset at which ROM_READ selects a bank before it reads (42_rom_reader.md R213). -/
abbrev selectsAt (o : Nat) : Prop := 0x4000 ≤ o ∧ o % 0x4000 = 0

/-- What ROM_READ issues for the byte at logical offset o (42_rom_reader.md R213). -/
def romByteOps (h : Header) (o : Nat) : List BusOp :=
  (if selectsAt o then seqOps (romSelectWrites (family h) (o / 0x4000) (romBanks h)) else []) ++
  readOps (BitVec.ofNat 16 (if o < 0x4000 then o else 0x4000 + o % 0x4000))

/-- What ROM_READ issues for the k bytes from offset c on. -/
def romReadOps (h : Header) (c k : Nat) : List BusOp := (List.range k).flatMap fun j => romByteOps h (c + j)

/-- The driver's ROM bank mirror after ROM_READ has delivered the k bytes from offset c on. -/
def romBankAfter (b : Bank) (c k : Nat) : Bank :=
  (List.range k).foldl (fun b j => if selectsAt (c + j) then BitVec.ofNat 16 ((c + j) / 0x4000) else b) b

/-- The bank select an accessor issues before bank b, if it selects (43_ram_accessor.md R233). -/
def accessSelectOps (h : Header) (b : Nat) : List BusOp :=
  if needSelect h then seqOps (ramSelectWrites (family h) b) else []

/-- What RAM_DUMP issues for bank b (43_ram_accessor.md R232). -/
def dumpBankOps (h : Header) (b : Nat) : List BusOp :=
  accessSelectOps h b ++ (List.range 0x2000).flatMap fun i => readOps (BitVec.ofNat 16 (0xA000 + i))

/-- What RAM_DUMP issues (43_ram_accessor.md R232). -/
def dumpOps (h : Header) : List BusOp :=
  seqOps (ramEnableWrites (family h) 0x0A) ++ (List.range (ramBanks h)).flatMap (dumpBankOps h) ++
  seqOps (ramEnableWrites (family h) 0x00)

/-- The input padded with 0xFF, byte k (43_ram_accessor.md R238). -/
def padded (input : List Byte) (k : Nat) : Byte := input.getD k 0xFF

/-- The pre-write fix of a restore (30_encoding.md R115). -/
def fixOps : Family → List BusOp
  | .mbc2 => readOps 0x0134
  | .mbc1 => writeOps 0x6000 0x01
  | .romOnly | .mbc3 | .mbc5 => []

/-- What RAM_RESTORE issues for bank b (43_ram_accessor.md R237, R238). -/
def restoreBankOps (h : Header) (input : List Byte) (b : Nat) : List BusOp :=
  accessSelectOps h b ++
  (List.range 0x2000).flatMap fun i =>
    settledWriteOps (BitVec.ofNat 16 (0xA000 + i)) (padded input (b * 0x2000 + i))

/-- What RAM_RESTORE issues before its end: the fix, the enable, and the first n banks (43_ram_accessor.md R237). -/
def restorePrefixOps (h : Header) (input : List Byte) (n : Nat) : List BusOp :=
  fixOps (family h) ++ seqOps (ramEnableWrites (family h) 0x0A) ++ (List.range n).flatMap (restoreBankOps h input)

/-- What RAM_RESTORE issues for the input bytes (43_ram_accessor.md R237). -/
def restoreOps (h : Header) (input : List Byte) : List BusOp :=
  restorePrefixOps h input (ramBanks h) ++ seqOps (ramEnableWrites (family h) 0x00)

/-- The driver's RAM bank mirror after an accessor has been through the first n banks (43_ram_accessor.md R232,
R237). -/
def ramBankAfter (h : Header) (b : Bank) (n : Nat) : Bank :=
  if needSelect h ∧ 0 < n then BitVec.ofNat 16 (n - 1) else b

/-- The accessors' bank limit holds (43_ram_accessor.md R231). -/
abbrev bankLimitOk (h : Header) : Prop := needSelect h = true → ramBanks h ≤ params.famMaxRamBanks (family h)

/-! ### What a trace must look like -/

/-- A write to a control register, 0x0000-0x7FFF. -/
def isControlWrite : BusEvent → Bool
  | .write a _ _ => isControlAddr a
  | .setAddr _ | .read _ _ | .wait => false

/-- A data write to the RAM window. -/
def isRamWrite : BusEvent → Bool
  | .write a _ _ => isRamWindow a
  | .setAddr _ | .read _ _ | .wait => false

/-- A data write to the RAM window that succeeded: one byte moved by RAM_RESTORE. -/
def isRamWriteOk : BusEvent → Bool
  | .write a _ .ok => isRamWindow a
  | .write _ _ .err | .setAddr _ | .read _ _ | .wait => false

/-- A request that failed. -/
def isFailure : BusEvent → Bool
  | .read _ .err | .write _ _ .err => true
  | .setAddr _ | .read _ (.ok _) | .write _ _ .ok | .wait => false

/-- Every data write to the RAM window stands between two waits, the second only if it succeeded
(70_reset_and_hazards.md R309). The list is newest first, and `newer` is the event after its first one. -/
def settledFrom (newer : Option BusEvent) : List BusEvent → Bool
  | [] => true
  | e :: older =>
    (!isRamWrite e || (older.head? == some .wait && (isFailure e || newer == some .wait))) && settledFrom (some e) older

/-- The accesses to the RAM window among events, oldest first: of each, the value last written before it to the RAM bank
register 0x4000, from `bank` on, and its address (44_translate.md R262). -/
def windowAccesses : Option Byte → List BusEvent → List (Option Byte × Addr)
  | _, [] => []
  | bank, .read a _ :: newer => if isRamWindow a then (bank, a) :: windowAccesses bank newer else windowAccesses bank newer
  | bank, .write a v _ :: newer =>
    if a = 0x4000 then windowAccesses (some v) newer
    else if isRamWindow a then (bank, a) :: windowAccesses bank newer
    else windowAccesses bank newer
  | bank, .setAddr _ :: newer | bank, .wait :: newer => windowAccesses bank newer

/-- The settle discipline of a whole trace, newest event first (70_reset_and_hazards.md R309). -/
def settled (revTrace : List BusEvent) : Bool := settledFrom none revTrace

/-! ### What the reference cartridge's images hold -/

/-- The byte the stream delivers for logical offset o from a cartridge that holds the image of its header: on MBC1 with
more than 32 banks, the banks 0x20, 0x40 and 0x60 show the bank above them (70_reset_and_hazards.md R315). -/
def streamByte (c : RefCart) (h : Header) (o : Nat) : Byte :=
  if family h = .mbc1 ∧ 32 < romBanks h ∧ 1 ≤ romBankOf o ∧ romBankOf o % 32 = 0 then c.romByte (o + 0x4000)
  else c.romByte o

/-- The 80 bytes of the header region as the reference cartridge shows them. -/
def RefCart.headerBytes (c : RefCart) : List Byte := (List.range 80).map fun i => c.romByte ((0x0100 + i) % c.romSize)

/-- The register writes of RAM_RESTORE that stand before the data of bank b: the fix, the enable and the bank's select
(43_ram_accessor.md R237). An earlier bank's select writes the same registers, so it leaves no trace in them. -/
def restoreSetup (h : Header) (b : Nat) : List (Addr × Byte) :=
  (if family h = .mbc1 then [(0x6000, 0x01)] else []) ++ ramEnableWrites (family h) 0x0A ++
  (if needSelect h then ramSelectWrites (family h) b else [])

/-- The reference cartridge after register writes that succeeded. -/
def RefCart.storeAll (c : RefCart) (seq : List (Addr × Byte)) : RefCart := seq.foldl (fun c p => c.store p.1 p.2) c

/-- The reference cartridge fits the header and no request of it fails. -/
structure CartFits (c : RefCart) (h : Header) : Prop where
  family   : c.family = Sys2Proof.Machine.family h
  romSize  : c.romSize = h.romSize.toNat
  ramSize  : c.ramSize = h.ramSize.toNat
  failures : c.failures = []

end Sys2Proof.Machine
end

