-- ==== Sys2Proof/Certificates/Slice0/Obligations.lean ====
section
/-! DEFINITION. The statements for the provers. Each docstring names the rules of spec/ it formalises; what the model
fixes where the spec does not is named by its log entry (notes/assumptions). -/

open Sys2Proof Sys2Proof.Machine

/-! ### Words -/

/-- Decoding the word of any well-formed command gives the command back (30_encoding.md R101, R103, R107). -/
def Obligations.EncodedCommandDecodesToItself : Prop :=
  ∀ i : Instr, i.wellFormed = true → decode (encode i) = .ok i

/-- A legal word is the word of the command it decodes to, so no two legal words decode to one command
(30_encoding.md R107: decode is injective on legal words). -/
def Obligations.LegalWordIsTheWordOfItsCommand : Prop :=
  ∀ (w : Word) (i : Instr), decode w = .ok i → encode i = w ∧ ∀ v, decode v = .ok i → v = w

/-- A word decodes exactly when it matches exactly one row of the opcode table, and matches no row otherwise
(30_encoding.md R107). -/
def Obligations.LegalWordMatchesExactlyOneTableRow : Prop :=
  ∀ w : Word, ((∃ i, decode w = .ok i) → (rowsMatching w).length = 1) ∧
    ((∃ e, decode w = .error e) → (rowsMatching w).length = 0)

/-- The words that are illegal, and what one does: no state change, no bus event, status IllegalCommand (code 0x04), in
every phase, Faulted included (30_encoding.md R106, 60_exceptions.md R275). -/
def Obligations.IllegalWordChangesNothing : Prop :=
  statusCode .illegalCommand = 0x04 ∧
  ∀ w : Word, (illegalWord w = true ↔ ∃ e, decode w = .error e) ∧
    ∀ (s : State) (rest : List HostAction), s.host = .command w :: rest → illegalWord w = true →
      step s = .next (State.respond (resultOf .illegalCommand 0) { s with host := rest })

/-- Words written out from the formats and the opcode map decode to the commands they stand for (30_encoding.md R101,
R103; 95_test_vectors.md V1 to V19). -/
def Obligations.SampleWordsDecodeAsTheOpcodeMapSays : Prop :=
  decodeTableWord 32 0x01000000 = some .parseHeader ∧ decodeTableWord 32 0x02000000 = some .makeRomReader ∧
  decodeTableWord 32 0x0E000000 = some .ramRestore ∧ decodeTableWord 32 0x0500FFFF = some (.selectRomBank 0xFFFF) ∧
  decodeTableWord 32 0x0700A010 = some (.setAddr 0xA010) ∧ decodeTableWord 32 0x090000FF = some (.writeByte 0xFF) ∧
  decodeTableWord 32 0x0CFFFFFF = some (.romRead 0xFFFFFF) ∧ decodeTableWord 32 0x0D000000 = some .ramDump ∧
  decodeTableWord 32 0x0F414243 = some (.xlateRom 0x414243) ∧ decodeTableWord 32 0x05010000 = none

/-- Assembling the text of a command that fits gives that command, and a number too large for its field is an error,
never a truncation (30_encoding.md R108): for every mnemonic and number, as a written command. -/
def Obligations.WrittenCommandIsNeverTruncated : Prop :=
  (∀ i : Instr, i.toSource.toInstr.toOption = some i) ∧
  ∀ (m : Mnemonic) (k : Nat), m.format ≠ .n → 2 ^ m.format.operandBits ≤ k →
    (SourceCommand.mk m (some k)).toInstr = .error .operandTooWide

/-! ### The step, the host and reset -/

/-- A command word whose decoding is a well-formed command i runs as exec of i, on the state with the word taken from the
host's queue (00_scope.md R18, 60_exceptions.md R271; the queue is the model's, log 1). -/
def Obligations.StepRunsTheDecodedCommand : Prop :=
  ∀ (s : State) (w : Word) (rest : List HostAction) (i : Instr),
    s.host = .command w :: rest → decode w = .ok i → i.wellFormed = true → step s = exec i { s with host := rest }

/-- With nothing queued the block waits; a new S.in changes S.in alone (70_reset_and_hazards.md R301, 10_state.md R32;
the queue is the model's, log 1). -/
def Obligations.HostActionsBetweenCommands : Prop :=
  ∀ s : State, (s.host = [] → step s = .next s) ∧
    ∀ (src : InputSource) (rest : List HostAction), s.host = .setInput src :: rest →
      step s = .next { s with host := rest, input := src }

/-- The reset event puts every field of S into its reset value but S.in, and leaves the cartridge alone
(70_reset_and_hazards.md R300, 10_state.md R40). The model's own choices, not the spec's: the host's queue (log 1), the
kept past (log 4), and that the list of results is emptied (log 5). -/
def Obligations.ResetEventRestoresResetValues : Prop :=
  ∀ (s : State) (rest : List HostAction), s.host = .reset :: rest →
    ∃ t, step s = .next t ∧ t.phase = .noSession ∧ t.fault = none ∧ t.hdr = none ∧
      t.drv = { romBank := 1, ramBank := 0, ramEnabled := false } ∧ t.rd = { cursor := 0, eos := false } ∧
      t.addr = none ∧ t.trace = [] ∧ t.out = [] ∧ t.results = [] ∧ t.input = s.input ∧ t.bus = s.bus ∧
      t.host = rest ∧ t.history = s.history

/-- The state after reset has the values of 10_state.md R40 for every field of the block but S.in, which R40 leaves to
the host (log 6). -/
def Obligations.ResetStateHasTheResetValues : Prop :=
  State.reset.phase = .noSession ∧ State.reset.fault = none ∧ State.reset.hdr = none ∧
  State.reset.drv.romBank = 1 ∧ State.reset.drv.ramBank = 0 ∧ State.reset.drv.ramEnabled = false ∧
  State.reset.rd.cursor = 0 ∧ State.reset.rd.eos = false ∧ State.reset.addr = none ∧ State.reset.trace = [] ∧
  State.reset.out = []

/-! ### The bus primitives and the register tables -/

/-- BusSetAddr, BusRead and BusWrite: the event each records, the answer each acts on, and the error each raises
(20_memory.md R66, R67, R68). The last clause is the model's choice of how the oracle of R70 stands in State: behind an
unknown cartridge with no answer lined up (log 3) it answers on the history since power-on, resets included (log 4). -/
def Obligations.BusPrimitivesRecordTheirEvents : Prop :=
  ∀ (s : State) (a : Addr) (v : Byte),
    busSetAddr a s = .ok () { s with addr := some a, revTrace := .setAddr a :: s.revTrace } ∧
    (s.addr = some a →
      (∀ x side, s.bus.read s.history a = (.ok x, side) →
        busRead s = .ok x { s with bus := side, revTrace := .read a (.ok x) :: s.revTrace }) ∧
      (∀ side, s.bus.read s.history a = (.err, side) →
        busRead s = .error ⟨.busError, 0⟩ { s with bus := side, revTrace := .read a .err :: s.revTrace }) ∧
      (∀ side, s.bus.write s.history a v = (.ok, side) →
        busWrite v s = .ok () { s with bus := side, revTrace := .write a v .ok :: s.revTrace }) ∧
      (∀ side, s.bus.write s.history a v = (.err, side) →
        busWrite v s = .error ⟨.busError, 0⟩ { s with bus := side, revTrace := .write a v .err :: s.revTrace })) ∧
    (s.bus = .unknown [] →
      (s.bus.read s.history a).1 = Config.busRead s.history a ∧
      (s.bus.write s.history a v).1 = Config.busWrite s.history a v)

/-- RunSeq issues its writes in list order, with no Wait, and stops at the first BusError; S.drv is not touched, and the
writes before the failing one stay written (41_driver.md R180, 20_memory.md R82). -/
def Obligations.RunSeqStopsAtTheFirstBusError : Prop :=
  ∀ (seq : List (Addr × Byte)) (s t : State),
    (runSeq seq s = .ok () t → t.drv = s.drv ∧
      t.revTrace = (seq.flatMap fun p => [BusEvent.setAddr p.1, BusEvent.write p.1 p.2 .ok]).reverse ++ s.revTrace) ∧
    (∀ e, runSeq seq s = .error e t → e = ⟨.busError, 0⟩ ∧ t.drv = s.drv ∧
      ∃ done a v rest, seq = done ++ (a, v) :: rest ∧
        t.revTrace = .write a v .err :: .setAddr a ::
          ((done.flatMap fun p => [BusEvent.setAddr p.1, BusEvent.write p.1 p.2 .ok]).reverse ++ s.revTrace))

/-- The BankSwitchRule table in numbers, for every bank below its limit, whole bank numbers included: no bits are lost
(30_encoding.md R114; 41_driver.md R172, R175, R181). -/
def Obligations.BankSwitchTableIsTheSpecs : Prop :=
  ∀ (f : Family) (n banks : Nat),
    (enableSeq f = ramEnableWrites f 0x0A ∧ disableSeq f = ramEnableWrites f 0x00) ∧
    (n < params.famMaxRomBanks f → n < banks →
      romBankSeq f (BitVec.ofNat 16 n) banks = romSelectWrites f n banks) ∧
    (n < params.famMaxRamBanks f → ramBankSeq f (BitVec.ofNat 16 n) = ramSelectWrites f n)

/-- The bank limits: the smaller of the family's maximum and the header's count, and a bank at or above its limit is
refused before any bus event (41_driver.md R182; 00_scope.md R9, R17). -/
def Obligations.BankLimitsAreFamilyAndHeaderMinimum : Prop :=
  ∀ h : Header,
    limRom h = min (match family h with
      | .romOnly => 2 | .mbc1 => 128 | .mbc2 => 16 | .mbc3 => 128 | .mbc5 => 512) (h.romSize.toNat / 0x4000) ∧
    limRam h = min (match family h with
      | .romOnly => 0 | .mbc1 => 4 | .mbc2 => 0 | .mbc3 => 4 | .mbc5 => 16) (h.ramSize.toNat / 0x2000) ∧
    ∀ (s : State) (n : BitVec 16), s.phase = .ready → s.hdr = some h →
      (limRom h ≤ (if n.toNat = 0 then 1 else n.toNat) →
        exec (.selectRomBank n) s = .next (s.respond (resultOf .unsupportedOperation 0))) ∧
      (limRam h ≤ n.toNat → exec (.selectRamBank n) s = .next (s.respond (resultOf .unsupportedOperation 0)))

/-! ### The header -/

/-- The tables of the header codes: the type byte, the ROM-size code, the RAM-size code, and RomOnly's RAM of 0
(30_encoding.md R110, R112, R113, 40_header.md R144 to R146); and of every variant, its family (30_encoding.md R111) and
its 4 bit code (10_state.md R23). -/
def Obligations.HeaderCodeTablesAreTheSpecs : Prop :=
  (∀ m : MbcType, (familyOf m, mbcTypeCode m) = (match m with
    | .romOnly => (.romOnly, 0)
    | .mbc1 => (.mbc1, 1) | .mbc1Ram => (.mbc1, 2) | .mbc1RamBattery => (.mbc1, 3)
    | .mbc2 => (.mbc2, 4) | .mbc2Battery => (.mbc2, 5)
    | .mbc3 => (.mbc3, 6) | .mbc3Ram => (.mbc3, 7) | .mbc3RamBattery => (.mbc3, 8)
    | .mbc5 => (.mbc5, 9) | .mbc5Ram => (.mbc5, 10) | .mbc5RamBattery => (.mbc5, 11))) ∧
  ∀ b : Byte,
    decodeType b = (match b.toNat with
      | 0x00 => (.romOnly, false) | 0x01 => (.mbc1, false) | 0x02 => (.mbc1Ram, false)
      | 0x03 => (.mbc1RamBattery, false) | 0x05 => (.mbc2, false) | 0x06 => (.mbc2Battery, false)
      | 0x11 => (.mbc3, false) | 0x12 => (.mbc3Ram, false) | 0x13 => (.mbc3RamBattery, false)
      | 0x19 => (.mbc5, false) | 0x1A => (.mbc5Ram, false) | 0x1B => (.mbc5RamBattery, false)
      | _ => (.romOnly, true)) ∧
    (romSizeOf b).toNat = (if b.toNat ≤ 8 then 0x8000 * 2 ^ b.toNat else 0) ∧
    (∀ m, (decodeRam m b).toNat = if m = .romOnly then 0 else
      (match b.toNat with
        | 0x02 => 0x2000 | 0x03 => 0x8000 | 0x04 => 0x20000 | 0x05 => 0x10000 | _ => 0))

/-- The decoded header takes each field from its place among the 80 bytes, the title verbatim, and carries the two
warnings (40_header.md R142, R143, R147; 30_encoding.md R116; 10_state.md R24). -/
def Obligations.HeaderFieldsComeFromTheirOffsets : Prop :=
  ∀ raw : List Byte, raw.length = 80 →
    (decodeHeader raw).title.toList = (raw.drop 0x34).take 16 ∧
    (decodeHeader raw).mbcType = (decodeType (raw.getD 0x47 0)).1 ∧
    (decodeHeader raw).romSize = romSizeOf (raw.getD 0x48 0) ∧
    (decodeHeader raw).ramSize = decodeRam (decodeType (raw.getD 0x47 0)).1 (raw.getD 0x49 0) ∧
    (decodeHeader raw).warn.getLsbD 0 = !wellFormedUtf8 ((raw.drop 0x34).take 16) ∧
    (decodeHeader raw).warn.getLsbD 1 = (decodeType (raw.getD 0x47 0)).2

/-- A title whose bytes are all below 0x80 raises no title warning, and a title with a byte that begins no well-formed
sequence does (40_header.md R147; the table of sequences is the model's, log 10). -/
def Obligations.AsciiTitleRaisesNoWarning : Prop :=
  ∀ title : Vector Byte 16,
    ((∀ b ∈ title.toList, b.toNat < 0x80) → titleNotText title = false) ∧
    ((∃ b ∈ title.toList, b = 0xC0 ∨ b = 0xC1 ∨ 0xF5 ≤ b.toNat) → titleNotText title = true)

/-- The header read pass reads 0x0100 to 0x014F in ascending order, one MemRead each, 160 events, and leaves S.addr at
0x014F; nothing else of S changes (40_header.md R142, R140). -/
def Obligations.HeaderPassReadsTheRegionInOrder : Prop :=
  ∀ (s t : State) (bs : List Byte), play headerOps s = .ok bs t →
    bs.length = 80 ∧
    t = { s with
      addr := some 0x014F
      bus := t.bus
      revTrace := ((List.range 80).flatMap fun i =>
        [BusEvent.setAddr (BitVec.ofNat 16 (0x0100 + i)),
         BusEvent.read (BitVec.ofNat 16 (0x0100 + i)) (.ok (bs.getD i 0))]).reverse ++ s.revTrace }

/-- PARSE_HEADER, word 0x01000000: outside phase Faulted it plays the header pass and returns the decoded header,
touching nothing of the session; when the pass fails it takes the error (40_header.md R140, R148; 30_encoding.md
R105). -/
def Obligations.ParseHeaderReturnsTheDecodedHeader : Prop :=
  encode .parseHeader = wordOf 0x01 0 ∧
  ∀ s : State, s.phase ≠ .faulted →
    (∀ bs t, play headerOps s = .ok bs t →
      exec .parseHeader s = .next (t.respond
        ⟨.ok, (decodeHeader bs).romSize, (decodeHeader bs).ramSize, decide ((decodeHeader bs).warn ≠ 0),
          some (decodeHeader bs)⟩)) ∧
    (∀ e t, play headerOps s = .error e t →
      exec .parseHeader s = .next ((faultedWith .busError t).respond (resultOf .busError 0)))

/-- MAKE_ROM_READER, word 0x02000000: outside phase Faulted it plays the header pass and opens a session with the
construction values, no control register written; when the pass fails no session is made (40_header.md R141, R148;
70_reset_and_hazards.md R302). That S.hdr, S.drv and S.rd of an older session then stay as they were in phase Faulted is
the model's reading of R141's "an existing session is not kept" (DEDUCED, log 2). -/
def Obligations.MakeRomReaderOpensASession : Prop :=
  encode .makeRomReader = wordOf 0x02 0 ∧
  ∀ s : State, s.phase ≠ .faulted →
    (∀ bs t, play headerOps s = .ok bs t →
      exec .makeRomReader s = .next (State.respond
        ⟨.ok, (decodeHeader bs).romSize, (decodeHeader bs).ramSize, decide ((decodeHeader bs).warn ≠ 0),
          some (decodeHeader bs)⟩
        { t with
          phase := .ready
          hdr := some (decodeHeader bs)
          drv := { romBank := 1, ramBank := 0, ramEnabled := false }
          rd := { cursor := 0, eos := false } })) ∧
    (∀ e t, play headerOps s = .error e t →
      exec .makeRomReader s = .next ((faultedWith .busError t).respond (resultOf .busError 0)))

/-! ### The driver's commands -/

/-- ENABLE_RAM: RomOnly sets the flag with no bus event; every other family writes 0x0A to 0x0000 and sets the flag only
if the write succeeds; enabling again writes again; outside a session it is refused (41_driver.md R170, R181). -/
def Obligations.EnableRamWritesTheEnableRegister : Prop :=
  ∀ s : State, encode .enableRam = wordOf 0x03 0 ∧ RefusedOutOfSession .enableRam s ∧
    ∀ h : Header, s.phase = .ready → s.hdr = some h →
      (family h = .romOnly → exec .enableRam s =
        .next (State.respond (resultOf .ok 0) { s with drv := { s.drv with ramEnabled := true } })) ∧
      (family h ≠ .romOnly → ∀ side,
        (s.bus.write (.setAddr 0 :: s.history) 0 0x0A = (.ok, side) → exec .enableRam s =
          .next (State.respond (resultOf .ok 0)
            { s with
              addr := some 0, bus := side, revTrace := .write 0 0x0A .ok :: .setAddr 0 :: s.revTrace
              drv := { s.drv with ramEnabled := true } })) ∧
        (s.bus.write (.setAddr 0 :: s.history) 0 0x0A = (.err, side) → exec .enableRam s =
          .next (State.respond (resultOf .busError 0) (faultedWith .busError
            { s with addr := some 0, bus := side, revTrace := .write 0 0x0A .err :: .setAddr 0 :: s.revTrace }))))

/-- DISABLE_RAM: as ENABLE_RAM with 0x00; the flag is cleared only if the write succeeds, and the write is issued
whatever the flag says (41_driver.md R171, R181; 70_reset_and_hazards.md R311). -/
def Obligations.DisableRamWritesTheEnableRegister : Prop :=
  ∀ s : State, encode .disableRam = wordOf 0x04 0 ∧ RefusedOutOfSession .disableRam s ∧
    ∀ h : Header, s.phase = .ready → s.hdr = some h →
      (family h = .romOnly → exec .disableRam s =
        .next (State.respond (resultOf .ok 0) { s with drv := { s.drv with ramEnabled := false } })) ∧
      (family h ≠ .romOnly → ∀ side,
        (s.bus.write (.setAddr 0 :: s.history) 0 0x00 = (.ok, side) → exec .disableRam s =
          .next (State.respond (resultOf .ok 0)
            { s with
              addr := some 0, bus := side, revTrace := .write 0 0x00 .ok :: .setAddr 0 :: s.revTrace
              drv := { s.drv with ramEnabled := false } })) ∧
        (s.bus.write (.setAddr 0 :: s.history) 0 0x00 = (.err, side) → exec .disableRam s =
          .next (State.respond (resultOf .busError 0) (faultedWith .busError
            { s with addr := some 0, bus := side, revTrace := .write 0 0x00 .err :: .setAddr 0 :: s.revTrace }))))

/-- SELECT_ROM_BANK n: 0 becomes 1; at or above the limit it is refused with no event; else the family's writes are
played, and the mirror takes the bank only if all of them succeed; outside a session it is refused (41_driver.md R173,
with R172, R179, R182). -/
def Obligations.SelectRomBankWritesTheBankRegisters : Prop :=
  ∀ (s : State) (n : BitVec 16),
    encode (.selectRomBank n) = wordOf 0x05 n.toNat ∧ RefusedOutOfSession (.selectRomBank n) s ∧
    ∀ (h : Header) (b : Nat), s.phase = .ready → s.hdr = some h → b = (if n.toNat = 0 then 1 else n.toNat) →
      (limRom h ≤ b → exec (.selectRomBank n) s = .next (s.respond (resultOf .unsupportedOperation 0))) ∧
      (b < limRom h →
        (∀ bs t, play (seqOps (romSelectWrites (family h) b (romBanks h))) s = .ok bs t →
          exec (.selectRomBank n) s =
            .next (State.respond (resultOf .ok 0) { t with drv := { s.drv with romBank := BitVec.ofNat 16 b } })) ∧
        (∀ e t, play (seqOps (romSelectWrites (family h) b (romBanks h))) s = .error e t →
          exec (.selectRomBank n) s = .next (State.respond (resultOf .busError 0)
            (faultedWith .busError { t with drv := s.drv }))))

/-- SELECT_RAM_BANK n: refused with no event on a family without RAM banking and at or above the limit; else the
family's writes are played, and the mirror takes the bank only if all of them succeed; outside a session it is refused
(41_driver.md R174, with R175, R179, R182). -/
def Obligations.SelectRamBankWritesTheBankRegisters : Prop :=
  ∀ (s : State) (n : BitVec 16),
    encode (.selectRamBank n) = wordOf 0x06 n.toNat ∧ RefusedOutOfSession (.selectRamBank n) s ∧
    ∀ h : Header, s.phase = .ready → s.hdr = some h →
      (family h = .romOnly ∨ family h = .mbc2 ∨ limRam h ≤ n.toNat →
        exec (.selectRamBank n) s = .next (s.respond (resultOf .unsupportedOperation 0))) ∧
      (family h ≠ .romOnly → family h ≠ .mbc2 → n.toNat < limRam h →
        (∀ bs t, play (seqOps (ramSelectWrites (family h) n.toNat)) s = .ok bs t →
          exec (.selectRamBank n) s =
            .next (State.respond (resultOf .ok 0) { t with drv := { s.drv with ramBank := n } })) ∧
        (∀ e t, play (seqOps (ramSelectWrites (family h) n.toNat)) s = .error e t →
          exec (.selectRamBank n) s = .next (State.respond (resultOf .busError 0)
            (faultedWith .busError { t with drv := s.drv }))))

/-- SET_ADDR a: one SetAddr event and S.addr, for any address; outside a session it is refused (41_driver.md R176,
20_memory.md R66). -/
def Obligations.SetAddrSetsTheAddress : Prop :=
  ∀ (s : State) (a : BitVec 16),
    encode (.setAddr a) = wordOf 0x07 a.toNat ∧ RefusedOutOfSession (.setAddr a) s ∧
    (s.phase = .ready → exec (.setAddr a) s =
      .next (State.respond (resultOf .ok 0) { s with addr := some a, revTrace := .setAddr a :: s.revTrace }))

/-- READ_BYTE: with no address AddressUnset; in the RAM window with RAM disabled RamNotEnabled, each with no event; else
the byte the bus answers at S.addr, or BusError; outside a session it is refused (41_driver.md R177; 60_exceptions.md
R278, R280). -/
def Obligations.ReadByteReturnsTheBusByte : Prop :=
  ∀ s : State, encode .readByte = wordOf 0x08 0 ∧ RefusedOutOfSession .readByte s ∧
    (s.phase = .ready →
      (s.addr = none → exec .readByte s = .next (s.respond (resultOf .addressUnset 0))) ∧
      ∀ a, s.addr = some a →
        ((0xA000 ≤ a.toNat ∧ a.toNat ≤ 0xBFFF) ∧ s.drv.ramEnabled = false →
          exec .readByte s = .next (s.respond (resultOf .ramNotEnabled 0))) ∧
        (¬((0xA000 ≤ a.toNat ∧ a.toNat ≤ 0xBFFF) ∧ s.drv.ramEnabled = false) → ∀ side,
          (∀ v, s.bus.read s.history a = (.ok v, side) → exec .readByte s =
            .next (State.respond (resultOf .ok v.toNat)
              { s with bus := side, revTrace := .read a (.ok v) :: s.revTrace })) ∧
          (s.bus.read s.history a = (.err, side) → exec .readByte s =
            .next (State.respond (resultOf .busError 0) (faultedWith .busError
              { s with bus := side, revTrace := .read a .err :: s.revTrace })))))

/-- WRITE_BYTE v: refused with no event, AddressUnset first, then ControlWriteRefused below 0x8000, then RamNotEnabled in
the RAM window with RAM disabled; with RAM enabled the write stands between two settle waits, a BusError issuing no
second; at 0x8000-0x9FFF and 0xC000-0xFFFF it passes through with none; outside a session it is refused (41_driver.md
R178; 20_memory.md R76; 60_exceptions.md R278 to R280). -/
def Obligations.WriteByteWritesTheBusByte : Prop :=
  ∀ (s : State) (v : BitVec 8),
    encode (.writeByte v) = wordOf 0x09 v.toNat ∧ RefusedOutOfSession (.writeByte v) s ∧
    (s.phase = .ready →
      (s.addr = none → exec (.writeByte v) s = .next (s.respond (resultOf .addressUnset 0))) ∧
      ∀ a, s.addr = some a →
        (a.toNat < 0x8000 → exec (.writeByte v) s = .next (s.respond (resultOf .controlWriteRefused 0))) ∧
        (0xA000 ≤ a.toNat → a.toNat ≤ 0xBFFF → s.drv.ramEnabled = false →
          exec (.writeByte v) s = .next (s.respond (resultOf .ramNotEnabled 0))) ∧
        (0xA000 ≤ a.toNat → a.toNat ≤ 0xBFFF → s.drv.ramEnabled = true → ∀ side,
          (s.bus.write (.wait :: s.history) a v = (.ok, side) → exec (.writeByte v) s =
            .next (State.respond (resultOf .ok 0)
              { s with bus := side, revTrace := .wait :: .write a v .ok :: .wait :: s.revTrace })) ∧
          (s.bus.write (.wait :: s.history) a v = (.err, side) → exec (.writeByte v) s =
            .next (State.respond (resultOf .busError 0) (faultedWith .busError
              { s with bus := side, revTrace := .write a v .err :: .wait :: s.revTrace })))) ∧
        ((0x8000 ≤ a.toNat ∧ a.toNat < 0xA000) ∨ 0xC000 ≤ a.toNat → ∀ side,
          (s.bus.write s.history a v = (.ok, side) → exec (.writeByte v) s =
            .next (State.respond (resultOf .ok 0) { s with bus := side, revTrace := .write a v .ok :: s.revTrace })) ∧
          (s.bus.write s.history a v = (.err, side) → exec (.writeByte v) s =
            .next (State.respond (resultOf .busError 0) (faultedWith .busError
              { s with bus := side, revTrace := .write a v .err :: s.revTrace })))))

/-! ### The ROM reader -/

/-- ROM_SIZE and ROM_STATUS return the header's size, and the cursor, bank mirror and end-of-stream bit; neither changes
the state; outside a session each is refused (42_rom_reader.md R210, R211). -/
def Obligations.RomQueriesReportTheStateAndKeepIt : Prop :=
  ∀ s : State, encode .romSize = wordOf 0x0A 0 ∧ encode .romStatus = wordOf 0x0B 0 ∧
    RefusedOutOfSession .romSize s ∧ RefusedOutOfSession .romStatus s ∧
    (s.phase = .ready →
      (∀ h, s.hdr = some h → exec .romSize s = .next (s.respond ⟨.ok, h.romSize, 0, false, none⟩)) ∧
      exec .romStatus s = .next (s.respond
        ⟨.ok, BitVec.ofNat 32 s.rd.cursor.toNat, BitVec.ofNat 32 s.drv.romBank.toNat, s.rd.eos, none⟩))

/-- ROM_READ cap, word 0x0Cxxxxxx, below the end of the stream: it plays, for the min(cap, R - cursor) bytes from the cursor on, a bank
select at each 16 KiB boundary and the read of each byte; the bytes go to S.out in order, the cursor and the bank mirror
follow, and nothing else of S changes (42_rom_reader.md R213, R215). -/
def Obligations.RomReadDeliversTheStream : Prop :=
  (∀ cap : BitVec 24, encode (.romRead cap) = wordOf 0x0C cap.toNat) ∧
  ∀ (s : State) (h : Header) (cap : BitVec 24) (k : Nat), s.Inv → s.phase = .ready → s.hdr = some h →
    cap ≠ 0 → s.rd.cursor.toNat ≠ h.romSize.toNat → k = min cap.toNat (h.romSize.toNat - s.rd.cursor.toNat) →
    (∀ j < k, selectsAt (s.rd.cursor.toNat + j) → (s.rd.cursor.toNat + j) / 0x4000 < limRom h) →
    ∀ bs t, play (romReadOps h s.rd.cursor.toNat k) s = .ok bs t →
      bs.length = k ∧
      exec (.romRead cap) s = .next (State.respond (resultOf .ok k)
        { t with
          drv := { s.drv with romBank := romBankAfter s.drv.romBank s.rd.cursor.toNat k }
          rd := { s.rd with cursor := BitVec.ofNat 24 (s.rd.cursor.toNat + k) }
          revOut := bs.reverse ++ s.revOut })

/-- At the end of the stream ROM_READ with cap >= 1 returns 0 and sets eos, every time; with cap = 0 it returns 0 and
changes nothing; and an OK ROM_READ with cap >= 1 before the end never returns 0 (42_rom_reader.md R214). -/
def Obligations.RomReadReturnsZeroExactlyAtTheEnd : Prop :=
  ∀ (s : State) (h : Header) (cap : BitVec 24), s.Inv → s.phase = .ready → s.hdr = some h →
    (cap = 0 → exec (.romRead cap) s = .next (s.respond (resultOf .ok 0))) ∧
    (cap ≠ 0 → s.rd.cursor.toNat = h.romSize.toNat →
      exec (.romRead cap) s = .next (State.respond (resultOf .ok 0) { s with rd := { s.rd with eos := true } })) ∧
    (cap ≠ 0 → s.rd.cursor.toNat ≠ h.romSize.toNat → ∀ t r, exec (.romRead cap) s = .next t →
      t.lastResult = some r → r.status = .ok → r.value ≠ 0 ∧ t.rd.eos = s.rd.eos)

/-- Whatever ends a ROM_READ, its value is the number of bytes it put into S.out, and the cursor has advanced by exactly
those bytes; the only statuses are OK, BusError and UnsupportedOperation (42_rom_reader.md R213, R216; 30_encoding.md
R104). -/
def Obligations.RomReadAccountsForEveryByte : Prop :=
  ∀ (s t : State) (h : Header) (cap : BitVec 24) (r : Result), s.Inv → s.phase = .ready → s.hdr = some h →
    exec (.romRead cap) s = .next t → t.lastResult = some r →
    (r.status = .ok ∨ r.status = .busError ∨ r.status = .unsupportedOperation) ∧
    ∃ bs : List Byte, t.revOut = bs ++ s.revOut ∧ r.value.toNat = bs.length ∧
      t.rd.cursor.toNat = s.rd.cursor.toNat + bs.length

/-- At a boundary whose bank is at or above the limit, ROM_READ is refused with no event and no state change, and so it
is again when it is repeated. One that meets such a boundary after k bytes of the same call has delivered those k bytes,
as a ROM_READ of k bytes would have, and returns UnsupportedOperation with value k, the cursor at the boundary and the
phase as it was (42_rom_reader.md R213, R216; 60_exceptions.md R274). -/
def Obligations.RomReadStopsAtABankItCannotSelect : Prop :=
  (∀ (s : State) (h : Header) (cap : BitVec 24), s.phase = .ready → s.hdr = some h → cap ≠ 0 →
    s.rd.cursor.toNat < h.romSize.toNat → selectsAt s.rd.cursor.toNat → limRom h ≤ s.rd.cursor.toNat / 0x4000 →
    exec (.romRead cap) s = .next (s.respond (resultOf .unsupportedOperation 0))) ∧
  ∀ (s : State) (h : Header) (cap : BitVec 24) (k : Nat), s.Inv → s.phase = .ready → s.hdr = some h →
    k < cap.toNat → s.rd.cursor.toNat + k < h.romSize.toNat → selectsAt (s.rd.cursor.toNat + k) →
    limRom h ≤ (s.rd.cursor.toNat + k) / 0x4000 →
    (∀ j < k, selectsAt (s.rd.cursor.toNat + j) → (s.rd.cursor.toNat + j) / 0x4000 < limRom h) →
    ∀ bs t, play (romReadOps h s.rd.cursor.toNat k) s = .ok bs t →
      bs.length = k ∧
      exec (.romRead cap) s = .next (State.respond (resultOf .unsupportedOperation k)
        { t with
          drv := { s.drv with romBank := romBankAfter s.drv.romBank s.rd.cursor.toNat k }
          rd := { s.rd with cursor := BitVec.ofNat 24 (s.rd.cursor.toNat + k) }
          revOut := bs.reverse ++ s.revOut })

/-- No command moves the cursor back or clears eos, but MAKE_ROM_READER, which builds a new reader at cursor 0
(42_rom_reader.md R212). -/
def Obligations.StreamIsNotRestartable : Prop :=
  ∀ (i : Instr) (s t : State), s.Inv → exec i s = .next t →
    (i ≠ .makeRomReader → s.rd.cursor.toNat ≤ t.rd.cursor.toNat ∧ (s.rd.eos = true → t.rd.eos = true)) ∧
    (i = .makeRomReader → lastStatusIs .ok t → t.rd = { cursor := 0, eos := false })

/-- The bus address XLATE_ROM gives for the cursor is the one ROM_READ reads the next byte at, and at a boundary the bank
it gives is the one ROM_READ selects. The same of the RAM: where NeedSelect holds, the access to the RAM window that
RAM_DUMP or RAM_RESTORE makes for image byte o, however far it comes, is at the bus address XLATE_RAM gives for o, and the
last value written before it to the RAM bank register 0x4000 is the bank XLATE_RAM gives; one that returns OK accesses
every byte of the image once (44_translate.md R262; 43_ram_accessor.md R230). -/
def Obligations.TranslationAgreesWithTheStream : Prop :=
  (∀ (s t u : State) (h : Header) (r : Result), s.phase = .ready → s.hdr = some h →
    s.rd.cursor.toNat < h.romSize.toNat →
    exec (.romRead 1) s = .next t → lastStatusIs .ok t → exec (.xlateRom s.rd.cursor) s = .next u →
    u.lastResult = some r →
    (∃ a v older, t.revTrace = .read a (.ok v) :: older ∧ t.addr = some a ∧ r.aux.toNat = a.toNat) ∧
    (selectsAt s.rd.cursor.toNat → r.value.toNat = t.drv.romBank.toNat)) ∧
  ∀ (i : Instr) (s t : State) (h : Header), i = .ramDump ∨ i = .ramRestore → s.phase = .ready → s.hdr = some h →
    needSelect h = true → exec i s = .next t →
    ∃ evs, t.revTrace = evs ++ s.revTrace ∧
      (lastStatusIs .ok t → (windowAccesses none evs.reverse).length = ramBanks h * 0x2000) ∧
      ∀ (o : BitVec 24) (bank : Option Byte) (a : Addr) (u : State) (r : Result),
        (windowAccesses none evs.reverse)[o.toNat]? = some (bank, a) →
        exec (.xlateRam o) s = .next u → u.lastResult = some r →
        bank.map (·.toNat) = some r.value.toNat ∧ a.toNat = r.aux.toNat

/-! ### The RAM accessor -/

/-- RAM_DUMP, word 0x0D000000, within its bank limit: it plays the enable, every bank's select and 0x2000 reads, and the disable; the bytes
go to S.out bank-major and address-ascending, `ram_banks * 0x2000` of them, and RAM ends disabled (43_ram_accessor.md
R232, R234, R240). -/
def Obligations.RamDumpEmitsTheRamImage : Prop :=
  encode .ramDump = wordOf 0x0D 0 ∧
  ∀ (s : State) (h : Header), s.phase = .ready → s.hdr = some h → bankLimitOk h →
    ∀ bs t, play (dumpOps h) s = .ok bs t →
      bs.length = ramBanks h * 0x2000 ∧
      exec .ramDump s = .next (State.respond (resultOf .ok (ramBanks h * 0x2000))
        { t with
          drv := { s.drv with ramBank := ramBankAfter h s.drv.ramBank (ramBanks h), ramEnabled := false }
          revOut := bs.reverse ++ s.revOut })

/-- RAM_RESTORE, word 0x0E000000, within its bank limit, with an input that is long enough or only ends: it plays the
fix, the enable, every bank's select and 0x2000 settled writes of the padded input, and the disable; it takes `ram_banks * 0x2000` bytes of
S.in at most, and RAM ends disabled (43_ram_accessor.md R236, R237, R238, R240). -/
def Obligations.RamRestoreWritesThePaddedInput : Prop :=
  encode .ramRestore = wordOf 0x0E 0 ∧
  ∀ (s : State) (h : Header), s.phase = .ready → s.hdr = some h → h.ramSize ≠ 0 → bankLimitOk h →
    (ramBanks h * 0x2000 ≤ s.input.bytes.length ∨ s.input.fails = false) →
    ∀ bs t, play (restoreOps h s.input.bytes) s = .ok bs t →
      exec .ramRestore s = .next (State.respond (resultOf .ok (ramBanks h * 0x2000))
        { t with
          drv := { s.drv with ramBank := ramBankAfter h s.drv.ramBank (ramBanks h), ramEnabled := false }
          input := { s.input with bytes := s.input.bytes.drop (ramBanks h * 0x2000) } })

/-- Whatever ends them, RAM_DUMP's value is the number of bytes it put into S.out and RAM_RESTORE's the number of its data
writes that succeeded (43_ram_accessor.md R232, R237; 30_encoding.md R104). And when a BusError or FileIoError ends one,
ram_enabled is true if its enable write succeeded and as it was if not, and no disable write was issued, but for one
after the whole image that is itself the failure (43_ram_accessor.md R240, 70_reset_and_hazards.md R311). -/
def Obligations.AccessorsAccountForEveryByte : Prop :=
  ∀ (s t : State) (r : Result), s.Inv → t.lastResult = some r →
    (exec .ramDump s = .next t → ∃ bs, t.revOut = bs ++ s.revOut ∧ r.value.toNat = bs.length) ∧
    (exec .ramRestore s = .next t →
      ∃ evs, t.revTrace = evs ++ s.revTrace ∧ r.value.toNat = evs.countP isRamWriteOk) ∧
    ∀ (i : Instr) (h : Header), i = .ramDump ∨ i = .ramRestore → s.phase = .ready → s.hdr = some h →
      exec i s = .next t → r.status = .busError ∨ r.status = .fileIoError →
      ∃ evs, t.revTrace = evs ++ s.revTrace ∧
        (.write 0x0000 0x0A .ok ∈ evs → t.drv.ramEnabled = true) ∧
        (.write 0x0000 0x0A .ok ∉ evs → t.drv.ramEnabled = s.drv.ramEnabled) ∧
        ∀ x, .write 0x0000 0x00 x ∈ evs →
          x = .err ∧ evs.head? = some (.write 0x0000 0x00 .err) ∧ r.value.toNat = ramBanks h * 0x2000

/-- RAM_RESTORE with an input that fails before its end: the whole banks are written, the next bank is selected, and
FileIoError faults the session with the count of the bytes written and RAM left enabled (43_ram_accessor.md R236, R237,
R240; 60_exceptions.md R273; 70_reset_and_hazards.md R311). -/
def Obligations.RamRestoreFailsWhereItsInputFails : Prop :=
  ∀ (s : State) (h : Header) (q : Nat), s.phase = .ready → s.hdr = some h → bankLimitOk h →
    s.input.fails = true → s.input.bytes.length < ramBanks h * 0x2000 → q = s.input.bytes.length / 0x2000 →
    ∀ bs t, play (restorePrefixOps h s.input.bytes q ++ accessSelectOps h q) s = .ok bs t →
      exec .ramRestore s = .next (State.respond (resultOf .fileIoError (q * 0x2000)) (faultedWith .fileIoError
        { t with
          drv := { s.drv with ramBank := ramBankAfter h s.drv.ramBank (q + 1), ramEnabled := true }
          input := { s.input with bytes := s.input.bytes.drop (q * 0x2000) } }))

/-- A RAM_RESTORE with ram_size = 0 returns OK with value 0, issues no bus event and does not touch S.in
(43_ram_accessor.md R235). -/
def Obligations.ZeroRamRestoreDoesNothing : Prop :=
  ∀ (s : State) (h : Header), s.phase = .ready → s.hdr = some h → h.ramSize = 0 →
    exec .ramRestore s = .next (s.respond (resultOf .ok 0))

/-- BankLimitCheck: beyond the family's limit RAM_DUMP and RAM_RESTORE are refused with no event; within it every bank
the accessor selects is below lim_ram, and neither command returns UnsupportedOperation, which the spec derives
(43_ram_accessor.md R231, R233). -/
def Obligations.BankLimitCheckComesFirst : Prop :=
  ∀ h : Header,
    (∀ s : State, s.phase = .ready → s.hdr = some h → needSelect h = true →
      params.famMaxRamBanks (family h) < ramBanks h →
      exec .ramDump s = .next (s.respond (resultOf .unsupportedOperation 0)) ∧
      exec .ramRestore s = .next (s.respond (resultOf .unsupportedOperation 0))) ∧
    (needSelect h = true → bankLimitOk h → ∀ b < ramBanks h, b < limRam h) ∧
    (bankLimitOk h → ∀ (i : Instr) (s t : State), i = .ramDump ∨ i = .ramRestore → s.phase = .ready →
      s.hdr = some h → exec i s = .next t → ¬ lastStatusIs .unsupportedOperation t)

/-- TakeInput(k): a full chunk while there is one; else FileIoError with S.in untouched if the source fails, or the
short rest; and RAM_RESTORE never takes more than ram_size bytes, the rest staying unread (43_ram_accessor.md R236). -/
def Obligations.TakeInputGivesChunksUntilTheEnd : Prop :=
  (∀ (k : Nat) (s : State),
    (k ≤ s.input.bytes.length → takeInput k s =
      .ok (s.input.bytes.take k) { s with input := { s.input with bytes := s.input.bytes.drop k } }) ∧
    (s.input.bytes.length < k → s.input.fails = true → takeInput k s = .error ⟨.fileIoError, 0⟩ s) ∧
    (s.input.bytes.length < k → s.input.fails = false → takeInput k s =
      .ok s.input.bytes { s with input := { s.input with bytes := [] } })) ∧
  ∀ (s t : State) (h : Header), s.hdr = some h → exec .ramRestore s = .next t →
    ∃ k, k ≤ h.ramSize.toNat ∧ t.input = { s.input with bytes := s.input.bytes.drop k }

/-- An accessor command that returns OK ends with RAM disabled, but for the restore of a cartridge without RAM, which does
nothing (43_ram_accessor.md R235, R240). -/
def Obligations.AccessorLeavesRamDisabled : Prop :=
  ∀ (i : Instr) (s t : State) (h : Header), s.phase = .ready → s.hdr = some h →
    (i = .ramDump ∨ (i = .ramRestore ∧ h.ramSize ≠ 0)) → exec i s = .next t → lastStatusIs .ok t →
    t.drv.ramEnabled = false

/-! ### The translator -/

/-- XLATE_ROM and XLATE_RAM: bank by integer division, bus address in the window, and the in-range flag, for every
offset; the state is kept; outside a session each is refused (44_translate.md R260, R261; 20_memory.md R72, R73). -/
def Obligations.TranslationDividesByTheBankSize : Prop :=
  ∀ (s : State) (o : BitVec 24),
    encode (.xlateRom o) = wordOf 0x0F o.toNat ∧ encode (.xlateRam o) = wordOf 0x10 o.toNat ∧
    RefusedOutOfSession (.xlateRom o) s ∧ RefusedOutOfSession (.xlateRam o) s ∧
    ∀ h : Header, s.phase = .ready → s.hdr = some h →
      exec (.xlateRom o) s = .next (s.respond
        ⟨.ok, BitVec.ofNat 32 (o.toNat / 0x4000),
          BitVec.ofNat 32 (if o.toNat < 0x4000 then o.toNat else 0x4000 + o.toNat % 0x4000),
          decide (o.toNat < h.romSize.toNat), none⟩) ∧
      exec (.xlateRam o) s = .next (s.respond
        ⟨.ok, BitVec.ofNat 32 (o.toNat / 0x2000), BitVec.ofNat 32 (0xA000 + o.toNat % 0x2000),
          decide (o.toNat < h.ramSize.toNat), none⟩)

/-! ### All commands -/

/-- Every command, in every state, completes with a next state and returns exactly one result record; on an error the
record's aux, flag and hdr are 0 and none, and its value is 0 but for the commands that move data (00_scope.md R18;
30_encoding.md R104). The status codes a record can carry, and no other (60_exceptions.md R270). -/
def Obligations.EveryCommandReturnsOneResult : Prop :=
  (∀ e : Status, (statusCode e).toNat = (match e with
    | .ok => 0x00 | .busError => 0x01 | .unsupportedOperation => 0x02 | .fileIoError => 0x03
    | .illegalCommand => 0x04 | .noSession => 0x05 | .sessionFaulted => 0x06 | .addressUnset => 0x07
    | .controlWriteRefused => 0x08 | .ramNotEnabled => 0x09)) ∧
  ∀ (i : Instr) (s : State), ∃ t r, exec i s = .next t ∧ t.revResults = r :: s.revResults ∧
    (r.status ≠ .ok → r.aux = 0 ∧ r.flag = false ∧ r.hdr = none ∧
      ((∀ cap, i ≠ .romRead cap) → i ≠ .ramDump → i ≠ .ramRestore → r.value = 0))

/-- In phase Faulted every command, PARSE_HEADER and MAKE_ROM_READER included, returns SessionFaulted (code 0x06) and
changes nothing; S.fault keeps the original cause, and only reset leaves the phase (60_exceptions.md R277, 10_state.md
R21, 70_reset_and_hazards.md R300). -/
def Obligations.FaultedSessionRefusesEveryCommand : Prop :=
  statusCode .sessionFaulted = 0x06 ∧
  (∀ (i : Instr) (s : State), s.phase = .faulted →
    exec i s = .next (s.respond (resultOf .sessionFaulted 0))) ∧
  ∀ s t : State, s.phase = .faulted → step s = .next t →
    (∃ rest, s.host = .reset :: rest) ∨ (t.phase = .faulted ∧ t.fault = s.fault)

/-- In phase NoSession every command but PARSE_HEADER and MAKE_ROM_READER returns NoSession (code 0x05) and changes
nothing (60_exceptions.md R276). -/
def Obligations.NoSessionRefusesDriverCommands : Prop :=
  statusCode .noSession = 0x05 ∧
  ∀ (i : Instr) (s : State), s.phase = .noSession → i ≠ .parseHeader → i ≠ .makeRomReader →
    exec i s = .next (s.respond (resultOf .noSession 0))

/-- A fatal error faults the session and says why, the failing event being the last one issued; FileIoError comes from
RAM_RESTORE alone; and a command that ends in no fatal error leaves S.fault alone and does not fault the phase
(60_exceptions.md R272, R273, R283). -/
def Obligations.FatalErrorsFaultTheSession : Prop :=
  ∀ (i : Instr) (s t : State) (r : Result), exec i s = .next t → t.lastResult = some r →
    (r.status = .busError → t.phase = .faulted ∧ t.fault = some .busError ∧
      ∃ e older, t.revTrace = e :: older ∧ isFailure e = true) ∧
    (r.status = .fileIoError → t.phase = .faulted ∧ t.fault = some .fileIoError ∧ i = .ramRestore) ∧
    (r.status ≠ .busError → r.status ≠ .fileIoError →
      t.fault = s.fault ∧ (t.phase = s.phase ∨ (i = .makeRomReader ∧ t.phase = .ready)))

/-- An error that is not fatal leaves S exactly as it was, but for ROM_READ, whose limit check may come after bytes of
the same call (60_exceptions.md R271, R274). -/
def Obligations.OtherErrorsChangeNothing : Prop :=
  ∀ (i : Instr) (s t : State) (r : Result), exec i s = .next t → t.lastResult = some r →
    r.status ≠ .ok → r.status ≠ .busError → r.status ≠ .fileIoError →
    ((∀ cap, i ≠ .romRead cap) ∨ r.status ≠ .unsupportedOperation) → t = s.respond r

/-- S.hdr is written by MAKE_ROM_READER alone; PARSE_HEADER returns a header and writes none (10_state.md R22). -/
def Obligations.HeaderIsWrittenByMakeRomReaderAlone : Prop :=
  ∀ (i : Instr) (s t : State), exec i s = .next t →
    (i ≠ .makeRomReader → t.hdr = s.hdr) ∧
    (i = .parseHeader → lastStatusIs .ok t → ∃ r h, t.lastResult = some r ∧ r.hdr = some h)

/-- The frame of every command: which fields of the state each may write, S.out only by adding to it; the phase and
S.fault change only together, by a fatal error, or to Ready by MAKE_ROM_READER (10_state.md R20 to R22, R25, R28 to R32,
R39; 41_driver.md R183; 60_exceptions.md R272, R273). That no command touches the host's queue and the kept past is of
the model's own fields (log 1, log 4). -/
def Obligations.CommandsWriteOnlyTheirOwnFields : Prop :=
  ∀ (i : Instr) (s t : State), exec i s = .next t →
    t.host = s.host ∧ t.revPast = s.revPast ∧ (∃ bs, t.out = s.out ++ bs) ∧
    (i ≠ .makeRomReader → t.hdr = s.hdr) ∧
    ((t.phase = s.phase ∧ t.fault = s.fault) ∨ (i = .makeRomReader ∧ t.phase = .ready ∧ t.fault = s.fault) ∨
      (t.phase = .faulted ∧ t.fault ≠ none)) ∧
    (i ≠ .makeRomReader → (∀ cap, i ≠ .romRead cap) → t.rd = s.rd) ∧
    (i ≠ .makeRomReader → i ≠ .enableRam → i ≠ .disableRam → i ≠ .ramDump → i ≠ .ramRestore →
      t.drv.ramEnabled = s.drv.ramEnabled) ∧
    (i ≠ .makeRomReader → (∀ n, i ≠ .selectRomBank n) → (∀ cap, i ≠ .romRead cap) →
      t.drv.romBank = s.drv.romBank) ∧
    (i ≠ .makeRomReader → (∀ n, i ≠ .selectRamBank n) → i ≠ .ramDump → i ≠ .ramRestore →
      t.drv.ramBank = s.drv.ramBank) ∧
    (i ≠ .ramRestore → t.input = s.input) ∧
    (i ≠ .ramDump → (∀ cap, i ≠ .romRead cap) → t.revOut = s.revOut) ∧
    ((∃ a, i = .setAddr a) → t.phase = s.phase ∧ t.fault = s.fault ∧ t.bus = s.bus) ∧
    ((i = .romSize ∨ i = .romStatus ∨ (∃ o, i = .xlateRom o) ∨ ∃ o, i = .xlateRam o) →
      t.phase = s.phase ∧ t.fault = s.fault ∧ t.addr = s.addr ∧ t.revTrace = s.revTrace ∧ t.bus = s.bus)

/-- The single writer: the header commands, the host's pass-through and the queries never write a control register
(41_driver.md R183, 20_memory.md R87, 60_exceptions.md R279). -/
def Obligations.PassThroughNeverWritesAControlRegister : Prop :=
  ∀ (i : Instr) (s t : State), exec i s = .next t →
    (i = .parseHeader ∨ i = .makeRomReader ∨ (∃ a, i = .setAddr a) ∨ i = .readByte ∨ (∃ v, i = .writeByte v) ∨
      i = .romSize ∨ i = .romStatus ∨ (∃ o, i = .xlateRom o) ∨ ∃ o, i = .xlateRam o) →
    ∃ evs, t.revTrace = evs ++ s.revTrace ∧ ∀ e ∈ evs, isControlWrite e = false

/-- Where the block's own writes go: every write a command but WRITE_BYTE issues is to one of the registers of the
BankSwitchRule table or, in RAM_RESTORE, to the RAM window; and on a RomOnly session no command writes a control
register (10_state.md R33 to R37, 30_encoding.md R114, 20_memory.md R61). -/
def Obligations.WritesGoToTheTablesRegisters : Prop :=
  ∀ (i : Instr) (s t : State), exec i s = .next t →
    ∃ evs, t.revTrace = evs ++ s.revTrace ∧
      ((∀ v, i ≠ .writeByte v) → ∀ a v r, .write a v r ∈ evs →
        a ∈ ([0x0000, 0x2000, 0x2100, 0x3000, 0x4000, 0x6000] : List Addr) ∨
        (i = .ramRestore ∧ isRamWindow a = true)) ∧
      (∀ h, s.hdr = some h → family h = .romOnly → ∀ e ∈ evs, isControlWrite e = false)

/-- The settle discipline is kept by every step: each data write to the RAM window stands between two waits, the second
only if it succeeded (70_reset_and_hazards.md R309, 20_memory.md R76). -/
def Obligations.SettleWaitsBracketEveryRamWrite : Prop :=
  ∀ s t : State, settled s.revTrace = true → step s = .next t → settled t.revTrace = true

/-- Of the reference cartridge (log 13): no command changes its ROM, and only WRITE_BYTE and RAM_RESTORE change its RAM:
WRITE_BYTE none where S.addr shows no RAM, and else no byte but the one S.addr shows; RAM_RESTORE no byte but those the
RAM window shows, address by address, with the registers it has written before bank b's data (20_memory.md R62, R79;
43_ram_accessor.md R237; 95_test_vectors.md section 2). -/
def Obligations.OnlyRamWritesChangeCartridgeRam : Prop :=
  ∀ (i : Instr) (s t : State) (c : RefCart), s.Inv → s.bus = .reference c → exec i s = .next t →
    ∃ c', t.bus = .reference c' ∧ c'.rom = c.rom ∧
      ((∀ v, i ≠ .writeByte v) → i ≠ .ramRestore → c'.ram = c.ram) ∧
      ((∃ v, i = .writeByte v) → (s.addr = none → c'.ram = c.ram) ∧ ∀ a, s.addr = some a →
        (c.ramVisible a = false → c'.ram = c.ram) ∧ ∀ o, o ≠ c.ramOffset a → c'.ramByte o = c.ramByte o) ∧
      (i = .ramRestore → ∀ h, s.hdr = some h → ∀ o,
        (∀ b < ramBanks h, ∀ k < 0x2000,
          (c.storeAll (restoreSetup h b)).ramVisible (ramWindowAddr k) = true →
          o ≠ (c.storeAll (restoreSetup h b)).ramOffset (ramWindowAddr k)) →
        c'.ramByte o = c.ramByte o)

/-! ### Invariants and whole flows -/

/-- The invariant holds after reset (10_state.md R40). -/
def Obligations.InvariantHoldsAfterReset : Prop := State.reset.Inv

/-- Every step keeps the invariant: the bank mirrors stay in range, the cursor stays in the image, phase and fault agree, a
session has its header and an address, and the memories keep their canonical form (10_state.md R20, R21, R25, R26, R28;
60_exceptions.md R278). -/
def Obligations.EveryStepKeepsTheInvariant : Prop :=
  ∀ s t : State, s.Inv → step s = .next t → t.Inv

/-- AddressUnset cannot occur where the invariant holds (60_exceptions.md R278). -/
def Obligations.AddressUnsetNeverOccursInASession : Prop :=
  ∀ (i : Instr) (s t : State), s.Inv → exec i s = .next t → ¬ lastStatusIs .addressUnset t

/-- On a reference cartridge that does not fail, both header commands return the header its ROM holds at 0x0100-0x014F,
and MAKE_ROM_READER opens the session with it (40_header.md R140 to R142, on the cartridge of 95_test_vectors.md section
2). -/
def Obligations.HeaderCommandsReadTheCartridgeHeader : Prop :=
  ∀ (s : State) (c : RefCart), s.phase ≠ .faulted → s.bus = .reference c → c.failures = [] →
    ∃ t u r, exec .parseHeader s = .next t ∧ exec .makeRomReader s = .next u ∧
      t.lastResult = some r ∧ u.lastResult = some r ∧ r.status = .ok ∧ r.hdr = some (decodeHeader c.headerBytes) ∧
      t.phase = s.phase ∧ t.hdr = s.hdr ∧ u.phase = .ready ∧ u.hdr = some (decodeHeader c.headerBytes) ∧
      t.addr = some 0x014F ∧ u.addr = some 0x014F

/-- A fresh reader on the reference cartridge delivers the ROM image in ascending order, MBC1's banks 0x20, 0x40 and 0x60
excepted, which show the bank above them (42_rom_reader.md R215, 70_reset_and_hazards.md R315, on the cartridge of
95_test_vectors.md section 2). -/
def Obligations.FreshStreamDeliversTheRomImage : Prop :=
  ∀ (s : State) (h : Header) (c : RefCart) (cap : BitVec 24), s.Inv → s.phase = .ready → s.hdr = some h →
    s.bus = .reference c → CartFits c h → s.rd.cursor = 0 → romBanks h ≤ params.famMaxRomBanks (family h) →
    ∃ t, exec (.romRead cap) s = .next t ∧ lastStatusIs .ok t ∧
      t.out = s.out ++ (List.range (min cap.toNat h.romSize.toNat)).map (streamByte c h)

/-- Round trip on the reference cartridge: a RAM_RESTORE followed by a RAM_DUMP emits the input padded to ram_size
(43_ram_accessor.md R239, on the cartridge of 95_test_vectors.md section 2; a family without a bank register can hold
one bank only). -/
def Obligations.RestoreThenDumpEmitsThePaddedInput : Prop :=
  ∀ (s : State) (h : Header) (c : RefCart), s.Inv → s.phase = .ready → s.hdr = some h →
    s.bus = .reference c → CartFits c h → h.ramSize ≠ 0 → bankLimitOk h →
    (needSelect h = true ∨ ramBanks h = 1) →
    (h.ramSize.toNat ≤ s.input.bytes.length ∨ s.input.fails = false) →
    ∃ t u, exec .ramRestore s = .next t ∧ lastStatusIs .ok t ∧ exec .ramDump t = .next u ∧ lastStatusIs .ok u ∧
      u.out = s.out ++ (List.range h.ramSize.toNat).map (padded s.input.bytes)
end

