-- ==== Sys2Proof/Laws/Proc.lean ====
section
/-! SUPPORT. How procedures compose: what a sequence does, and which relations between the state before and the state
after every procedure built from given parts keeps. -/

namespace Sys2Proof.Machine

variable {α β : Type}

/-! ### Running a procedure -/

@[simp] theorem pure_apply (a : α) (s : State) : (pure a : Proc α) s = .ok a s := rfl

@[simp] theorem raise_apply (e : Status) (s : State) : (raise e : Proc α) s = .error ⟨e, 0⟩ s := rfl

@[simp] theorem modifyState_apply (f : State → State) (s : State) : modifyState f s = .ok () (f s) := rfl

@[simp] theorem busSetAddr_apply (a : Addr) (s : State) :
    busSetAddr a s = .ok () { s.record (.setAddr a) with addr := some a } := rfl

@[simp] theorem settleWait_apply (s : State) : settleWait s = .ok () (s.record .wait) := rfl

@[simp] theorem emit_apply (v : Byte) (s : State) : emit v s = .ok () { s with revOut := v :: s.revOut } := rfl

theorem bind_apply (p : Proc α) (f : α → Proc β) (s : State) :
    (p >>= f) s = match p s with
      | .ok a t => f a t
      | .error e t => .error e t := by
  show EStateM.bind p f s = _
  unfold EStateM.bind
  cases p s <;> rfl

theorem bind_of_ok {p : Proc α} {f : α → Proc β} {s t : State} {a : α} (h : p s = .ok a t) : (p >>= f) s = f a t := by
  rw [bind_apply, h]

theorem bind_of_error {p : Proc α} {f : α → Proc β} {s t : State} {e : Raised} (h : p s = .error e t) :
    (p >>= f) s = .error e t := by
  rw [bind_apply, h]

/-- A sequence returns exactly when both parts do. -/
theorem bind_eq_ok {p : Proc α} {f : α → Proc β} {s t : State} {b : β} :
    (p >>= f) s = .ok b t ↔ ∃ a u, p s = .ok a u ∧ f a u = .ok b t := by
  rw [bind_apply]
  cases hp : p s with
  | ok a u => simp
  | error e u => simp

/-- A sequence raises an error when its first part does, or when that returns and the second raises it. -/
theorem bind_eq_error {p : Proc α} {f : α → Proc β} {s t : State} {e : Raised} :
    (p >>= f) s = .error e t ↔ p s = .error e t ∨ ∃ a u, p s = .ok a u ∧ f a u = .error e t := by
  rw [bind_apply]
  cases hp : p s with
  | ok a u => simp
  | error e u => simp

theorem withMoved_eq_ok {k : Nat} {p : Proc α} {s t : State} {a : α} :
    withMoved k p s = .ok a t ↔ p s = .ok a t := by
  unfold withMoved
  cases hp : p s with
  | ok b u => simp
  | error e u => simp

/-- Counting the bytes moved before a procedure changes the count of its error and nothing else. -/
theorem withMoved_eq_error {k : Nat} {p : Proc α} {s t : State} {e : Raised} :
    withMoved k p s = .error e t ↔ ∃ e₀, p s = .error e₀ t ∧ e = ⟨e₀.status, k + e₀.moved⟩ := by
  unfold withMoved
  cases hp : p s with
  | ok b u => simp
  | error e₀ u =>
    constructor
    · intro h
      cases h
      exact ⟨e₀, rfl, rfl⟩
    · rintro ⟨e₁, h, rfl⟩
      cases h
      rfl

/-! ### The state a procedure leaves -/

/-- The state after a procedure, returned or raised. -/
def stateAfter (p : Proc α) (s : State) : State :=
  match p s with
  | .ok _ t => t
  | .error _ t => t

theorem stateAfter_of_ok {p : Proc α} {s t : State} {a : α} (h : p s = .ok a t) : stateAfter p s = t := by
  simp [stateAfter, h]

theorem stateAfter_of_error {p : Proc α} {s t : State} {e : Raised} (h : p s = .error e t) : stateAfter p s = t := by
  simp [stateAfter, h]

/-- A procedure keeps a relation: it holds between the state before and the state after, whatever the outcome. -/
def Keeps (R : State → State → Prop) (p : Proc α) : Prop := ∀ s, R s (stateAfter p s)

/-- A relation that holds of doing nothing and of one thing after another. -/
structure Steady (R : State → State → Prop) : Prop where
  refl  : ∀ s, R s s
  trans : ∀ {s t u}, R s t → R t u → R s u

theorem Keeps.of_ok {R : State → State → Prop} {p : Proc α} (h : Keeps R p) {s t : State} {a : α}
    (hp : p s = .ok a t) : R s t := stateAfter_of_ok hp ▸ h s

theorem Keeps.of_error {R : State → State → Prop} {p : Proc α} (h : Keeps R p) {s t : State} {e : Raised}
    (hp : p s = .error e t) : R s t := stateAfter_of_error hp ▸ h s

section
variable {R : State → State → Prop} (hR : Steady R)
include hR

theorem keeps_pure (a : α) : Keeps R (pure a : Proc α) := fun s => hR.refl s

theorem keeps_raise (e : Status) : Keeps R (raise e : Proc α) := fun s => hR.refl s

theorem keeps_bind {p : Proc α} {f : α → Proc β} (hp : Keeps R p) (hf : ∀ a, Keeps R (f a)) : Keeps R (p >>= f) := by
  intro s
  cases h : p s with
  | ok a t =>
    have h₁ := hp.of_ok h
    have h₂ := hf a t
    unfold stateAfter at h₂ ⊢
    rw [bind_of_ok h]
    exact hR.trans h₁ h₂
  | error e t =>
    rw [stateAfter_of_error (bind_of_error h)]
    exact hp.of_error h

theorem keeps_forBytes {body : Nat → Proc Unit} (hb : ∀ i, Keeps R (body i)) (n : Nat) :
    ∀ first moved, Keeps R (forBytes body n first moved) := by
  induction n with
  | zero => exact fun _ _ => keeps_pure hR ()
  | succ n ih =>
    intro first moved
    refine keeps_bind hR (fun s => ?_) fun _ => ih _ _
    have := hb first s
    unfold stateAfter withMoved at *
    cases h : body first s with
    | ok a t => simpa [h] using this
    | error e t => simpa [h] using this

theorem keeps_forBanks {size : Nat} {body : Nat → Proc Unit} (hb : ∀ i, Keeps R (body i)) (n : Nat) :
    ∀ first, Keeps R (forBanks size body n first) := by
  induction n with
  | zero => exact fun _ => keeps_pure hR ()
  | succ n ih =>
    intro first
    refine keeps_bind hR (fun s => ?_) fun _ => ih _
    have := hb first s
    unfold stateAfter withMoved at *
    cases h : body first s with
    | ok a t => simpa [h] using this
    | error e t => simpa [h] using this

end

theorem keeps_withMoved {R : State → State → Prop} {p : Proc α} (k : Nat) (hp : Keeps R p) : Keeps R (withMoved k p) := by
  intro s
  have := hp s
  unfold stateAfter withMoved at *
  cases h : p s with
  | ok a t => simpa [h] using this
  | error e t => simpa [h] using this

theorem keeps_modifyState {R : State → State → Prop} {f : State → State} (hf : ∀ s, R s (f s)) :
    Keeps R (modifyState f) := hf

theorem keeps_ite {R : State → State → Prop} {c : Prop} [Decidable c] {p q : Proc α} (hp : Keeps R p)
    (hq : Keeps R q) : Keeps R (if c then p else q) := by
  split
  · exact hp
  · exact hq

/-- A procedure that looks at the state before choosing what to do. -/
theorem keeps_read {R : State → State → Prop} {f : State → Proc α} (h : ∀ s₀, Keeps R (f s₀)) :
    Keeps R (fun s => f s s) := fun s => h s s

end Sys2Proof.Machine
end

