-- ==== Sys2Proof/Laws/State.lean ====
section
/-! SUPPORT. One lemma per field per update of the state, so that no later proof unfolds a record update. -/

namespace Sys2Proof.Machine

/-! ### `State.record` -/

@[simp] theorem record_phase (e : BusEvent) (s : State) :
    (s.record e).phase = s.phase := rfl

@[simp] theorem record_fault (e : BusEvent) (s : State) :
    (s.record e).fault = s.fault := rfl

@[simp] theorem record_hdr (e : BusEvent) (s : State) :
    (s.record e).hdr = s.hdr := rfl

@[simp] theorem record_drv (e : BusEvent) (s : State) :
    (s.record e).drv = s.drv := rfl

@[simp] theorem record_rd (e : BusEvent) (s : State) :
    (s.record e).rd = s.rd := rfl

@[simp] theorem record_addr (e : BusEvent) (s : State) :
    (s.record e).addr = s.addr := rfl

@[simp] theorem record_revTrace (e : BusEvent) (s : State) :
    (s.record e).revTrace = e :: s.revTrace := rfl

@[simp] theorem record_revOut (e : BusEvent) (s : State) :
    (s.record e).revOut = s.revOut := rfl

@[simp] theorem record_input (e : BusEvent) (s : State) :
    (s.record e).input = s.input := rfl

@[simp] theorem record_revResults (e : BusEvent) (s : State) :
    (s.record e).revResults = s.revResults := rfl

@[simp] theorem record_host (e : BusEvent) (s : State) :
    (s.record e).host = s.host := rfl

@[simp] theorem record_bus (e : BusEvent) (s : State) :
    (s.record e).bus = s.bus := rfl

@[simp] theorem record_revPast (e : BusEvent) (s : State) :
    (s.record e).revPast = s.revPast := rfl

@[simp] theorem record_history (e : BusEvent) (s : State) :
    (s.record e).history = e :: s.history := rfl

/-! ### `State.respond` -/

@[simp] theorem respond_phase (r : Result) (s : State) :
    (s.respond r).phase = s.phase := rfl

@[simp] theorem respond_fault (r : Result) (s : State) :
    (s.respond r).fault = s.fault := rfl

@[simp] theorem respond_hdr (r : Result) (s : State) :
    (s.respond r).hdr = s.hdr := rfl

@[simp] theorem respond_drv (r : Result) (s : State) :
    (s.respond r).drv = s.drv := rfl

@[simp] theorem respond_rd (r : Result) (s : State) :
    (s.respond r).rd = s.rd := rfl

@[simp] theorem respond_addr (r : Result) (s : State) :
    (s.respond r).addr = s.addr := rfl

@[simp] theorem respond_revTrace (r : Result) (s : State) :
    (s.respond r).revTrace = s.revTrace := rfl

@[simp] theorem respond_revOut (r : Result) (s : State) :
    (s.respond r).revOut = s.revOut := rfl

@[simp] theorem respond_input (r : Result) (s : State) :
    (s.respond r).input = s.input := rfl

@[simp] theorem respond_revResults (r : Result) (s : State) :
    (s.respond r).revResults = r :: s.revResults := rfl

@[simp] theorem respond_host (r : Result) (s : State) :
    (s.respond r).host = s.host := rfl

@[simp] theorem respond_bus (r : Result) (s : State) :
    (s.respond r).bus = s.bus := rfl

@[simp] theorem respond_revPast (r : Result) (s : State) :
    (s.respond r).revPast = s.revPast := rfl

@[simp] theorem respond_history (r : Result) (s : State) :
    (s.respond r).history = s.history := rfl

@[simp] theorem respond_lastResult (r : Result) (s : State) :
    (s.respond r).lastResult = some r := rfl

/-! ### `openSession` -/

@[simp] theorem openSession_phase (h : Header) (s : State) :
    (openSession h s).phase = .ready := rfl

@[simp] theorem openSession_fault (h : Header) (s : State) :
    (openSession h s).fault = s.fault := rfl

@[simp] theorem openSession_hdr (h : Header) (s : State) :
    (openSession h s).hdr = some h := rfl

@[simp] theorem openSession_drv (h : Header) (s : State) :
    (openSession h s).drv = ⟨1, 0, false⟩ := rfl

@[simp] theorem openSession_rd (h : Header) (s : State) :
    (openSession h s).rd = ⟨0, false⟩ := rfl

@[simp] theorem openSession_addr (h : Header) (s : State) :
    (openSession h s).addr = s.addr := rfl

@[simp] theorem openSession_revTrace (h : Header) (s : State) :
    (openSession h s).revTrace = s.revTrace := rfl

@[simp] theorem openSession_revOut (h : Header) (s : State) :
    (openSession h s).revOut = s.revOut := rfl

@[simp] theorem openSession_input (h : Header) (s : State) :
    (openSession h s).input = s.input := rfl

@[simp] theorem openSession_revResults (h : Header) (s : State) :
    (openSession h s).revResults = s.revResults := rfl

@[simp] theorem openSession_host (h : Header) (s : State) :
    (openSession h s).host = s.host := rfl

@[simp] theorem openSession_bus (h : Header) (s : State) :
    (openSession h s).bus = s.bus := rfl

@[simp] theorem openSession_revPast (h : Header) (s : State) :
    (openSession h s).revPast = s.revPast := rfl

/-! ### `State.enterFaulted` and `takeError` -/

@[simp] theorem enterFaulted_hdr (e : Status) (s : State) :
    (s.enterFaulted e).hdr = s.hdr := by
  cases e <;> rfl

@[simp] theorem enterFaulted_drv (e : Status) (s : State) :
    (s.enterFaulted e).drv = s.drv := by
  cases e <;> rfl

@[simp] theorem enterFaulted_rd (e : Status) (s : State) :
    (s.enterFaulted e).rd = s.rd := by
  cases e <;> rfl

@[simp] theorem enterFaulted_addr (e : Status) (s : State) :
    (s.enterFaulted e).addr = s.addr := by
  cases e <;> rfl

@[simp] theorem enterFaulted_revTrace (e : Status) (s : State) :
    (s.enterFaulted e).revTrace = s.revTrace := by
  cases e <;> rfl

@[simp] theorem enterFaulted_revOut (e : Status) (s : State) :
    (s.enterFaulted e).revOut = s.revOut := by
  cases e <;> rfl

@[simp] theorem enterFaulted_input (e : Status) (s : State) :
    (s.enterFaulted e).input = s.input := by
  cases e <;> rfl

@[simp] theorem enterFaulted_revResults (e : Status) (s : State) :
    (s.enterFaulted e).revResults = s.revResults := by
  cases e <;> rfl

@[simp] theorem enterFaulted_host (e : Status) (s : State) :
    (s.enterFaulted e).host = s.host := by
  cases e <;> rfl

@[simp] theorem enterFaulted_bus (e : Status) (s : State) :
    (s.enterFaulted e).bus = s.bus := by
  cases e <;> rfl

@[simp] theorem enterFaulted_revPast (e : Status) (s : State) :
    (s.enterFaulted e).revPast = s.revPast := by
  cases e <;> rfl

@[simp] theorem takeError_hdr (e : Raised) (s : State) :
    (takeError e s).hdr = s.hdr := by
  simp [takeError]

@[simp] theorem takeError_drv (e : Raised) (s : State) :
    (takeError e s).drv = s.drv := by
  simp [takeError]

@[simp] theorem takeError_rd (e : Raised) (s : State) :
    (takeError e s).rd = s.rd := by
  simp [takeError]

@[simp] theorem takeError_addr (e : Raised) (s : State) :
    (takeError e s).addr = s.addr := by
  simp [takeError]

@[simp] theorem takeError_revTrace (e : Raised) (s : State) :
    (takeError e s).revTrace = s.revTrace := by
  simp [takeError]

@[simp] theorem takeError_revOut (e : Raised) (s : State) :
    (takeError e s).revOut = s.revOut := by
  simp [takeError]

@[simp] theorem takeError_input (e : Raised) (s : State) :
    (takeError e s).input = s.input := by
  simp [takeError]

@[simp] theorem takeError_revResults (e : Raised) (s : State) :
    (takeError e s).revResults = errorResult e :: s.revResults := by
  simp [takeError]

@[simp] theorem takeError_host (e : Raised) (s : State) :
    (takeError e s).host = s.host := by
  simp [takeError]

@[simp] theorem takeError_bus (e : Raised) (s : State) :
    (takeError e s).bus = s.bus := by
  simp [takeError]

@[simp] theorem takeError_revPast (e : Raised) (s : State) :
    (takeError e s).revPast = s.revPast := by
  simp [takeError]

/-- An error that is not fatal leaves the phase and S.fault alone (60_exceptions.md R283). -/
theorem enterFaulted_of_not_fatal {e : Status} (h : fatalOf e = none) (s : State) : s.enterFaulted e = s := by
  simp [State.enterFaulted, h]

/-- A fatal error makes the phase Faulted and says why (60_exceptions.md R272, R273). -/
theorem enterFaulted_of_fatal {e : Status} {f : FatalError} (h : fatalOf e = some f) (s : State) :
    s.enterFaulted e = { s with phase := .faulted, fault := some f } := by
  simp [State.enterFaulted, h]

/-! ### `resetEvent` -/

@[simp] theorem resetEvent_phase (s : State) :
    (resetEvent s).phase = .noSession := rfl

@[simp] theorem resetEvent_fault (s : State) :
    (resetEvent s).fault = none := rfl

@[simp] theorem resetEvent_hdr (s : State) :
    (resetEvent s).hdr = none := rfl

@[simp] theorem resetEvent_drv (s : State) :
    (resetEvent s).drv = ⟨1, 0, false⟩ := rfl

@[simp] theorem resetEvent_rd (s : State) :
    (resetEvent s).rd = ⟨0, false⟩ := rfl

@[simp] theorem resetEvent_addr (s : State) :
    (resetEvent s).addr = none := rfl

@[simp] theorem resetEvent_revTrace (s : State) :
    (resetEvent s).revTrace = [] := rfl

@[simp] theorem resetEvent_revOut (s : State) :
    (resetEvent s).revOut = [] := rfl

@[simp] theorem resetEvent_input (s : State) :
    (resetEvent s).input = s.input := rfl

@[simp] theorem resetEvent_revResults (s : State) :
    (resetEvent s).revResults = [] := rfl

@[simp] theorem resetEvent_host (s : State) :
    (resetEvent s).host = s.host := rfl

@[simp] theorem resetEvent_bus (s : State) :
    (resetEvent s).bus = s.bus := rfl

@[simp] theorem resetEvent_revPast (s : State) :
    (resetEvent s).revPast = s.history := rfl

/-! ### Reading the growing lists in issue order -/

@[simp] theorem record_trace (e : BusEvent) (s : State) : (s.record e).trace = s.trace ++ [e] := by
  simp [State.trace]

@[simp] theorem respond_trace (r : Result) (s : State) : (s.respond r).trace = s.trace := rfl

@[simp] theorem respond_out (r : Result) (s : State) : (s.respond r).out = s.out := rfl

@[simp] theorem respond_results (r : Result) (s : State) : (s.respond r).results = s.results ++ [r] := by
  simp [State.results]

end Sys2Proof.Machine
end

