-- ==== Sys2Proof/Laws/Ops.lean ====
section
/-! SUPPORT. What each shared operation of Machine/Ops.lean can do, said once. -/

namespace Sys2Proof.Machine

/-! ### The bus primitives -/

/-- The state after a bus request: one event, and the bus side moved on (20_memory.md R67, R68). -/
def afterRequest (s : State) (e : BusEvent) (side : BusSide) : State := { s.record e with bus := side }

/-- The state after an address set (20_memory.md R66). -/
def afterSetAddr (s : State) (a : Addr) : State := { s.record (.setAddr a) with addr := some a }

/-- BusRead at an address: the two answers of the bus (20_memory.md R67). -/
theorem busRead_at {s : State} {a : Addr} (ha : s.addr = some a) :
    busRead s = match s.bus.read s.history a with
      | (.ok v, side) => .ok v (afterRequest s (.read a (.ok v)) side)
      | (.err, side) => .error ⟨.busError, 0⟩ (afterRequest s (.read a .err) side) := by
  simp only [busRead, ha, afterRequest]
  rcases s.bus.read s.history a with ⟨_ | _, side⟩ <;> rfl

/-- BusWrite at an address: the two answers of the bus (20_memory.md R68). -/
theorem busWrite_at {s : State} {a : Addr} (ha : s.addr = some a) (v : Byte) :
    busWrite v s = match s.bus.write s.history a v with
      | (.ok, side) => .ok () (afterRequest s (.write a v .ok) side)
      | (.err, side) => .error ⟨.busError, 0⟩ (afterRequest s (.write a v .err) side) := by
  simp only [busWrite, ha, afterRequest]
  rcases s.bus.write s.history a v with ⟨_ | _, side⟩ <;> rfl

theorem busRead_unset {s : State} (ha : s.addr = none) : busRead s = .error ⟨.addressUnset, 0⟩ s := by
  simp [busRead, ha]

theorem busWrite_unset {s : State} (ha : s.addr = none) (v : Byte) : busWrite v s = .error ⟨.addressUnset, 0⟩ s := by
  simp [busWrite, ha]

/-- What MemRead can do (20_memory.md R69). -/
theorem memRead_cases (a : Addr) (s : State) :
    (∃ v side, (afterSetAddr s a).bus.read (afterSetAddr s a).history a = (.ok v, side) ∧
      memRead a s = .ok v (afterRequest (afterSetAddr s a) (.read a (.ok v)) side)) ∨
    (∃ side, (afterSetAddr s a).bus.read (afterSetAddr s a).history a = (.err, side) ∧
      memRead a s = .error ⟨.busError, 0⟩ (afterRequest (afterSetAddr s a) (.read a .err) side)) := by
  have h : memRead a s = busRead (afterSetAddr s a) := rfl
  rw [h, busRead_at (s := afterSetAddr s a) rfl]
  rcases hb : (afterSetAddr s a).bus.read (afterSetAddr s a).history a with ⟨v | _, side⟩
  · exact .inl ⟨v, side, rfl, rfl⟩
  · exact .inr ⟨side, rfl, rfl⟩

/-- What MemWrite can do (20_memory.md R69). -/
theorem memWrite_cases (a : Addr) (v : Byte) (s : State) :
    (∃ side, (afterSetAddr s a).bus.write (afterSetAddr s a).history a v = (.ok, side) ∧
      memWrite a v s = .ok () (afterRequest (afterSetAddr s a) (.write a v .ok) side)) ∨
    (∃ side, (afterSetAddr s a).bus.write (afterSetAddr s a).history a v = (.err, side) ∧
      memWrite a v s = .error ⟨.busError, 0⟩ (afterRequest (afterSetAddr s a) (.write a v .err) side)) := by
  have h : memWrite a v s = busWrite v (afterSetAddr s a) := rfl
  rw [h, busWrite_at (s := afterSetAddr s a) rfl]
  rcases hb : (afterSetAddr s a).bus.write (afterSetAddr s a).history a v with ⟨_ | _, side⟩
  · exact .inl ⟨side, rfl, rfl⟩
  · exact .inr ⟨side, rfl, rfl⟩

/-! ### Relations that every bus access keeps -/

/-- A relation that an address set, a request's event and a wait keep. -/
structure BusSteady (R : State → State → Prop) : Prop extends Steady R where
  setAddr : ∀ s a, R s (afterSetAddr s a)
  request : ∀ s e side, R s (afterRequest s e side)
  wait    : ∀ s, R s (s.record .wait)

section
variable {R : State → State → Prop} (hR : BusSteady R)
include hR

theorem keeps_busSetAddr (a : Addr) : Keeps R (busSetAddr a) := fun s => hR.setAddr s a

theorem keeps_settleWait : Keeps R settleWait := fun s => hR.wait s

theorem keeps_busRead : Keeps R busRead := by
  intro s
  cases ha : s.addr with
  | none => rw [stateAfter_of_error (busRead_unset ha)]; exact hR.refl s
  | some a =>
    have h := busRead_at ha
    rcases hb : s.bus.read s.history a with ⟨v | _, side⟩ <;> rw [hb] at h
    · rw [stateAfter_of_ok h]; exact hR.request ..
    · rw [stateAfter_of_error h]; exact hR.request ..

theorem keeps_busWrite (v : Byte) : Keeps R (busWrite v) := by
  intro s
  cases ha : s.addr with
  | none => rw [stateAfter_of_error (busWrite_unset ha v)]; exact hR.refl s
  | some a =>
    have h := busWrite_at ha v
    rcases hb : s.bus.write s.history a v with ⟨_ | _, side⟩ <;> rw [hb] at h
    · rw [stateAfter_of_ok h]; exact hR.request ..
    · rw [stateAfter_of_error h]; exact hR.request ..

theorem keeps_memRead (a : Addr) : Keeps R (memRead a) :=
  keeps_bind hR.toSteady (keeps_busSetAddr hR a) fun _ => keeps_busRead hR

theorem keeps_memWrite (a : Addr) (v : Byte) : Keeps R (memWrite a v) :=
  keeps_bind hR.toSteady (keeps_busSetAddr hR a) fun _ => keeps_busWrite hR v

end

/-! ### The streams and the session checks -/

/-- What TakeInput can do (43_ram_accessor.md R236). -/
theorem takeInput_cases (k : Nat) (s : State) :
    (k ≤ s.input.bytes.length ∧
      takeInput k s = .ok (s.input.bytes.take k) { s with input := { s.input with bytes := s.input.bytes.drop k } }) ∨
    (s.input.bytes.length < k ∧ s.input.fails = true ∧ takeInput k s = .error ⟨.fileIoError, 0⟩ s) ∨
    (s.input.bytes.length < k ∧ s.input.fails = false ∧
      takeInput k s = .ok s.input.bytes { s with input := { s.input with bytes := [] } }) := by
  unfold takeInput
  by_cases h : k ≤ s.input.bytes.length
  · exact .inl ⟨h, by simp [h]⟩
  · cases hf : s.input.fails with
    | true => exact .inr (.inl ⟨by omega, rfl, by simp [h]⟩)
    | false => exact .inr (.inr ⟨by omega, rfl, by simp [h]⟩)

@[simp] theorem requireSession_ready {s : State} (h : s.phase = .ready) : requireSession s = .ok () s := by
  simp [requireSession, h]

@[simp] theorem requireSession_noSession {s : State} (h : s.phase = .noSession) :
    requireSession s = .error ⟨.noSession, 0⟩ s := by
  simp [requireSession, h]

@[simp] theorem requireSession_faulted {s : State} (h : s.phase = .faulted) :
    requireSession s = .error ⟨.sessionFaulted, 0⟩ s := by
  simp [requireSession, h]

@[simp] theorem requireNotFaulted_faulted {s : State} (h : s.phase = .faulted) :
    requireNotFaulted s = .error ⟨.sessionFaulted, 0⟩ s := by
  simp [requireNotFaulted, h]

theorem requireNotFaulted_ok {s : State} (h : s.phase ≠ .faulted) : requireNotFaulted s = .ok () s := by
  unfold requireNotFaulted
  cases hp : s.phase with
  | faulted => exact absurd hp h
  | noSession => rfl
  | ready => rfl

@[simp] theorem sessionHeader_some {s : State} {h : Header} (hh : s.hdr = some h) : sessionHeader s = .ok h s := by
  simp [sessionHeader, hh]

/-- The session checks leave the state as it is, whatever they answer. -/
theorem requireSession_stays (s : State) : stateAfter requireSession s = s := by
  cases hp : s.phase <;> simp [stateAfter, requireSession, hp]

theorem requireNotFaulted_stays (s : State) : stateAfter requireNotFaulted s = s := by
  cases hp : s.phase <;> simp [stateAfter, requireNotFaulted, hp]

theorem sessionHeader_stays (s : State) : stateAfter sessionHeader s = s := by
  cases hh : s.hdr <;> simp [stateAfter, sessionHeader, hh]

theorem keeps_requireSession {R : State → State → Prop} (hR : Steady R) : Keeps R requireSession := fun s => by
  rw [requireSession_stays]; exact hR.refl s

theorem keeps_requireNotFaulted {R : State → State → Prop} (hR : Steady R) : Keeps R requireNotFaulted := fun s => by
  rw [requireNotFaulted_stays]; exact hR.refl s

theorem keeps_sessionHeader {R : State → State → Prop} (hR : Steady R) : Keeps R sessionHeader := fun s => by
  rw [sessionHeader_stays]; exact hR.refl s

/-! ### How a command ends -/

/-- A command that runs to its end returns status OK. -/
theorem runCommand_of_ok {p : Proc Reply} {s t : State} {r : Reply} (h : p s = .ok r t) :
    runCommand p s = .next (t.respond (okResult r)) := by
  simp [runCommand, complete, h]

/-- A command that raises an error takes it. -/
theorem runCommand_of_error {p : Proc Reply} {s t : State} {e : Raised} (h : p s = .error e t) :
    runCommand p s = .next (takeError e t) := by
  simp [runCommand, complete, h]

/-- The two ways a command ends. -/
theorem runCommand_cases (p : Proc Reply) (s : State) :
    (∃ r t, p s = .ok r t ∧ runCommand p s = .next (t.respond (okResult r))) ∨
    (∃ e t, p s = .error e t ∧ runCommand p s = .next (takeError e t)) := by
  cases h : p s with
  | ok r t => exact .inl ⟨r, t, rfl, runCommand_of_ok h⟩
  | error e t => exact .inr ⟨e, t, rfl, runCommand_of_error h⟩

end Sys2Proof.Machine
end

