-- ==== Sys2Proof/Laws/Play.lean ====
section
/-! SUPPORT. Bus sequences: how they compose, that they see and change the bus part of the state alone, and that RunSeq
is one. -/

namespace Sys2Proof.Machine

/-! ### The bus part of the state -/

/-- Two states that look the same to the bus. -/
structure SameBus (s t : State) : Prop where
  addr     : t.addr = s.addr
  bus      : t.bus = s.bus
  revTrace : t.revTrace = s.revTrace
  revPast  : t.revPast = s.revPast

theorem SameBus.refl (s : State) : SameBus s s := ⟨rfl, rfl, rfl, rfl⟩

theorem SameBus.history {s t : State} (h : SameBus s t) : t.history = s.history := by
  simp [State.history, h.revTrace, h.revPast]

/-- A state with the bus part of another. -/
def withBus (s u : State) : State := { s with addr := u.addr, bus := u.bus, revTrace := u.revTrace }

@[simp] theorem withBus_phase (s u : State) : (withBus s u).phase = s.phase := rfl
@[simp] theorem withBus_fault (s u : State) : (withBus s u).fault = s.fault := rfl
@[simp] theorem withBus_hdr (s u : State) : (withBus s u).hdr = s.hdr := rfl
@[simp] theorem withBus_drv (s u : State) : (withBus s u).drv = s.drv := rfl
@[simp] theorem withBus_rd (s u : State) : (withBus s u).rd = s.rd := rfl
@[simp] theorem withBus_addr (s u : State) : (withBus s u).addr = u.addr := rfl
@[simp] theorem withBus_revTrace (s u : State) : (withBus s u).revTrace = u.revTrace := rfl
@[simp] theorem withBus_revOut (s u : State) : (withBus s u).revOut = s.revOut := rfl
@[simp] theorem withBus_input (s u : State) : (withBus s u).input = s.input := rfl
@[simp] theorem withBus_revResults (s u : State) : (withBus s u).revResults = s.revResults := rfl
@[simp] theorem withBus_host (s u : State) : (withBus s u).host = s.host := rfl
@[simp] theorem withBus_bus (s u : State) : (withBus s u).bus = u.bus := rfl
@[simp] theorem withBus_revPast (s u : State) : (withBus s u).revPast = s.revPast := rfl

/-! ### What the primitives see -/

/-- A procedure that sees and changes the bus part of the state alone: from two states that look the same to the bus it
has the same outcome and leaves the same bus part, and it leaves the rest of each as it was. -/
def BusOnly {α : Type} (p : Proc α) : Prop :=
  ∀ s s', SameBus s s' →
    (∀ a t, p s = .ok a t → SameBus t (withBus s' t) ∧ p s' = .ok a (withBus s' t)) ∧
    (∀ e t, p s = .error e t → SameBus t (withBus s' t) ∧ p s' = .error e (withBus s' t))

variable {α β : Type}

theorem busOnly_pure (a : α) : BusOnly (pure a : Proc α) := by
  intro s s' h
  refine ⟨fun b t ht => ?_, fun e t ht => by cases ht⟩
  cases ht
  have : withBus s' s = s' := by simp [withBus, ← h.addr, ← h.bus, ← h.revTrace]
  rw [this]
  exact ⟨h, rfl⟩

theorem busOnly_bind {p : Proc α} {f : α → Proc β} (hp : BusOnly p) (hf : ∀ a, BusOnly (f a)) : BusOnly (p >>= f) := by
  intro s s' h
  refine ⟨fun b t ht => ?_, fun e t ht => ?_⟩
  · obtain ⟨a, u, hu, hfu⟩ := bind_eq_ok.mp ht
    obtain ⟨hs, hps⟩ := (hp s s' h).1 a u hu
    obtain ⟨hs₂, hfs⟩ := (hf a u (withBus s' u) hs).1 b t hfu
    exact ⟨hs₂, bind_eq_ok.mpr ⟨a, _, hps, hfs⟩⟩
  · rcases bind_eq_error.mp ht with hu | ⟨a, u, hu, hfu⟩
    · obtain ⟨hs, hps⟩ := (hp s s' h).2 e t hu
      exact ⟨hs, bind_eq_error.mpr (.inl hps)⟩
    · obtain ⟨hs, hps⟩ := (hp s s' h).1 a u hu
      obtain ⟨hs₂, hfs⟩ := (hf a u (withBus s' u) hs).2 e t hfu
      exact ⟨hs₂, bind_eq_error.mpr (.inr ⟨a, _, hps, hfs⟩)⟩

theorem busOnly_busSetAddr (a : Addr) : BusOnly (busSetAddr a) := by
  intro s s' h
  refine ⟨fun b t ht => ?_, fun e t ht => by cases ht⟩
  cases ht
  exact ⟨⟨rfl, rfl, rfl, h.revPast⟩, by simp [withBus, State.record, h.bus, h.revTrace]⟩

theorem busOnly_settleWait : BusOnly settleWait := by
  intro s s' h
  refine ⟨fun b t ht => ?_, fun e t ht => by cases ht⟩
  cases ht
  exact ⟨⟨rfl, rfl, rfl, h.revPast⟩, by simp [withBus, State.record, h.bus, h.revTrace, h.addr]⟩

theorem busOnly_busRead : BusOnly busRead := by
  intro s s' h
  cases ha : s.addr with
  | none =>
    have hs : withBus s' s = s' := by simp [withBus, ← h.addr, ← h.bus, ← h.revTrace]
    rw [busRead_unset ha, busRead_unset (h.addr.trans ha)]
    refine ⟨fun b t ht => (by cases ht), fun e t ht => ?_⟩
    cases ht
    exact hs.symm ▸ ⟨h, rfl⟩
  | some a =>
    rw [busRead_at ha, busRead_at (h.addr.trans ha), h.bus, h.history]
    rcases s.bus.read s.history a with ⟨v | _, side⟩
    · refine ⟨fun b t ht => ?_, fun e t ht => by cases ht⟩
      cases ht
      exact ⟨⟨rfl, rfl, rfl, h.revPast⟩, by simp [withBus, afterRequest, State.record, h.revTrace, h.addr]⟩
    · refine ⟨fun b t ht => (by cases ht), fun e t ht => ?_⟩
      cases ht
      exact ⟨⟨rfl, rfl, rfl, h.revPast⟩, by simp [withBus, afterRequest, State.record, h.revTrace, h.addr]⟩

theorem busOnly_busWrite (v : Byte) : BusOnly (busWrite v) := by
  intro s s' h
  cases ha : s.addr with
  | none =>
    have hs : withBus s' s = s' := by simp [withBus, ← h.addr, ← h.bus, ← h.revTrace]
    rw [busWrite_unset ha, busWrite_unset (h.addr.trans ha)]
    refine ⟨fun b t ht => (by cases ht), fun e t ht => ?_⟩
    cases ht
    exact hs.symm ▸ ⟨h, rfl⟩
  | some a =>
    rw [busWrite_at ha, busWrite_at (h.addr.trans ha), h.bus, h.history]
    rcases s.bus.write s.history a v with ⟨_ | _, side⟩
    · refine ⟨fun b t ht => ?_, fun e t ht => by cases ht⟩
      cases ht
      exact ⟨⟨rfl, rfl, rfl, h.revPast⟩, by simp [withBus, afterRequest, State.record, h.revTrace, h.addr]⟩
    · refine ⟨fun b t ht => (by cases ht), fun e t ht => ?_⟩
      cases ht
      exact ⟨⟨rfl, rfl, rfl, h.revPast⟩, by simp [withBus, afterRequest, State.record, h.revTrace, h.addr]⟩

theorem busOnly_memRead (a : Addr) : BusOnly (memRead a) :=
  busOnly_bind (busOnly_busSetAddr a) fun _ => busOnly_busRead

theorem busOnly_memWrite (a : Addr) (v : Byte) : BusOnly (memWrite a v) :=
  busOnly_bind (busOnly_busSetAddr a) fun _ => busOnly_busWrite v

/-- A bus sequence sees and changes the bus part of the state alone. -/
theorem busOnly_play (ops : List BusOp) : BusOnly (play ops) := by
  induction ops with
  | nil => exact busOnly_pure []
  | cons op ops ih =>
    cases op with
    | setAddr a => exact busOnly_bind (busOnly_busSetAddr a) fun _ => ih
    | read => exact busOnly_bind busOnly_busRead fun v => busOnly_bind ih fun vs => busOnly_pure _
    | write v => exact busOnly_bind (busOnly_busWrite v) fun _ => ih
    | wait => exact busOnly_bind busOnly_settleWait fun _ => ih

/-- What a bus-only procedure returns with, on the state it ran on. -/
theorem BusOnly.ok_frame {p : Proc α} (hp : BusOnly p) {s t : State} {a : α} (h : p s = .ok a t) : t = withBus s t := by
  have := ((hp s s (SameBus.refl s)).1 a t h).2
  rw [h] at this
  injection this

theorem BusOnly.error_frame {p : Proc α} (hp : BusOnly p) {s t : State} {e : Raised} (h : p s = .error e t) :
    t = withBus s t := by
  have := ((hp s s (SameBus.refl s)).2 e t h).2
  rw [h] at this
  injection this

/-- A bus-only procedure on a state that looks the same to the bus. -/
theorem BusOnly.ok_transfer {p : Proc α} (hp : BusOnly p) {s s' t : State} {a : α} (hs : SameBus s s')
    (h : p s = .ok a t) : p s' = .ok a (withBus s' t) := ((hp s s' hs).1 a t h).2

theorem BusOnly.error_transfer {p : Proc α} (hp : BusOnly p) {s s' t : State} {e : Raised} (hs : SameBus s s')
    (h : p s = .error e t) : p s' = .error e (withBus s' t) := ((hp s s' hs).2 e t h).2

theorem sameBus_withBus {s' t : State} (hp : t.revPast = s'.revPast) : SameBus t (withBus s' t) :=
  ⟨rfl, rfl, rfl, hp.symm⟩

/-! ### Composing sequences -/

theorem play_append_ok {xs ys : List BusOp} {s t : State} {bs : List Byte} :
    play (xs ++ ys) s = .ok bs t ↔
      ∃ b₁ u b₂, play xs s = .ok b₁ u ∧ play ys u = .ok b₂ t ∧ bs = b₁ ++ b₂ := by
  induction xs generalizing s bs with
  | nil => simp [play]
  | cons op xs ih =>
    cases op with
    | setAddr a =>
      simp only [List.cons_append, play, bind_eq_ok]
      constructor
      · rintro ⟨_, u, hu, h⟩
        obtain ⟨b₁, w, b₂, h₁, h₂, rfl⟩ := ih.mp h
        exact ⟨b₁, w, b₂, ⟨_, u, hu, h₁⟩, h₂, rfl⟩
      · rintro ⟨b₁, w, b₂, ⟨_, u, hu, h₁⟩, h₂, rfl⟩
        exact ⟨_, u, hu, ih.mpr ⟨b₁, w, b₂, h₁, h₂, rfl⟩⟩
    | wait =>
      simp only [List.cons_append, play, bind_eq_ok]
      constructor
      · rintro ⟨_, u, hu, h⟩
        obtain ⟨b₁, w, b₂, h₁, h₂, rfl⟩ := ih.mp h
        exact ⟨b₁, w, b₂, ⟨_, u, hu, h₁⟩, h₂, rfl⟩
      · rintro ⟨b₁, w, b₂, ⟨_, u, hu, h₁⟩, h₂, rfl⟩
        exact ⟨_, u, hu, ih.mpr ⟨b₁, w, b₂, h₁, h₂, rfl⟩⟩
    | write v =>
      simp only [List.cons_append, play, bind_eq_ok]
      constructor
      · rintro ⟨_, u, hu, h⟩
        obtain ⟨b₁, w, b₂, h₁, h₂, rfl⟩ := ih.mp h
        exact ⟨b₁, w, b₂, ⟨_, u, hu, h₁⟩, h₂, rfl⟩
      · rintro ⟨b₁, w, b₂, ⟨_, u, hu, h₁⟩, h₂, rfl⟩
        exact ⟨_, u, hu, ih.mpr ⟨b₁, w, b₂, h₁, h₂, rfl⟩⟩
    | read =>
      simp only [List.cons_append, play, bind_eq_ok, pure_apply, EStateM.Result.ok.injEq]
      constructor
      · rintro ⟨v, u, hu, vs, w, h, rfl, rfl⟩
        obtain ⟨b₁, x, b₂, h₁, h₂, rfl⟩ := ih.mp h
        exact ⟨v :: b₁, x, b₂, ⟨v, u, hu, b₁, x, h₁, rfl, rfl⟩, h₂, rfl⟩
      · rintro ⟨_, x, b₂, ⟨v, u, hu, vs, w, h₁, rfl, rfl⟩, h₂, rfl⟩
        exact ⟨v, u, hu, vs ++ b₂, t, ih.mpr ⟨vs, w, b₂, h₁, h₂, rfl⟩, rfl, rfl⟩

theorem play_append_error {xs ys : List BusOp} {s t : State} {e : Raised} :
    play (xs ++ ys) s = .error e t ↔
      play xs s = .error e t ∨ ∃ b₁ u, play xs s = .ok b₁ u ∧ play ys u = .error e t := by
  induction xs generalizing s with
  | nil => simp [play]
  | cons op xs ih =>
    cases op with
    | read =>
      simp only [List.cons_append, play, bind_eq_ok, bind_eq_error, pure_apply, EStateM.Result.ok.injEq, ih]
      constructor
      · rintro (h | ⟨v, u, hu, (h | ⟨b₁, w, h₁, h₂⟩) | ⟨_, _, _, h⟩⟩)
        · exact .inl (.inl h)
        · exact .inl (.inr ⟨v, u, hu, .inl h⟩)
        · exact .inr ⟨v :: b₁, w, ⟨v, u, hu, b₁, w, h₁, rfl, rfl⟩, h₂⟩
        · cases h
      · rintro ((h | ⟨v, u, hu, h | ⟨_, _, _, h⟩⟩) | ⟨_, w, ⟨v, u, hu, vs, x, h₁, rfl, rfl⟩, h₂⟩)
        · exact .inl h
        · exact .inr ⟨v, u, hu, .inl (.inl h)⟩
        · cases h
        · exact .inr ⟨v, u, hu, .inl (.inr ⟨vs, _, h₁, h₂⟩)⟩
    | _ =>
      simp only [List.cons_append, play, bind_eq_ok, bind_eq_error, ih]
      constructor
      · rintro (h | ⟨v, u, hu, h | ⟨b₁, w, h₁, h₂⟩⟩)
        · exact .inl (.inl h)
        · exact .inl (.inr ⟨v, u, hu, h⟩)
        · exact .inr ⟨b₁, w, ⟨v, u, hu, h₁⟩, h₂⟩
      · rintro ((h | ⟨v, u, hu, h⟩) | ⟨b₁, w, ⟨v, u, hu, h₁⟩, h₂⟩)
        · exact .inl h
        · exact .inr ⟨v, u, hu, .inl h⟩
        · exact .inr ⟨v, u, hu, .inr ⟨b₁, w, h₁, h₂⟩⟩

/-- The read of one address. -/
theorem play_readOps {a : Addr} {s t : State} {bs : List Byte} :
    play (readOps a) s = .ok bs t ↔ ∃ v, memRead a s = .ok v t ∧ bs = [v] := by
  simp only [readOps, play, memRead, bind_eq_ok, pure_apply, EStateM.Result.ok.injEq]
  constructor
  · rintro ⟨_, u, hu, v, w, hv, _, _, ⟨rfl, rfl⟩, rfl, rfl⟩
    exact ⟨v, ⟨_, u, hu, hv⟩, rfl⟩
  · rintro ⟨v, ⟨_, u, hu, hv⟩, rfl⟩
    exact ⟨_, u, hu, v, t, hv, _, _, ⟨rfl, rfl⟩, rfl, rfl⟩

/-- RunSeq is the bus sequence of its writes (41_driver.md R180). -/
theorem play_seqOps_ok {seq : List (Addr × Byte)} {s t : State} {bs : List Byte}
    (h : play (seqOps seq) s = .ok bs t) : bs = [] ∧ runSeq seq s = .ok () t := by
  induction seq generalizing s bs with
  | nil =>
    cases h
    exact ⟨rfl, rfl⟩
  | cons p seq ih =>
    have h : play (writeOps p.1 p.2 ++ seqOps seq) s = .ok bs t := h
    obtain ⟨b₁, u, b₂, h₁, h₂, rfl⟩ := play_append_ok.mp h
    obtain ⟨rfl, hr⟩ := ih h₂
    simp only [writeOps, play, bind_eq_ok, pure_apply, EStateM.Result.ok.injEq] at h₁
    obtain ⟨_, w, hw, _, x, hx, rfl, rfl⟩ := h₁
    exact ⟨rfl, bind_eq_ok.mpr ⟨(), _, bind_eq_ok.mpr ⟨_, w, hw, hx⟩, hr⟩⟩

theorem play_seqOps_error {seq : List (Addr × Byte)} {s t : State} {e : Raised}
    (h : play (seqOps seq) s = .error e t) : runSeq seq s = .error e t := by
  induction seq generalizing s with
  | nil => cases h
  | cons p seq ih =>
    have h : play (writeOps p.1 p.2 ++ seqOps seq) s = .error e t := h
    rcases play_append_error.mp h with h₁ | ⟨b₁, u, h₁, h₂⟩
    · simp only [writeOps, play, bind_eq_error, pure_apply] at h₁
      rcases h₁ with h₁ | ⟨_, w, hw, h₁ | ⟨_, _, _, h₁⟩⟩
      · exact bind_eq_error.mpr (.inl (bind_eq_error.mpr (.inl h₁)))
      · exact bind_eq_error.mpr (.inl (bind_eq_error.mpr (.inr ⟨_, w, hw, h₁⟩)))
      · cases h₁
    · simp only [writeOps, play, bind_eq_ok, pure_apply, EStateM.Result.ok.injEq] at h₁
      obtain ⟨_, w, hw, _, x, hx, _, rfl⟩ := h₁
      exact bind_eq_error.mpr (.inr ⟨(), _, bind_eq_ok.mpr ⟨_, w, hw, hx⟩, ih h₂⟩)

end Sys2Proof.Machine
end

