-- ==== Sys2Proof/Laws/Driver.lean ====
section
/-! SUPPORT. What the driver's operations do, said once: in terms of the bus sequences of their writes. -/

namespace Sys2Proof.Machine

/-! ### The register tables in arithmetic -/

theorem bankField_ofNat (n lo len : Nat) (hn : n < 2 ^ 16) :
    bankField (BitVec.ofNat 16 n) lo len = BitVec.ofNat 8 (n / 2 ^ lo % 2 ^ len) := by
  apply BitVec.eq_of_toNat_eq
  have hn' : n % 65536 = n := Nat.mod_eq_of_lt hn
  simp [bankField, BitVec.extractLsb'_toNat, Nat.shiftRight_eq_div_pow, hn']

theorem enableSeq_eq (f : Family) : enableSeq f = ramEnableWrites f 0x0A := by
  cases f <;> rfl

theorem disableSeq_eq (f : Family) : disableSeq f = ramEnableWrites f 0x00 := by
  cases f <;> rfl

theorem romBankSeq_eq {f : Family} {n banks : Nat} (hn : n < params.famMaxRomBanks f) :
    romBankSeq f (BitVec.ofNat 16 n) banks = romSelectWrites f n banks := by
  have h16 : n < 2 ^ 16 := by
    have : params.famMaxRomBanks f ≤ 512 := by cases f <;> decide
    omega
  cases f <;> simp [romBankSeq, romSelectWrites, bankField_ofNat _ _ _ h16, params]

theorem ramBankSeq_eq {f : Family} {n : Nat} (hn : n < params.famMaxRamBanks f) :
    ramBankSeq f (BitVec.ofNat 16 n) = ramSelectWrites f n := by
  have h16 : n < 2 ^ 16 := by
    have : params.famMaxRamBanks f ≤ 16 := by cases f <;> decide
    omega
  cases f <;> simp [ramBankSeq, ramSelectWrites, bankField_ofNat _ _ _ h16, params]

/-! ### The operations -/

/-- A driver operation that runs a sequence and then writes the mirror: what it does when the sequence is played. -/
theorem runSeq_then_ok {seq : List (Addr × Byte)} {f : Driver → Driver} {s t : State} {bs : List Byte}
    (h : play (seqOps seq) s = .ok bs t) :
    (do runSeq seq; modifyDriver f : Proc Unit) s = .ok () { t with drv := f s.drv } := by
  have hr := (play_seqOps_ok h).2
  have hf := (busOnly_play _).ok_frame h
  have hd : t.drv = s.drv := by rw [hf, withBus_drv]
  rw [bind_of_ok hr, ← hd]
  rfl

theorem runSeq_then_error {seq : List (Addr × Byte)} {f : Driver → Driver} {s t : State} {e : Raised}
    (h : play (seqOps seq) s = .error e t) :
    (do runSeq seq; modifyDriver f : Proc Unit) s = .error e t :=
  bind_of_error (play_seqOps_error h)

/-- A bus sequence raises BusError and nothing else, unless it accesses the bus before an address is set; the sequences
of register writes set one first. -/
theorem runSeq_error {seq : List (Addr × Byte)} {s t : State} {e : Raised} (h : runSeq seq s = .error e t) :
    e = ⟨.busError, 0⟩ := by
  induction seq generalizing s with
  | nil => cases h
  | cons p seq ih =>
    rcases bind_eq_error.mp h with h | ⟨_, u, _, h⟩
    · rcases memWrite_cases p.1 p.2 s with ⟨side, _, hw⟩ | ⟨side, _, hw⟩
      · rw [hw] at h; cases h
      · rw [hw] at h; cases h; rfl
    · exact ih h

theorem selectRomOp_refused {h : Header} {n : Nat} (hn : limRom h ≤ substituteBank n) :
    selectRomOp h n = raise .unsupportedOperation := by
  simp [selectRomOp, hn]

/-- SelectRomOp below the limit (41_driver.md R179): the writes in arithmetic, then the mirror. -/
theorem selectRomOp_allowed {h : Header} {n : Nat} (hn : substituteBank n < limRom h) :
    selectRomOp h n = (do
      runSeq (romSelectWrites (family h) (substituteBank n) (romBanks h))
      modifyDriver fun d => { d with romBank := BitVec.ofNat 16 (substituteBank n) }) := by
  have hf : substituteBank n < params.famMaxRomBanks (family h) := Nat.lt_of_lt_of_le hn (Nat.min_le_left ..)
  have hnot : ¬ limRom h ≤ substituteBank n := by omega
  simp only [selectRomOp, hnot, if_false, romBankSeq_eq hf]

theorem selectRamOp_refused {h : Header} {n : Nat} (hn : hasRamBanking (family h) = false ∨ limRam h ≤ n) :
    selectRamOp h n = raise .unsupportedOperation := by
  unfold selectRamOp
  rcases hn with hn | hn
  · rw [if_pos hn]
  · rw [if_pos hn, ite_self]

/-- SelectRamOp below the limit on a family with RAM banking (41_driver.md R179). -/
theorem selectRamOp_allowed {h : Header} {n : Nat} (hb : hasRamBanking (family h) = true) (hn : n < limRam h) :
    selectRamOp h n = (do
      runSeq (ramSelectWrites (family h) n)
      modifyDriver fun d => { d with ramBank := BitVec.ofNat 16 n }) := by
  have hf : n < params.famMaxRamBanks (family h) := Nat.lt_of_lt_of_le hn (Nat.min_le_left ..)
  have hnot : ¬ limRam h ≤ n := by omega
  simp only [selectRamOp, hb, hnot, if_false, ramBankSeq_eq hf, Bool.true_eq_false]

/-! ### The host pass-through -/

/-- What the checks of READ_BYTE can answer; they leave the state as it is (41_driver.md R177). -/
theorem readByteAddr_cases (s : State) :
    (s.addr = none ∧ readByteAddr s = .error ⟨.addressUnset, 0⟩ s) ∨
    (∃ a, s.addr = some a ∧ isRamWindow a = true ∧ s.drv.ramEnabled = false ∧
      readByteAddr s = .error ⟨.ramNotEnabled, 0⟩ s) ∨
    (∃ a, s.addr = some a ∧ (isRamWindow a = true → s.drv.ramEnabled = true) ∧ readByteAddr s = .ok a s) := by
  unfold readByteAddr
  cases ha : s.addr with
  | none => exact .inl ⟨rfl, rfl⟩
  | some a =>
    cases hw : isRamWindow a <;> cases hd : s.drv.ramEnabled <;> simp [hw]

/-- What the checks of WRITE_BYTE can answer, in their order; they leave the state as it is (41_driver.md R178). -/
theorem writeByteAddr_cases (s : State) :
    (s.addr = none ∧ writeByteAddr s = .error ⟨.addressUnset, 0⟩ s) ∨
    (∃ a, s.addr = some a ∧ isControlAddr a = true ∧ writeByteAddr s = .error ⟨.controlWriteRefused, 0⟩ s) ∨
    (∃ a, s.addr = some a ∧ isControlAddr a = false ∧ isRamWindow a = true ∧ s.drv.ramEnabled = false ∧
      writeByteAddr s = .error ⟨.ramNotEnabled, 0⟩ s) ∨
    (∃ a, s.addr = some a ∧ isControlAddr a = false ∧ (isRamWindow a = true → s.drv.ramEnabled = true) ∧
      writeByteAddr s = .ok a s) := by
  unfold writeByteAddr
  cases ha : s.addr with
  | none => exact .inl ⟨rfl, rfl⟩
  | some a =>
    cases hc : isControlAddr a <;> cases hw : isRamWindow a <;> cases hd : s.drv.ramEnabled <;> simp [hc, hw]

/-- What a settled write at an address can do: a wait, the write, and a second wait only if it succeeded (20_memory.md
R76, 70_reset_and_hazards.md R309). -/
theorem settledWrite_cases {s : State} {a : Addr} (ha : s.addr = some a) (v : Byte) :
    (∃ side, (s.record .wait).bus.write (s.record .wait).history a v = (.ok, side) ∧
      settledWrite v s = .ok () ((afterRequest (s.record .wait) (.write a v .ok) side).record .wait)) ∨
    (∃ side, (s.record .wait).bus.write (s.record .wait).history a v = (.err, side) ∧
      settledWrite v s = .error ⟨.busError, 0⟩ (afterRequest (s.record .wait) (.write a v .err) side)) := by
  have hs : settledWrite v = (settleWait >>= fun _ => busWrite v >>= fun _ => settleWait) := rfl
  have hw := busWrite_at (s := s.record .wait) ha v
  rw [hs, bind_of_ok (settleWait_apply s)]
  rcases hb : (s.record .wait).bus.write (s.record .wait).history a v with ⟨_ | _, side⟩ <;> rw [hb] at hw
  · exact .inl ⟨side, rfl, bind_of_ok hw⟩
  · exact .inr ⟨side, rfl, bind_of_error hw⟩

/-! ### Relations the driver's operations keep -/

theorem keeps_settledWrite {R : State → State → Prop} (hR : BusSteady R) (v : Byte) : Keeps R (settledWrite v) :=
  keeps_bind hR.toSteady (keeps_settleWait hR) fun _ =>
    keeps_bind hR.toSteady (keeps_busWrite hR v) fun _ => keeps_settleWait hR

theorem keeps_runSeq {R : State → State → Prop} (hR : BusSteady R) (seq : List (Addr × Byte)) :
    Keeps R (runSeq seq) := by
  induction seq with
  | nil => exact keeps_pure hR.toSteady ()
  | cons p seq ih => exact keeps_bind hR.toSteady (keeps_memWrite hR p.1 p.2) fun _ => ih

theorem keeps_preWriteFix {R : State → State → Prop} (hR : BusSteady R) (f : Family) : Keeps R (preWriteFix f) := by
  cases f with
  | mbc1 => exact keeps_memWrite hR _ _
  | mbc2 => exact keeps_bind hR.toSteady (keeps_memRead hR _) fun _ => keeps_pure hR.toSteady ()
  | romOnly | mbc3 | mbc5 => exact keeps_pure hR.toSteady ()

theorem readByteAddr_stays (s : State) : stateAfter readByteAddr s = s := by
  rcases readByteAddr_cases s with ⟨_, h⟩ | ⟨_, _, _, _, h⟩ | ⟨_, _, _, h⟩ <;> simp [stateAfter, h]

theorem writeByteAddr_stays (s : State) : stateAfter writeByteAddr s = s := by
  rcases writeByteAddr_cases s with ⟨_, h⟩ | ⟨_, _, _, h⟩ | ⟨_, _, _, _, _, h⟩ | ⟨_, _, _, _, h⟩ <;>
    simp [stateAfter, h]

end Sys2Proof.Machine
end

