-- ==== Sys2Proof/Laws/Accessor.lean ====
section
/-! SUPPORT. The loops of the RAM accessor as bus sequences. -/

namespace Sys2Proof.Machine

/-! ### One byte and one bank of a dump -/

/-- The reads of n bytes of the RAM window from byte `first` on. -/
def windowReads (first n : Nat) : List BusOp :=
  (List.range n).flatMap fun i => readOps (BitVec.ofNat 16 (0xA000 + (first + i)))

theorem windowReads_succ (first n : Nat) :
    windowReads first (n + 1) = readOps (ramWindowAddr first) ++ windowReads (first + 1) n := by
  simp [windowReads, List.range_succ_eq_map, List.flatMap_map, Nat.add_assoc, Nat.add_comm 1, ramWindowAddr,
    ramWindowBase]

/-- A dump's loop over n bytes of the window, when its reads are played (43_ram_accessor.md R232). -/
theorem dumpBytes_ok (n : Nat) : ∀ {first moved : Nat} {s t : State} {bs : List Byte},
    play (windowReads first n) s = .ok bs t →
    bs.length = n ∧ forBytes dumpByte n first moved s = .ok () { t with revOut := bs.reverse ++ s.revOut } := by
  induction n with
  | zero =>
    intro first moved s t bs hp
    cases hp
    exact ⟨rfl, rfl⟩
  | succ n ih =>
    intro first moved s t bs hp
    rw [windowReads_succ] at hp
    obtain ⟨b₁, u, b₂, h₁, h₂, rfl⟩ := play_append_ok.mp hp
    obtain ⟨v, hv, rfl⟩ := play_readOps.mp h₁
    have hu := (busOnly_memRead _).ok_frame hv
    have hstep : dumpByte first s = .ok () { u with revOut := v :: u.revOut } := by
      show (memRead _ >>= _) s = _
      rw [bind_of_ok hv]
      rfl
    have hsame : SameBus u { u with revOut := v :: u.revOut } := ⟨rfl, rfl, rfl, rfl⟩
    obtain ⟨hlen, hloop⟩ := ih (first := first + 1) (moved := moved + 1) ((busOnly_play _).ok_transfer hsame h₂)
    have ht := (busOnly_play _).ok_frame h₂
    refine ⟨by simp [hlen], ?_⟩
    show (withMoved moved (dumpByte first) >>= fun _ => _) s = _
    rw [bind_of_ok (withMoved_eq_ok.mpr hstep), hloop, ht]
    have : u.revOut = s.revOut := by rw [hu]; rfl
    simp [withBus, this]

/-- The bank select of an accessor, when its writes are played and the bank is below its limit (43_ram_accessor.md
R233). -/
theorem selectForAccess_ok {h : Header} {b : Nat} {s t : State} {bs : List Byte}
    (hlim : needSelect h = true → b < limRam h) (hp : play (accessSelectOps h b) s = .ok bs t) :
    bs = [] ∧ selectForAccess h b s = .ok ()
      { t with drv := { s.drv with ramBank := if needSelect h then BitVec.ofNat 16 b else s.drv.ramBank } } := by
  unfold accessSelectOps at hp
  unfold selectForAccess
  by_cases hn : needSelect h = true
  · rw [if_pos hn] at hp ⊢
    have hb : hasRamBanking (family h) = true := by
      simp only [needSelect, Bool.and_eq_true] at hn
      exact hn.1
    refine ⟨(play_seqOps_ok hp).1, ?_⟩
    rw [selectRamOp_allowed hb (hlim hn), runSeq_then_ok hp]
    simp [hn]
  · rw [if_neg hn] at hp ⊢
    cases hp
    exact ⟨rfl, by simp [hn]⟩

/-- One bank of a dump (43_ram_accessor.md R232). -/
theorem dumpBank_ok {h : Header} {b : Nat} {s t : State} {bs : List Byte} (hlim : needSelect h = true → b < limRam h)
    (hp : play (dumpBankOps h b) s = .ok bs t) :
    bs.length = 0x2000 ∧ dumpBank h b s = .ok ()
      { t with
        drv := { s.drv with ramBank := if needSelect h then BitVec.ofNat 16 b else s.drv.ramBank }
        revOut := bs.reverse ++ s.revOut } := by
  obtain ⟨b₁, u, b₂, h₁, h₂, rfl⟩ := play_append_ok.mp hp
  obtain ⟨rfl, hsel⟩ := selectForAccess_ok hlim h₁
  have h₂ : play (windowReads 0 ramBankSize) u = .ok b₂ t := by
    simpa only [windowReads, Nat.zero_add, ramBankSize] using h₂
  have hu := (busOnly_play _).ok_frame h₁
  have ht := (busOnly_play _).ok_frame h₂
  have h₂' := (busOnly_play _).ok_transfer (s := u)
    (s' := { u with drv := { s.drv with ramBank := if needSelect h then BitVec.ofNat 16 b else s.drv.ramBank } })
    ⟨rfl, rfl, rfl, rfl⟩ h₂
  obtain ⟨hlen, hloop⟩ := dumpBytes_ok ramBankSize (moved := 0) h₂'
  refine ⟨by simpa [ramBankSize] using hlen, ?_⟩
  unfold dumpBank
  rw [bind_of_ok hsel, hloop, ht]
  have : u.revOut = s.revOut := by rw [hu]; rfl
  simp [withBus, this]

/-- The RAM bank mirror after the banks first to first + n - 1. -/
def mirrorAfter (h : Header) (b : Bank) (first n : Nat) : Bank :=
  if needSelect h ∧ 0 < n then BitVec.ofNat 16 (first + n - 1) else b

theorem mirrorAfter_succ (h : Header) (b : Bank) (first n : Nat) :
    mirrorAfter h (if needSelect h then BitVec.ofNat 16 first else b) (first + 1) n = mirrorAfter h b first (n + 1) := by
  unfold mirrorAfter
  by_cases hn : needSelect h = true
  · by_cases h0 : 0 < n
    · simp [hn, h0, Nat.add_assoc, Nat.add_comm 1]
    · have : n = 0 := by omega
      subst this
      simp [hn]
  · simp [hn]

theorem mirrorAfter_zero (h : Header) (b : Bank) (n : Nat) : mirrorAfter h b 0 n = ramBankAfter h b n := by
  simp [mirrorAfter, ramBankAfter]

theorem flatMap_range_succ {α : Type} (f : Nat → List α) (first n : Nat) :
    ((List.range (n + 1)).flatMap fun j => f (first + j)) =
      f first ++ (List.range n).flatMap fun j => f (first + 1 + j) := by
  simp [List.range_succ_eq_map, List.flatMap_map, Nat.add_assoc, Nat.add_comm 1]

/-- The banks of a dump (43_ram_accessor.md R232). -/
theorem dumpBanks_ok {h : Header} (n : Nat) : ∀ {first : Nat} {s t : State} {bs : List Byte},
    (needSelect h = true → first + n ≤ limRam h) →
    play ((List.range n).flatMap fun j => dumpBankOps h (first + j)) s = .ok bs t →
    bs.length = n * 0x2000 ∧ forBanks ramBankSize (dumpBank h) n first s = .ok ()
      { t with
        drv := { s.drv with ramBank := mirrorAfter h s.drv.ramBank first n }
        revOut := bs.reverse ++ s.revOut } := by
  induction n with
  | zero =>
    intro first s t bs _ hp
    cases hp
    exact ⟨rfl, by simp [forBanks, mirrorAfter]⟩
  | succ n ih =>
    intro first s t bs hlim hp
    rw [flatMap_range_succ] at hp
    obtain ⟨b₁, u, b₂, h₁, h₂, rfl⟩ := play_append_ok.mp hp
    obtain ⟨hlen₁, hstep⟩ := dumpBank_ok (fun hn => by have := hlim hn; omega) h₁
    have hu := (busOnly_play _).ok_frame h₁
    have ht := (busOnly_play _).ok_frame h₂
    have h₂' := (busOnly_play _).ok_transfer (s := u)
      (s' := { u with
        drv := { s.drv with ramBank := if needSelect h then BitVec.ofNat 16 first else s.drv.ramBank }
        revOut := b₁.reverse ++ s.revOut })
      ⟨rfl, rfl, rfl, rfl⟩ h₂
    obtain ⟨hlen, hloop⟩ := ih (fun hn => by have := hlim hn; omega) h₂'
    refine ⟨by simp [hlen, hlen₁]; omega, ?_⟩
    show (withMoved (first * ramBankSize) (dumpBank h first) >>= fun _ => _) s = _
    rw [bind_of_ok (withMoved_eq_ok.mpr hstep), hloop, ht]
    simp [withBus, ← mirrorAfter_succ]

/-! ### One byte and one bank of a restore -/

/-- A settled write at an address, played. -/
theorem play_settledWriteOps {a : Addr} {v : Byte} {s t : State} {bs : List Byte} :
    play (settledWriteOps a v) s = .ok bs t ↔ bs = [] ∧ (do busSetAddr a; settledWrite v : Proc Unit) s = .ok () t := by
  simp only [settledWriteOps, play, settledWrite, bind_eq_ok, pure_apply, EStateM.Result.ok.injEq]
  constructor
  · rintro ⟨_, u, hu, _, w, hw, _, x, hx, _, y, hy, rfl, rfl⟩
    exact ⟨rfl, _, u, hu, _, w, hw, _, x, hx, hy⟩
  · rintro ⟨rfl, _, u, hu, _, w, hw, _, x, hx, hy⟩
    exact ⟨_, u, hu, _, w, hw, _, x, hx, _, t, hy, rfl, rfl⟩

/-- The settled writes of n bytes to the RAM window from byte `first` on. -/
def windowWrites (value : Nat → Byte) (first n : Nat) : List BusOp :=
  (List.range n).flatMap fun i => settledWriteOps (BitVec.ofNat 16 (0xA000 + (first + i))) (value (first + i))

/-- A restore's loop over n bytes of the window, when its settled writes are played (43_ram_accessor.md R237). -/
theorem restoreBytes_ok {chunk : List Byte} (n : Nat) : ∀ {first moved : Nat} {s t : State} {bs : List Byte},
    play (windowWrites (restoreValue chunk) first n) s = .ok bs t →
    bs = [] ∧ forBytes (restoreByte chunk) n first moved s = .ok () t := by
  induction n with
  | zero =>
    intro first moved s t bs hp
    cases hp
    exact ⟨rfl, rfl⟩
  | succ n ih =>
    intro first moved s t bs hp
    rw [windowWrites,
      flatMap_range_succ (fun k => settledWriteOps (BitVec.ofNat 16 (0xA000 + k)) (restoreValue chunk k))] at hp
    obtain ⟨b₁, u, b₂, h₁, h₂, rfl⟩ := play_append_ok.mp hp
    obtain ⟨rfl, hstep⟩ := play_settledWriteOps.mp h₁
    obtain ⟨rfl, hloop⟩ := ih (first := first + 1) (moved := moved + 1) h₂
    refine ⟨rfl, ?_⟩
    have hstep : restoreByte chunk first s = .ok () u := hstep
    show (withMoved moved (restoreByte chunk first) >>= fun _ => _) s = _
    rw [bind_of_ok (withMoved_eq_ok.mpr hstep), hloop]

/-- The chunk of bank b pads as the whole input does (43_ram_accessor.md R238). -/
theorem restoreValue_chunk {input : List Byte} {b i : Nat} (hi : i < 0x2000) :
    restoreValue ((input.drop (b * 0x2000)).take 0x2000) i = padded input (b * 0x2000 + i) := by
  unfold restoreValue padded
  rw [List.getD_eq_getElem?_getD, List.getD_eq_getElem?_getD, List.getElem?_take_of_lt hi, List.getElem?_drop]
  rfl

/-- TakeInput where the source is long enough or only ends. -/
theorem takeInput_ok {k : Nat} {s : State} (h : k ≤ s.input.bytes.length ∨ s.input.fails = false) :
    takeInput k s = .ok (s.input.bytes.take k) { s with input := { s.input with bytes := s.input.bytes.drop k } } := by
  rcases takeInput_cases k s with ⟨_, hs⟩ | ⟨hlt, hf, _⟩ | ⟨hlt, _, hs⟩
  · exact hs
  · rcases h with h | h
    · omega
    · rw [hf] at h; cases h
  · rw [hs, List.take_of_length_le (by omega), List.drop_of_length_le (by omega)]

/-- One bank of a restore, the input read up to it (43_ram_accessor.md R237). -/
theorem restoreBank_ok {h : Header} {input : List Byte} {b : Nat} {s t : State} {bs : List Byte}
    (hlim : needSelect h = true → b < limRam h) (hin : s.input.bytes = input.drop (b * 0x2000))
    (hok : (b + 1) * 0x2000 ≤ input.length ∨ s.input.fails = false)
    (hp : play (restoreBankOps h input b) s = .ok bs t) :
    bs = [] ∧ restoreBank h b s = .ok ()
      { t with
        drv := { s.drv with ramBank := if needSelect h then BitVec.ofNat 16 b else s.drv.ramBank }
        input := { s.input with bytes := input.drop ((b + 1) * 0x2000) } } := by
  obtain ⟨b₁, u, b₂, h₁, h₂, rfl⟩ := play_append_ok.mp hp
  obtain ⟨rfl, hsel⟩ := selectForAccess_ok hlim h₁
  have hu := (busOnly_play _).ok_frame h₁
  let d : Driver := { s.drv with ramBank := if needSelect h then BitVec.ofNat 16 b else s.drv.ramBank }
  have hui : u.input = s.input := by rw [hu]; rfl
  have htake : takeInput ramBankSize { u with drv := d } =
      .ok ((input.drop (b * 0x2000)).take 0x2000)
        { u with drv := d, input := { s.input with bytes := input.drop ((b + 1) * 0x2000) } } := by
    rw [takeInput_ok]
    · show EStateM.Result.ok (List.take 0x2000 u.input.bytes) _ = _
      rw [hui, hin]
      simp only [List.drop_drop, ramBankSize, Nat.add_mul, Nat.one_mul, Nat.add_comm]
    · show 0x2000 ≤ u.input.bytes.length ∨ u.input.fails = false
      rw [hui, hin, List.length_drop]
      rcases hok with hok | hok
      · exact .inl (by omega)
      · exact .inr hok
  have h₂ : play (windowWrites (restoreValue ((input.drop (b * 0x2000)).take 0x2000)) 0 ramBankSize) u =
      .ok b₂ t := by
    have hops : windowWrites (restoreValue ((input.drop (b * 0x2000)).take 0x2000)) 0 ramBankSize =
        (List.range 0x2000).flatMap fun i =>
          settledWriteOps (BitVec.ofNat 16 (0xA000 + i)) (padded input (b * 0x2000 + i)) := by
      unfold windowWrites
      refine List.flatMap_congr fun i hi => ?_
      rw [Nat.zero_add, restoreValue_chunk (List.mem_range.mp hi)]
    rw [hops]
    exact h₂
  have ht := (busOnly_play _).ok_frame h₂
  have h₂' := (busOnly_play _).ok_transfer (s := u)
    (s' := { u with drv := d, input := { s.input with bytes := input.drop ((b + 1) * 0x2000) } })
    ⟨rfl, rfl, rfl, rfl⟩ h₂
  obtain ⟨rfl, hloop⟩ := restoreBytes_ok ramBankSize (moved := 0) h₂'
  refine ⟨rfl, ?_⟩
  unfold restoreBank
  rw [bind_of_ok hsel, bind_of_ok htake, hloop, ht]
  rfl

/-- The banks of a restore (43_ram_accessor.md R237, R238). -/
theorem restoreBanks_ok {h : Header} {input : List Byte} (n : Nat) : ∀ {first : Nat} {s t : State} {bs : List Byte},
    (needSelect h = true → first + n ≤ limRam h) → s.input.bytes = input.drop (first * 0x2000) →
    ((first + n) * 0x2000 ≤ input.length ∨ s.input.fails = false) →
    play ((List.range n).flatMap fun j => restoreBankOps h input (first + j)) s = .ok bs t →
    bs = [] ∧ forBanks ramBankSize (restoreBank h) n first s = .ok ()
      { t with
        drv := { s.drv with ramBank := mirrorAfter h s.drv.ramBank first n }
        input := { s.input with bytes := input.drop ((first + n) * 0x2000) } } := by
  induction n with
  | zero =>
    intro first s t bs _ hin _ hp
    cases hp
    exact ⟨rfl, by simp [forBanks, mirrorAfter, ← hin]⟩
  | succ n ih =>
    intro first s t bs hlim hin hok hp
    rw [flatMap_range_succ] at hp
    obtain ⟨b₁, u, b₂, h₁, h₂, rfl⟩ := play_append_ok.mp hp
    have hok₁ : (first + 1) * 0x2000 ≤ input.length ∨ s.input.fails = false := by
      rcases hok with hl | hf
      · exact .inl (Nat.le_trans (Nat.mul_le_mul_right 0x2000 (by omega)) hl)
      · exact .inr hf
    have hok₂ : (first + 1 + n) * 0x2000 ≤ input.length ∨ s.input.fails = false := by
      rcases hok with hl | hf
      · exact .inl (Nat.le_trans (Nat.mul_le_mul_right 0x2000 (by omega)) hl)
      · exact .inr hf
    obtain ⟨rfl, hstep⟩ := restoreBank_ok (b := first) (fun hn => by have := hlim hn; omega) hin hok₁ h₁
    have ht := (busOnly_play _).ok_frame h₂
    let s₁ : State := { u with
        drv := { s.drv with ramBank := if needSelect h then BitVec.ofNat 16 first else s.drv.ramBank }
        input := { s.input with bytes := input.drop ((first + 1) * 0x2000) } }
    have h₂' := (busOnly_play _).ok_transfer (s := u) (s' := s₁) ⟨rfl, rfl, rfl, rfl⟩ h₂
    obtain ⟨rfl, hloop⟩ := ih (first := first + 1) (s := s₁) (fun hn => by have := hlim hn; omega) rfl hok₂ h₂'
    refine ⟨rfl, ?_⟩
    show (withMoved (first * ramBankSize) (restoreBank h first) >>= fun _ => _) s = _
    rw [bind_of_ok (withMoved_eq_ok.mpr hstep), hloop, ht]
    simp only [s₁, withBus, mirrorAfter_succ, Nat.add_assoc, Nat.add_comm 1]

/-! ### The rest of an accessor command -/

/-- The bank limit check returns exactly within the limit (43_ram_accessor.md R231). -/
theorem bankLimitCheck_ok {h : Header} (hl : bankLimitOk h) : bankLimitCheck h = pure () := by
  unfold bankLimitCheck
  by_cases hn : needSelect h = true
  · have : ¬ params.famMaxRamBanks (family h) < ramBanks h := by have := hl hn; omega
    simp [this]
  · simp [hn]

theorem bankLimitCheck_refused {h : Header} (hn : needSelect h = true)
    (hl : params.famMaxRamBanks (family h) < ramBanks h) : bankLimitCheck h = raise .unsupportedOperation := by
  simp [bankLimitCheck, hn, hl]

/-- Within the bank limit every bank an accessor selects is below lim_ram (43_ram_accessor.md R233). -/
theorem ramBanks_le_limRam {h : Header} (hl : bankLimitOk h) : needSelect h = true → 0 + ramBanks h ≤ limRam h :=
  fun hn => by
    have := hl hn
    unfold limRam
    omega

/-- The pre-write fix, when what it issues is played (30_encoding.md R115). -/
theorem preWriteFix_ok {f : Family} {s t : State} {bs : List Byte} (hp : play (fixOps f) s = .ok bs t) :
    preWriteFix f s = .ok () t := by
  cases f with
  | mbc1 =>
    obtain ⟨rfl, h⟩ := play_seqOps_ok (seq := [(params.modeAddr, params.modeRam)]) hp
    obtain ⟨_, u, hu, hr⟩ := bind_eq_ok.mp h
    cases hr
    exact hu
  | mbc2 =>
    obtain ⟨v, hv, rfl⟩ := play_readOps.mp hp
    have hv : memRead params.mbc2FixReadAddr s = .ok v t := hv
    show (memRead params.mbc2FixReadAddr >>= fun _ => pure ()) s = _
    rw [bind_of_ok hv]
    rfl
  | romOnly | mbc3 | mbc5 =>
    cases hp
    rfl

/-- EnableRamOp, when its writes are played (41_driver.md R179). -/
theorem enableRamOp_ok {f : Family} {s t : State} {bs : List Byte}
    (hp : play (seqOps (ramEnableWrites f 0x0A)) s = .ok bs t) :
    bs = [] ∧ enableRamOp f s = .ok () { t with drv := { s.drv with ramEnabled := true } } := by
  rw [← enableSeq_eq] at hp
  exact ⟨(play_seqOps_ok hp).1, runSeq_then_ok hp⟩

/-- DisableRamOp, when its writes are played (41_driver.md R179). -/
theorem disableRamOp_ok {f : Family} {s t : State} {bs : List Byte}
    (hp : play (seqOps (ramEnableWrites f 0x00)) s = .ok bs t) :
    bs = [] ∧ disableRamOp f s = .ok () { t with drv := { s.drv with ramEnabled := false } } := by
  rw [← disableSeq_eq] at hp
  exact ⟨(play_seqOps_ok hp).1, runSeq_then_ok hp⟩

/-- The body of a dump returns, when what it issues is played. -/
theorem ramDumpOp_returns {h : Header} {s t : State} {bs : List Byte} (hl : bankLimitOk h)
    (hp : play (dumpOps h) s = .ok bs t) : ∃ r u, ramDumpOp h s = .ok r u := by
  obtain ⟨_, v, _, hv, h₃, rfl⟩ := play_append_ok.mp hp
  obtain ⟨_, w, _, h₁, h₂, rfl⟩ := play_append_ok.mp hv
  let w' : State := { w with drv := { s.drv with ramEnabled := true } }
  have hbanks := (busOnly_play _).ok_transfer (s := w) (s' := w') ⟨rfl, rfl, rfl, rfl⟩ h₂
  have hpast : w.revPast = v.revPast := by rw [(busOnly_play _).ok_frame h₂]; rfl
  obtain ⟨x, hloop, hx⟩ : ∃ x, forBanks ramBankSize (dumpBank h) (ramBanks h) 0 w' = .ok () x ∧ SameBus v x :=
    ⟨_, (dumpBanks_ok (t := withBus w' v) _ (ramBanks_le_limRam hl) (by simpa only [Nat.zero_add] using hbanks)).2,
      ⟨rfl, rfl, rfl, hpast⟩⟩
  have hdis := (busOnly_play _).ok_transfer hx h₃
  have hlim : bankLimitCheck h s = .ok () s := by rw [bankLimitCheck_ok hl]; rfl
  exact ⟨_, _, (bind_of_ok hlim).trans ((bind_of_ok (enableRamOp_ok h₁).2).trans ((bind_of_ok hloop).trans
    ((bind_of_ok (withMoved_eq_ok.mpr (disableRamOp_ok hdis).2)).trans rfl)))⟩

end Sys2Proof.Machine
end

