-- ==== Sys2Proof/Laws/Memory.lean ====
section
/-! SUPPORT. The memories of the reference cartridge: a read after a write, and the canonical form. -/

namespace Sys2Proof.Machine

/-- Every listed address of a canonical memory lies above a bound that its first entry does. -/
theorem Memory.wf_tail {dflt : Nat → Byte} {c : Host.Cell} {m : Memory} (h : Memory.wf dflt (c :: m)) :
    Memory.wf dflt m :=
  ⟨(List.pairwise_cons.mp h.1).2, fun x hx => h.2 x (List.mem_cons_of_mem _ hx)⟩

/-- An address below every listed one reads as unlisted. -/
theorem Memory.read_of_lt {dflt : Nat → Byte} {m : Memory} {a : Nat} (h : ∀ c ∈ m, a < c.1) :
    Memory.read dflt m a = dflt a := by
  induction m with
  | nil => rfl
  | cons c m ih =>
    have hc := h c (List.mem_cons_self ..)
    have : a ≠ c.1 := by omega
    simp only [Memory.read, this, if_false]
    exact ih fun x hx => h x (List.mem_cons_of_mem _ hx)

/-- A write lists no address that was not listed but its own. -/
theorem Memory.mem_write {dflt : Nat → Byte} {m : Memory} {a : Nat} {v : Byte} {c : Host.Cell}
    (h : c ∈ Memory.write dflt m a v) : c ∈ m ∨ (c = (a, v) ∧ v ≠ dflt a) := by
  induction m with
  | nil =>
    unfold Memory.write at h
    split at h
    · simp at h
    · rename_i hv
      exact .inr ⟨List.mem_singleton.mp h, hv⟩
  | cons d m ih =>
    unfold Memory.write at h
    split at h
    · split at h
      · exact .inl h
      · rename_i hv
        rcases List.mem_cons.mp h with rfl | h
        · exact .inr ⟨rfl, hv⟩
        · exact .inl h
    · split at h
      · split at h
        · exact .inl (List.mem_cons_of_mem _ h)
        · rename_i hv
          rcases List.mem_cons.mp h with rfl | h
          · exact .inr ⟨rfl, hv⟩
          · exact .inl (List.mem_cons_of_mem _ h)
      · rcases List.mem_cons.mp h with rfl | h
        · exact .inl (List.mem_cons_self ..)
        · rcases ih h with h | h
          · exact .inl (List.mem_cons_of_mem _ h)
          · exact .inr h

/-- A write keeps the canonical form. -/
theorem Memory.write_wf {dflt : Nat → Byte} {m : Memory} (h : Memory.wf dflt m) (a : Nat) (v : Byte) :
    Memory.wf dflt (Memory.write dflt m a v) := by
  refine ⟨?_, fun c hc => ?_⟩
  · induction m with
    | nil =>
      unfold Memory.write
      split <;> simp
    | cons d m ih =>
      have hd := List.pairwise_cons.mp h.1
      have ht := Memory.wf_tail h
      unfold Memory.write
      split
      · rename_i had
        split
        · exact h.1
        · refine List.pairwise_cons.mpr ⟨fun x hx => ?_, h.1⟩
          rcases List.mem_cons.mp hx with rfl | hx
          · exact had
          · exact Nat.lt_trans had (hd.1 x hx)
      · rename_i hnot
        split
        · rename_i hab
          split
          · exact hd.2
          · exact List.pairwise_cons.mpr ⟨fun x hx => hab ▸ hd.1 x hx, hd.2⟩
        · rename_i hne
          refine List.pairwise_cons.mpr ⟨fun x hx => ?_, ih ht⟩
          rcases Memory.mem_write hx with hx | ⟨rfl, _⟩
          · exact hd.1 x hx
          · show d.1 < a
            omega
  · rcases Memory.mem_write hc with hc | ⟨rfl, hv⟩
    · exact h.2 c hc
    · exact hv

/-- What a byte reads as after a write. -/
theorem Memory.read_write {dflt : Nat → Byte} {m : Memory} (h : Memory.wf dflt m) (a b : Nat) (v : Byte) :
    Memory.read dflt (Memory.write dflt m a v) b = if b = a then v else Memory.read dflt m b := by
  induction m with
  | nil =>
    unfold Memory.write
    split
    · rename_i hv
      by_cases hb : b = a <;> simp [Memory.read, hb, hv]
    · simp [Memory.read]
  | cons d m ih =>
    have hd := List.pairwise_cons.mp h.1
    unfold Memory.write
    split
    · rename_i had
      have hlow : ∀ c ∈ d :: m, a < c.1 := by
        intro x hx
        rcases List.mem_cons.mp hx with rfl | hx
        · exact had
        · exact Nat.lt_trans had (hd.1 x hx)
      split
      · rename_i hv
        by_cases hb : b = a
        · subst hb
          rw [Memory.read_of_lt hlow, if_pos rfl, hv]
        · simp [hb]
      · rw [Memory.read.eq_def]
    · split
      · rename_i hab
        split
        · rename_i hv
          by_cases hb : b = a
          · subst hb
            rw [Memory.read_of_lt fun x hx => hab ▸ hd.1 x hx, if_pos rfl, hv]
          · have : b ≠ d.1 := hab ▸ hb
            simp [Memory.read, hb, this]
        · by_cases hb : b = a
          · simp [Memory.read, hb]
          · have : b ≠ d.1 := hab ▸ hb
            simp [Memory.read, hb, this]
      · rename_i hne
        by_cases hb : b = d.1
        · have : b ≠ a := fun e => hne (e ▸ hb)
          simp [Memory.read, hb, hb ▸ this]
        · simp only [Memory.read, hb, if_false]
          exact ih (Memory.wf_tail h)

end Sys2Proof.Machine
end

