-- ==== Sys2Proof/Laws/Cartridge.lean ====
section
/-! SUPPORT. What a write that does not fail can change in the reference cartridge, and the accesses to the RAM window
among events. -/

namespace Sys2Proof.Machine

variable (c : RefCart) (a : Addr) (v : Byte)

/-! ### Control registers -/

/-- A control write changes the control registers alone (10_state.md R33 to R37). -/
theorem RefCart.writeControl_eq : c.writeControl a v =
    { c with
      ramg := (c.writeControl a v).ramg
      r1 := (c.writeControl a v).r1
      r2 := (c.writeControl a v).r2
      r2h := (c.writeControl a v).r2h
      mode := (c.writeControl a v).mode } := by
  unfold RefCart.writeControl
  split <;> repeat' first | rfl | split

@[simp] theorem RefCart.writeControl_family : (c.writeControl a v).family = c.family := by rw [c.writeControl_eq]
@[simp] theorem RefCart.writeControl_romSize : (c.writeControl a v).romSize = c.romSize := by rw [c.writeControl_eq]
@[simp] theorem RefCart.writeControl_rom : (c.writeControl a v).rom = c.rom := by rw [c.writeControl_eq]
@[simp] theorem RefCart.writeControl_ramSize : (c.writeControl a v).ramSize = c.ramSize := by rw [c.writeControl_eq]
@[simp] theorem RefCart.writeControl_ram : (c.writeControl a v).ram = c.ram := by rw [c.writeControl_eq]
@[simp] theorem RefCart.writeControl_requests : (c.writeControl a v).requests = c.requests := by rw [c.writeControl_eq]
@[simp] theorem RefCart.writeControl_failures : (c.writeControl a v).failures = c.failures := by rw [c.writeControl_eq]

/-! ### Writes -/

/-- What a write that does not fail can do: change control registers, store one byte of RAM, or nothing. -/
theorem RefCart.store_cases :
    (isControlAddr a = true ∧ c.store a v = c.writeControl a v) ∨
    (isControlAddr a = false ∧ c.ramVisible a = true ∧
      c.store a v = { c with ram := Memory.write ramFill c.ram (c.ramOffset a) v }) ∨
    (isControlAddr a = false ∧ c.ramVisible a = false ∧ c.store a v = c) := by
  unfold RefCart.store
  cases isControlAddr a <;> cases c.ramVisible a <;> simp

@[simp] theorem RefCart.store_family : (c.store a v).family = c.family := by
  rcases c.store_cases a v with ⟨_, h⟩ | ⟨_, _, h⟩ | ⟨_, _, h⟩ <;> simp [h]

@[simp] theorem RefCart.store_ramSize : (c.store a v).ramSize = c.ramSize := by
  rcases c.store_cases a v with ⟨_, h⟩ | ⟨_, _, h⟩ | ⟨_, _, h⟩ <;> simp [h]

@[simp] theorem RefCart.store_romSize : (c.store a v).romSize = c.romSize := by
  rcases c.store_cases a v with ⟨_, h⟩ | ⟨_, _, h⟩ | ⟨_, _, h⟩ <;> simp [h]

@[simp] theorem RefCart.store_rom : (c.store a v).rom = c.rom := by
  rcases c.store_cases a v with ⟨_, h⟩ | ⟨_, _, h⟩ | ⟨_, _, h⟩ <;> simp [h]

@[simp] theorem RefCart.store_failures : (c.store a v).failures = c.failures := by
  rcases c.store_cases a v with ⟨_, h⟩ | ⟨_, _, h⟩ | ⟨_, _, h⟩ <;> simp [h]

/-- A write where the RAM window shows nothing leaves the RAM as it was. -/
theorem RefCart.store_ram_hidden (h : c.ramVisible a = false) : (c.store a v).ram = c.ram := by
  rcases c.store_cases a v with ⟨_, hs⟩ | ⟨_, hv, _⟩ | ⟨_, _, hs⟩
  · simp [hs]
  · rw [h] at hv; cases hv
  · rw [hs]

/-- A write leaves every byte of the RAM but the one its address shows as it was. -/
theorem RefCart.store_ramByte (hw : Memory.wf ramFill c.ram) {o : Nat} (ho : c.ramVisible a = true → o ≠ c.ramOffset a) :
    (c.store a v).ramByte o = c.ramByte o := by
  rcases c.store_cases a v with ⟨_, hs⟩ | ⟨_, hv, hs⟩ | ⟨_, _, hs⟩ <;> rw [hs]
  · simp [RefCart.ramByte]
  · simp [RefCart.ramByte, Memory.read_write hw, ho hv]

/-- A write keeps the RAM in canonical form. -/
theorem RefCart.store_wf (hw : Memory.wf ramFill c.ram) : Memory.wf ramFill (c.store a v).ram := by
  rcases c.store_cases a v with ⟨_, hs⟩ | ⟨_, _, hs⟩ | ⟨_, _, hs⟩ <;> rw [hs]
  · simpa using hw
  · exact Memory.write_wf hw _ _
  · exact hw

@[simp] theorem RefCart.storeAll_nil : c.storeAll [] = c := rfl
@[simp] theorem RefCart.storeAll_cons (p : Addr × Byte) (seq : List (Addr × Byte)) :
    c.storeAll (p :: seq) = (c.store p.1 p.2).storeAll seq := rfl

theorem RefCart.storeAll_append (xs ys : List (Addr × Byte)) :
    c.storeAll (xs ++ ys) = (c.storeAll xs).storeAll ys := List.foldl_append

/-- Register writes leave the size of the RAM as it is. -/
@[simp] theorem RefCart.storeAll_ramSize (seq : List (Addr × Byte)) : (c.storeAll seq).ramSize = c.ramSize := by
  induction seq generalizing c with
  | nil => rfl
  | cons p seq ih => simp [ih]

/-! ### The accesses to the RAM window -/

@[simp] theorem windowAccesses_nil (bank : Option Byte) : windowAccesses bank [] = [] := rfl
@[simp] theorem windowAccesses_setAddr (bank : Option Byte) (evs : List BusEvent) :
    windowAccesses bank (.setAddr a :: evs) = windowAccesses bank evs := rfl
@[simp] theorem windowAccesses_wait (bank : Option Byte) (evs : List BusEvent) :
    windowAccesses bank (.wait :: evs) = windowAccesses bank evs := rfl
theorem windowAccesses_read (bank : Option Byte) (r : ReadAnswer) (evs : List BusEvent) :
    windowAccesses bank (.read a r :: evs) =
      if isRamWindow a then (bank, a) :: windowAccesses bank evs else windowAccesses bank evs := rfl
theorem windowAccesses_write (bank : Option Byte) (r : WriteAnswer) (evs : List BusEvent) :
    windowAccesses bank (.write a v r :: evs) =
      if a = 0x4000 then windowAccesses (some v) evs
      else if isRamWindow a then (bank, a) :: windowAccesses bank evs
      else windowAccesses bank evs := rfl

end Sys2Proof.Machine
end

