-- ==== Sys2Proof/Laws/Header.lean ====
section
/-! SUPPORT. The header read pass as a bus sequence, and the values a decoded header may have. -/

namespace Sys2Proof.Machine

/-- The reads of n bytes from bus address a on. -/
def rangeReads : (n : Nat) → (a : Addr) → List BusOp
  | 0, _ => []
  | n + 1, a => readOps a ++ rangeReads n (a + 1)

theorem headerOps_eq : headerOps = rangeReads params.headerLen params.headerBase := by decide +kernel

/-- A range is read as its bus sequence is played (40_header.md R142). -/
theorem readRange_ok (n : Nat) : ∀ {a : Addr} {s t : State} {bs : List Byte},
    play (rangeReads n a) s = .ok bs t ↔ readRange n a s = .ok bs t := by
  induction n with
  | zero => exact Iff.rfl
  | succ n ih =>
    intro a s t bs
    have hr : readRange (n + 1) a = memRead a >>= fun v => readRange n (a + 1) >>= fun vs => pure (v :: vs) := rfl
    rw [hr]
    simp only [rangeReads, play_append_ok, play_readOps, bind_eq_ok, pure_apply, EStateM.Result.ok.injEq, ih]
    constructor
    · rintro ⟨_, u, b₂, ⟨v, hv, rfl⟩, h₂, rfl⟩
      exact ⟨v, u, hv, b₂, t, h₂, rfl, rfl⟩
    · rintro ⟨v, u, hv, b₂, _, h₂, rfl, rfl⟩
      exact ⟨[v], u, b₂, ⟨v, hv, rfl⟩, h₂, rfl⟩

/-- The read of one address fails as MemRead does. -/
theorem play_readOps_error {a : Addr} {s t : State} {e : Raised} :
    play (readOps a) s = .error e t ↔ memRead a s = .error e t := by
  simp only [readOps, play, memRead, bind_eq_error, pure_apply]
  constructor
  · rintro (h | ⟨_, u, hu, h | ⟨_, _, _, h | ⟨_, _, _, h⟩⟩⟩)
    · exact .inl h
    · exact .inr ⟨_, u, hu, h⟩
    · cases h
    · cases h
  · rintro (h | ⟨_, u, hu, h⟩)
    · exact .inl h
    · exact .inr ⟨_, u, hu, .inl h⟩

theorem readRange_error (n : Nat) : ∀ {a : Addr} {s t : State} {e : Raised},
    play (rangeReads n a) s = .error e t ↔ readRange n a s = .error e t := by
  induction n with
  | zero => exact Iff.rfl
  | succ n ih =>
    intro a s t e
    have hr : readRange (n + 1) a = memRead a >>= fun v => readRange n (a + 1) >>= fun vs => pure (v :: vs) := rfl
    rw [hr]
    simp only [rangeReads, play_append_error, play_readOps, play_readOps_error, bind_eq_error, pure_apply, ih]
    constructor
    · rintro (h | ⟨_, u, ⟨v, hv, rfl⟩, h₂⟩)
      · exact .inl h
      · exact .inr ⟨v, u, hv, .inl h₂⟩
    · rintro (h | ⟨v, u, hv, h₂ | ⟨_, _, _, h⟩⟩)
      · exact .inl h
      · exact .inr ⟨[v], u, ⟨v, hv, rfl⟩, h₂⟩
      · cases h

/-- ReadHeader returns the header of the bytes its pass reads (40_header.md R142). -/
theorem readHeader_ok {s t : State} {bs : List Byte} (h : play headerOps s = .ok bs t) :
    readHeader s = .ok (decodeHeader bs) t := by
  rw [headerOps_eq] at h
  exact bind_eq_ok.mpr ⟨bs, t, (readRange_ok _).mp h, rfl⟩

/-- ReadHeader fails as its pass does (40_header.md R148). -/
theorem readHeader_error {s t : State} {e : Raised} (h : play headerOps s = .error e t) :
    readHeader s = .error e t := by
  rw [headerOps_eq] at h
  exact bind_eq_error.mpr (.inl ((readRange_error _).mp h))

/-- What ReadHeader can do: its pass is played to the end or to its first failure. -/
theorem readHeader_cases (s : State) :
    (∃ bs t, play headerOps s = .ok bs t ∧ readHeader s = .ok (decodeHeader bs) t) ∨
    (∃ e t, play headerOps s = .error e t ∧ readHeader s = .error e t) := by
  cases h : play headerOps s with
  | ok bs t => exact .inl ⟨bs, t, rfl, readHeader_ok h⟩
  | error e t => exact .inr ⟨e, t, rfl, readHeader_error h⟩

/-- Relations the bus accesses keep, the header pass keeps. -/
theorem keeps_readHeader {R : State → State → Prop} (hR : BusSteady R) : Keeps R readHeader := by
  have hr : ∀ n a, Keeps R (readRange n a) := by
    intro n
    induction n with
    | zero => exact fun a => keeps_pure hR.toSteady []
    | succ n ih =>
      exact fun a => keeps_bind hR.toSteady (keeps_memRead hR a) fun _ =>
        keeps_bind hR.toSteady (ih _) fun _ => keeps_pure hR.toSteady _
  exact keeps_bind hR.toSteady (hr _ _) fun _ => keeps_pure hR.toSteady _

/-! ### The values of a decoded header -/

theorem romSizeOf_mem (code : Byte) : (romSizeOf code).toNat ∈ romSizes := by
  revert code; decide +kernel

theorem ramTableSize_mem (code : Byte) : (ramTableSize code).toNat ∈ ramSizes := by
  revert code; decide +kernel

theorem decodeType_unrecognised (t : Byte) : (decodeType t).2 = true → (decodeType t).1 = .romOnly := by
  revert t; decide +kernel

theorem warnBits_type (a b : Bool) : (warnBits a b).getLsbD 1 = a := by cases a <;> cases b <;> rfl

theorem warnBits_title (a b : Bool) : (warnBits a b).getLsbD 0 = b := by cases a <;> cases b <;> rfl

end Sys2Proof.Machine
end

