-- ==== Sys2Proof/Laws/PerInstr.lean ====
section
/-! SUPPORT. Properties said per instruction. LegalEncoding: the word of a well-formed instruction has the opcode of its
row in bits 31:24 and zeros in the reserved bits of its format (30_encoding.md R101, R103). -/

namespace Sys2Proof.Laws

/-- A bit of a word built from an opcode and an operand area. -/
theorem word_bit (op : Byte) (x : BitVec 24) (i : Nat) :
    BitVec.getLsbD (op ++ x : Word) i = if i < 24 then x.getLsbD i else op.getLsbD (i - 24) :=
  BitVec.getLsbD_append

/-- The opcode field of a word built from an opcode and an operand area. -/
theorem opcodeField_append (op : Byte) (x : BitVec 24) : opcodeField (op ++ x) = op := by
  apply BitVec.eq_of_getLsbD_eq
  intro i hi
  rw [opcodeField, BitVec.getLsbD_extractLsb', word_bit]
  simp [hi]

/-- The operand area of a word built from an opcode and an operand area. -/
theorem imm24_append (op : Byte) (x : BitVec 24) : imm24 (op ++ x) = x := by
  apply BitVec.eq_of_getLsbD_eq
  intro i hi
  rw [imm24, BitVec.getLsbD_extractLsb', word_bit]
  simp [hi]

/-- The reserved bits of format B8 over a zero-extended operand. -/
theorem reserved_b8 (op : Byte) (v : BitVec 8) : BitVec.extractLsb' 8 16 (op ++ v.setWidth 24 : Word) = 0 := by
  apply BitVec.eq_of_getLsbD_eq
  intro i hi
  rw [BitVec.getLsbD_extractLsb', word_bit, if_pos (by omega), BitVec.getLsbD_setWidth]
  simp

/-- The reserved bits of format H16 over a zero-extended operand. -/
theorem reserved_h16 (op : Byte) (n : BitVec 16) : BitVec.extractLsb' 16 8 (op ++ n.setWidth 24 : Word) = 0 := by
  apply BitVec.eq_of_getLsbD_eq
  intro i hi
  rw [BitVec.getLsbD_extractLsb', word_bit, if_pos (by omega), BitVec.getLsbD_setWidth]
  simp

/-- The word of a well-formed instruction has its row's opcode and clear reserved bits. -/
def LegalEncoding.Statement (i : Instr) : Prop :=
  i.wellFormed = true → opcodeField (encode i) = i.mnemonic.opcode ∧ reservedClear i.mnemonic.format (encode i) = true

theorem LegalEncoding.parseHeader : LegalEncoding.Statement .parseHeader := fun _ =>
  ⟨opcodeField_append .., by decide⟩

theorem LegalEncoding.makeRomReader : LegalEncoding.Statement .makeRomReader := fun _ =>
  ⟨opcodeField_append .., by decide⟩

theorem LegalEncoding.enableRam : LegalEncoding.Statement .enableRam := fun _ =>
  ⟨opcodeField_append .., by decide⟩

theorem LegalEncoding.disableRam : LegalEncoding.Statement .disableRam := fun _ =>
  ⟨opcodeField_append .., by decide⟩

theorem LegalEncoding.selectRomBank (n : BitVec 16) : LegalEncoding.Statement (.selectRomBank n) := fun _ =>
  ⟨opcodeField_append .., by simp [reservedClear, Instr.mnemonic, Mnemonic.format, encode, Instr.operandArea, reserved_h16]⟩

theorem LegalEncoding.selectRamBank (n : BitVec 16) : LegalEncoding.Statement (.selectRamBank n) := fun _ =>
  ⟨opcodeField_append .., by simp [reservedClear, Instr.mnemonic, Mnemonic.format, encode, Instr.operandArea, reserved_h16]⟩

theorem LegalEncoding.setAddr (a : BitVec 16) : LegalEncoding.Statement (.setAddr a) := fun _ =>
  ⟨opcodeField_append .., by simp [reservedClear, Instr.mnemonic, Mnemonic.format, encode, Instr.operandArea, reserved_h16]⟩

theorem LegalEncoding.readByte : LegalEncoding.Statement .readByte := fun _ =>
  ⟨opcodeField_append .., by decide⟩

theorem LegalEncoding.writeByte (v : BitVec 8) : LegalEncoding.Statement (.writeByte v) := fun _ =>
  ⟨opcodeField_append .., by simp [reservedClear, Instr.mnemonic, Mnemonic.format, encode, Instr.operandArea, reserved_b8]⟩

theorem LegalEncoding.romSize : LegalEncoding.Statement .romSize := fun _ =>
  ⟨opcodeField_append .., by decide⟩

theorem LegalEncoding.romStatus : LegalEncoding.Statement .romStatus := fun _ =>
  ⟨opcodeField_append .., by decide⟩

theorem LegalEncoding.romRead (cap : BitVec 24) : LegalEncoding.Statement (.romRead cap) := fun _ =>
  ⟨opcodeField_append .., rfl⟩

theorem LegalEncoding.ramDump : LegalEncoding.Statement .ramDump := fun _ =>
  ⟨opcodeField_append .., by decide⟩

theorem LegalEncoding.ramRestore : LegalEncoding.Statement .ramRestore := fun _ =>
  ⟨opcodeField_append .., by decide⟩

theorem LegalEncoding.xlateRom (o : BitVec 24) : LegalEncoding.Statement (.xlateRom o) := fun _ =>
  ⟨opcodeField_append .., rfl⟩

theorem LegalEncoding.xlateRam (o : BitVec 24) : LegalEncoding.Statement (.xlateRam o) := fun _ =>
  ⟨opcodeField_append .., rfl⟩

end Sys2Proof.Laws
end

