-- ==== Sys2Proof/Laws/Stream.lean ====
section
/-! SUPPORT. The loops of the ROM reader and the RAM accessor as bus sequences. -/

namespace Sys2Proof.Machine

/-! ### The ROM reader -/

theorem atRomBoundary_iff (o : Nat) : atRomBoundary o = true ↔ selectsAt o := by
  simp only [atRomBoundary, romBankOf, romIntraOf, romBankSize, Bool.and_eq_true, decide_eq_true_eq, selectsAt,
    Nat.le_div_iff_mul_le (by decide : 0 < 0x4000), Nat.one_mul]
  exact ⟨fun h => ⟨h.1, of_decide_eq_true h.2⟩, fun h => ⟨h.1, decide_eq_true h.2⟩⟩

theorem romBusAddr_eq (o : Nat) :
    romBusAddr o = BitVec.ofNat 16 (if o < 0x4000 then o else 0x4000 + o % 0x4000) := by
  unfold romBusAddr romBankOf romIntraOf romBankSize romSwitchBase
  by_cases h : o < 0x4000
  · rw [if_pos (by omega), if_pos h, Nat.mod_eq_of_lt h]
  · rw [if_neg (by omega), if_neg h]

theorem substituteBank_pos {n : Nat} (h : 1 ≤ n) : substituteBank n = n := by
  simp [substituteBank]; omega

/-- One turn of ROM_READ's loop, when what it issues is played and the bank it selects is allowed. -/
theorem readRomByte_ok {h : Header} {s t : State} {bs : List Byte}
    (hlim : selectsAt s.rd.cursor.toNat → s.rd.cursor.toNat / 0x4000 < limRom h)
    (hp : play (romByteOps h s.rd.cursor.toNat) s = .ok bs t) :
    ∃ v, bs = [v] ∧ readRomByte h s = .ok ()
      { t with
        drv := { s.drv with
          romBank := if selectsAt s.rd.cursor.toNat then BitVec.ofNat 16 (s.rd.cursor.toNat / 0x4000)
            else s.drv.romBank }
        rd := { s.rd with cursor := s.rd.cursor + 1 }
        revOut := v :: s.revOut } := by
  obtain ⟨b₁, u, b₂, h₁, h₂, rfl⟩ := play_append_ok.mp hp
  obtain ⟨v, hv, rfl⟩ := play_readOps.mp h₂
  rw [← romBusAddr_eq] at hv
  have htu := (busOnly_memRead _).ok_frame hv
  by_cases hb : selectsAt s.rd.cursor.toNat
  · rw [if_pos hb] at h₁
    have hsel : substituteBank (romBankOf s.rd.cursor.toNat) = s.rd.cursor.toNat / 0x4000 :=
      substituteBank_pos (by show 1 ≤ s.rd.cursor.toNat / 0x4000; omega)
    have hs : selectRomOp h (romBankOf s.rd.cursor.toNat) s =
        .ok () { u with drv := { s.drv with romBank := BitVec.ofNat 16 (s.rd.cursor.toNat / 0x4000) } } := by
      rw [selectRomOp_allowed (by rw [hsel]; exact hlim hb), hsel]
      exact runSeq_then_ok h₁
    obtain ⟨rfl, -⟩ := play_seqOps_ok h₁
    have hu := (busOnly_play _).ok_frame h₁
    refine ⟨v, rfl, ?_⟩
    unfold readRomByte
    simp only [(atRomBoundary_iff _).mpr hb, if_true, if_pos hb]
    have hv' := (busOnly_memRead (romBusAddr s.rd.cursor.toNat)).ok_transfer (s := u)
      (s' := { u with drv := { s.drv with romBank := BitVec.ofNat 16 (s.rd.cursor.toNat / 0x4000) } })
      ⟨rfl, rfl, rfl, rfl⟩ hv
    rw [bind_of_ok hs, bind_of_ok hv', htu, hu]
    rfl
  · rw [if_neg hb] at h₁
    cases h₁
    refine ⟨v, rfl, ?_⟩
    unfold readRomByte
    have : atRomBoundary s.rd.cursor.toNat = false := by
      rw [← Bool.not_eq_true, atRomBoundary_iff]; exact hb
    simp only [this, Bool.false_eq_true, if_false, if_neg hb]
    show (memRead _ >>= _) s = _
    rw [bind_of_ok hv, htu]
    rfl

theorem romReadOps_succ (h : Header) (c k : Nat) :
    romReadOps h c (k + 1) = romByteOps h c ++ romReadOps h (c + 1) k := by
  simp [romReadOps, List.range_succ_eq_map, List.flatMap_map, Nat.add_assoc, Nat.add_comm 1]

theorem romBankAfter_succ (b : Bank) (c k : Nat) :
    romBankAfter b c (k + 1) =
      romBankAfter (if selectsAt c then BitVec.ofNat 16 (c / 0x4000) else b) (c + 1) k := by
  simp only [romBankAfter, List.range_succ_eq_map, List.foldl_cons, List.foldl_map, Nat.add_zero, Nat.succ_eq_add_one,
    Nat.add_assoc, Nat.add_comm 1]

/-- ROM_READ's loop over k bytes, when what it issues is played and every bank it selects is allowed. -/
theorem readRomBytes_ok {h : Header} (k : Nat) : ∀ {s t : State} {bs : List Byte} {first moved : Nat},
    s.rd.cursor.toNat + k < 2 ^ 24 →
    (∀ j < k, selectsAt (s.rd.cursor.toNat + j) → (s.rd.cursor.toNat + j) / 0x4000 < limRom h) →
    play (romReadOps h s.rd.cursor.toNat k) s = .ok bs t →
    bs.length = k ∧ forBytes (fun _ => readRomByte h) k first moved s = .ok ()
      { t with
        drv := { s.drv with romBank := romBankAfter s.drv.romBank s.rd.cursor.toNat k }
        rd := { s.rd with cursor := BitVec.ofNat 24 (s.rd.cursor.toNat + k) }
        revOut := bs.reverse ++ s.revOut } := by
  induction k with
  | zero =>
    intro s t bs first moved _ _ hp
    cases hp
    exact ⟨rfl, by simp [forBytes, romBankAfter]⟩
  | succ k ih =>
    intro s t bs first moved hlt hlim hp
    rw [romReadOps_succ] at hp
    obtain ⟨b₁, u, b₂, h₁, h₂, rfl⟩ := play_append_ok.mp hp
    obtain ⟨v, rfl, hstep⟩ := readRomByte_ok (fun hb => by simpa using hlim 0 (by omega) (by simpa using hb)) h₁
    have hu := (busOnly_play _).ok_frame h₁
    let s₁ : State := { u with
        drv := { s.drv with
          romBank := if selectsAt s.rd.cursor.toNat then BitVec.ofNat 16 (s.rd.cursor.toNat / 0x4000)
            else s.drv.romBank }
        rd := { s.rd with cursor := s.rd.cursor + 1 }
        revOut := v :: s.revOut }
    have hc : s₁.rd.cursor.toNat = s.rd.cursor.toNat + 1 := by
      show (s.rd.cursor + 1).toNat = _
      rw [BitVec.toNat_add]
      show (s.rd.cursor.toNat + 1) % 2 ^ 24 = _
      omega
    have hsame : SameBus u s₁ := ⟨rfl, rfl, rfl, rfl⟩
    have h₂' := (busOnly_play _).ok_transfer hsame h₂
    rw [← hc] at h₂'
    obtain ⟨hlen, hloop⟩ := ih (s := s₁) (first := first + 1) (moved := moved + 1) (by omega)
      (fun j hj hb => by
        have := hlim (j + 1) (by omega)
        rw [hc] at hb ⊢
        rw [show s.rd.cursor.toNat + 1 + j = s.rd.cursor.toNat + (j + 1) by omega] at hb ⊢
        exact this hb) h₂'
    refine ⟨by simp [hlen], ?_⟩
    show (withMoved moved (readRomByte h) >>= fun _ => _) s = _
    rw [bind_of_ok (withMoved_eq_ok.mpr hstep), hloop, hc]
    have ht := (busOnly_play _).ok_frame h₂
    rw [romBankAfter_succ, ht, hu]
    congr 1
    simp only [s₁, withBus, Nat.add_assoc, Nat.add_comm 1, List.reverse_cons, List.append_assoc, List.cons_append,
      List.nil_append, State.mk.injEq, true_and]
    refine ⟨?_, ?_, ?_, ?_, ?_, ?_, ?_⟩ <;> (rw [hu]; rfl)

end Sys2Proof.Machine
end

