-- ==== Sys2Proof/Tests/Slice0.lean ====
section
/-! SUPPORT. Tests: the WellFormed smoke test, the words of every command, at most two step tests per command with
the values of 95_test_vectors.md, and a witness for every statement that has hypotheses. -/

namespace Sys2Proof.Tests

open Sys2Proof.Machine

/-! ### The WellFormed smoke test: an ill-formed command for each check -/

theorem test_missing_operand_refused : (SourceCommand.mk .setAddr none).check = .error .missingOperand := by decide

theorem test_unexpected_operand_refused : (SourceCommand.mk .ramDump (some 0)).check = .error .unexpectedOperand := by
  decide

theorem test_wide_operands_refused :
    (SourceCommand.mk .writeByte (some 0x100)).check = .error .operandTooWide ∧
    (SourceCommand.mk .selectRomBank (some 0x10000)).check = .error .operandTooWide ∧
    (SourceCommand.mk .romRead (some 0x1000000)).check = .error .operandTooWide := by decide

theorem test_widest_operands_accepted :
    (SourceCommand.mk .writeByte (some 0xFF)).wellFormed = true ∧
    (SourceCommand.mk .selectRomBank (some 0xFFFF)).wellFormed = true ∧
    (SourceCommand.mk .romRead (some 0xFFFFFF)).wellFormed = true := by decide

/-! ### Words, written out from 30_encoding.md R101 and R103 and 95_test_vectors.md V1 to V19 -/

theorem test_word_parse_header : decode 0b00000001_000000000000000000000000 = .ok .parseHeader := by decide
theorem test_word_make_rom_reader : decode 0b00000010_000000000000000000000000 = .ok .makeRomReader := by decide
theorem test_word_enable_ram : decode 0b00000011_000000000000000000000000 = .ok .enableRam := by decide
theorem test_word_disable_ram : decode 0b00000100_000000000000000000000000 = .ok .disableRam := by decide
theorem test_word_select_rom_bank :
    decode 0b00000101_00000000_1111111111111111 = .ok (.selectRomBank 0xFFFF) := by decide
theorem test_word_select_ram_bank :
    decode 0b00000110_00000000_0000000000000011 = .ok (.selectRamBank 3) := by decide
theorem test_word_set_addr : decode 0b00000111_00000000_1010000000010000 = .ok (.setAddr 0xA010) := by decide
theorem test_word_read_byte : decode 0b00001000_000000000000000000000000 = .ok .readByte := by decide
theorem test_word_write_byte : decode 0b00001001_0000000000000000_11111110 = .ok (.writeByte 0xFE) := by decide
theorem test_word_rom_size : decode 0b00001010_000000000000000000000000 = .ok .romSize := by decide
theorem test_word_rom_status : decode 0b00001011_000000000000000000000000 = .ok .romStatus := by decide
theorem test_word_rom_read : decode 0b00001100_100000000000000000000001 = .ok (.romRead 0x800001) := by decide
theorem test_word_ram_dump : decode 0b00001101_000000000000000000000000 = .ok .ramDump := by decide
theorem test_word_ram_restore : decode 0b00001110_000000000000000000000000 = .ok .ramRestore := by decide
theorem test_word_xlate_rom : decode 0b00001111_010000010100001001000011 = .ok (.xlateRom 0x414243) := by decide
theorem test_word_xlate_ram : decode 0b00010000_000000000100000000010000 = .ok (.xlateRam 0x4010) := by decide

theorem test_illegal_words :
    decode 0x00000000 = .error (.unknownOpcode 0x00) ∧ decode 0x11000000 = .error (.unknownOpcode 0x11) ∧
    decode 0xFF000000 = .error (.unknownOpcode 0xFF) ∧ decode 0x05010000 = .error (.reservedBitSet .selectRomBank) ∧
    decode 0x08000001 = .error (.reservedBitSet .readByte) ∧ decode 0x09000100 = .error (.reservedBitSet .writeByte) ∧
    decode 0x0D800000 = .error (.reservedBitSet .ramDump) := by decide

/-- 95_test_vectors.md section 3.1, the line on assembly, and 30_encoding.md R109. -/
theorem test_assembly :
    assembleLine "SELECT_ROM_BANK 0x105 ; bank 261" = .ok (.command (.selectRomBank 0x105)) ∧
    assembleLine "WRITE_BYTE 0x100" = .error (.operand .operandTooWide) ∧
    assembleLine "WRITE_AT 0xA010, 119" = .ok (.pseudo (.writeAt 0xA010 119)) ∧
    expandPseudo (.readAt 0xA010) = [.setAddr 0xA010, .readByte] := by decide +kernel

/-! ### Helpers -/

/-- The state a step or a command goes to. -/
def after (o : Host.Outcome State Fault Refusal) : State :=
  match o with
  | .next s => s
  | .fault _ | .refused _ => State.reset

/-- Status, value, aux and flag of the last result. -/
def answer (s : State) : Option (Status × Nat × Nat × Bool) :=
  s.lastResult.map fun r => (r.status, r.value.toNat, r.aux.toNat, r.flag)

/-- A header with a zero title and no warning. -/
def header (t : MbcType) (rom ram : Word) : Header := ⟨Vector.replicate 16 0, t, rom, ram, 0⟩

/-- A session with header h on a bus side, S.addr as the header pass leaves it. -/
def ready (h : Header) (side : BusSide) : State :=
  { State.reset with phase := .ready, hdr := some h, addr := some 0x014F, bus := side }

/-- A session whose bus answers as scripted. -/
def scripted (h : Header) (answers : List ReadAnswer) : State := ready h (.unknown answers)

/-- n answers that succeed. -/
def good (n : Nat) : List ReadAnswer := List.replicate n (.ok 0)

/-- The header bytes of the fixture's ROM (95_test_vectors.md section 2): its default title and the three codes. -/
def headerRom (t r m : Byte) : Memory :=
  let title : List Byte := [0x47, 0x42, 0x52, 0x45, 0x41, 0x44, 0x45, 0x52, 0x54, 0x45, 0x53, 0x54, 0, 0, 0, 0]
  let cells := (List.range 16).map (fun i => (0x134 + i, title.getD i 0)) ++ [(0x147, t), (0x148, r), (0x149, m)]
  cells.foldl (fun rom c => Memory.write romPattern rom c.1 c.2) []

/-- The reference cartridge with header codes t, r, m, failures F and RAM contents (95_test_vectors.md section 2). -/
def cart (t r m : Byte) (failures : List Nat) (ram : Memory) : RefCart where
  family := familyOf (decodeType t).1
  romSize := max 0x8000 (romSizeOf r).toNat
  rom := headerRom t r m
  ramSize := (decodeRam (decodeType t).1 m).toNat
  ram := ram
  ramg := false
  r1 := 0
  r2 := 0
  r2h := false
  mode := false
  requests := 0
  failures := failures

/-- The state after reset on a reference cartridge. -/
def inserted (c : RefCart) : State := { State.reset with bus := .reference c }

def mbc1Header : Header := header .mbc1RamBattery 0x10000 0x8000
def mbc1Small : Header := header .mbc1RamBattery 0x10000 0x2000
def mbc1Large : Header := header .mbc1 0x200000 0
def mbc2Header : Header := header .mbc2 0x40000 0
def mbc3Header : Header := header .mbc3RamBattery 0x40000 0x8000
def mbc5Header : Header := header .mbc5RamBattery 0x800000 0x20000
def romOnlyHeader : Header := header .romOnly 0x8000 0

/-! ### One step of each command (95_test_vectors.md section 3) -/

/-- H1. -/
theorem test_parse_header :
    let s := after (exec .parseHeader (inserted (cart 0x03 0x01 0x03 [] [])))
    answer s = some (.ok, 0x10000, 0x8000, false) ∧ s.phase = .noSession ∧ s.addr = some 0x014F ∧
      s.revTrace.length = 160 ∧ s.lastResult.bind (·.hdr.map (·.mbcType)) = some .mbc1RamBattery := by decide +kernel

/-- H10. -/
theorem test_parse_header_bus_error :
    let s := after (exec .parseHeader (inserted (cart 0x01 0x00 0x00 [4] [])))
    answer s = some (.busError, 0, 0, false) ∧ s.phase = .faulted ∧ s.fault = some .busError ∧
      s.revTrace.head? = some (.read 0x0104 .err) ∧ s.revTrace.length = 10 := by decide +kernel

/-- H12: a new session writes no control register, so RAM stays enabled on the cartridge. -/
theorem test_make_rom_reader :
    let s := after (exec .makeRomReader (ready mbc1Header (.reference { cart 0x03 0x01 0x03 [] [] with ramg := true })))
    answer s = some (.ok, 0x10000, 0x8000, false) ∧ s.phase = .ready ∧ s.drv = ⟨1, 0, false⟩ ∧ s.rd = ⟨0, false⟩ ∧
      s.hdr.map (·.mbcType) = some .mbc1RamBattery := by decide +kernel

/-- H14. -/
theorem test_make_rom_reader_bus_error :
    let s := after (exec .makeRomReader (inserted (cart 0x01 0x02 0x00 [79] [])))
    answer s = some (.busError, 0, 0, false) ∧ s.phase = .faulted ∧ s.hdr = none ∧
      s.revTrace.head? = some (.read 0x014F .err) := by decide +kernel

/-- A2. -/
theorem test_enable_ram :
    let s := after (exec .enableRam (scripted mbc1Header (good 1)))
    answer s = some (.ok, 0, 0, false) ∧ s.drv.ramEnabled = true ∧
      s.trace = [.setAddr 0x0000, .write 0x0000 0x0A .ok] := by decide +kernel

/-- A1. -/
theorem test_enable_ram_rom_only :
    let s := after (exec .enableRam (scripted romOnlyHeader []))
    answer s = some (.ok, 0, 0, false) ∧ s.drv.ramEnabled = true ∧ s.trace = [] ∧ s.addr = some 0x014F := by
  decide +kernel

/-- A5. -/
theorem test_disable_ram :
    let s := after (exec .disableRam (scripted mbc5Header (good 1)))
    answer s = some (.ok, 0, 0, false) ∧ s.drv.ramEnabled = false ∧
      s.trace = [.setAddr 0x0000, .write 0x0000 0x00 .ok] := by decide +kernel

/-- A6: the flag stays set where the write fails. -/
theorem test_disable_ram_bus_error :
    let s := after (exec .disableRam { scripted mbc1Header [.err] with drv := ⟨1, 0, true⟩ })
    answer s = some (.busError, 0, 0, false) ∧ s.drv.ramEnabled = true ∧ s.phase = .faulted := by decide +kernel

/-- S4. -/
theorem test_select_rom_bank :
    let s := after (exec (.selectRomBank 0x45) (scripted mbc1Large (good 3)))
    answer s = some (.ok, 0, 0, false) ∧ s.drv.romBank = 0x45 ∧ s.trace =
      [.setAddr 0x6000, .write 0x6000 0x00 .ok, .setAddr 0x2000, .write 0x2000 0x05 .ok, .setAddr 0x4000,
       .write 0x4000 0x02 .ok] := by decide +kernel

/-- S21: the third write is not issued. -/
theorem test_select_rom_bank_bus_error :
    let s := after (exec (.selectRomBank 0x45) (scripted mbc1Large [.ok 0, .err]))
    answer s = some (.busError, 0, 0, false) ∧ s.drv.romBank = 1 ∧ s.trace =
      [.setAddr 0x6000, .write 0x6000 0x00 .ok, .setAddr 0x2000, .write 0x2000 0x05 .err] := by decide +kernel

/-- B1. -/
theorem test_select_ram_bank :
    let s := after (exec (.selectRamBank 3) (scripted mbc1Header (good 2)))
    answer s = some (.ok, 0, 0, false) ∧ s.drv.ramBank = 3 ∧ s.trace =
      [.setAddr 0x6000, .write 0x6000 0x01 .ok, .setAddr 0x4000, .write 0x4000 0x03 .ok] := by decide +kernel

/-- B6: on MBC3 the limit is 4 whatever the header says. -/
theorem test_select_ram_bank_refused :
    let s := after (exec (.selectRamBank 8) (scripted (header .mbc3RamBattery 0x40000 0x20000) []))
    answer s = some (.unsupportedOperation, 0, 0, false) ∧ s.drv.ramBank = 0 ∧ s.trace = [] := by decide +kernel

/-- P1, row 4. -/
theorem test_set_addr :
    let s := after (exec (.setAddr 0xA010) (scripted mbc1Header []))
    answer s = some (.ok, 0, 0, false) ∧ s.addr = some 0xA010 ∧ s.trace = [.setAddr 0xA010] := by decide +kernel

/-- P1, row 5: bank 2 of a mode 1 cartridge. -/
theorem test_read_byte :
    let c := { cart 0x03 0x01 0x03 [] [(0x4010, 0x77)] with ramg := true, mode := true, r2 := 2 }
    let s := after (exec .readByte { ready mbc1Header (.reference c) with addr := some 0xA010, drv := ⟨1, 2, true⟩ })
    answer s = some (.ok, 0x77, 0, false) ∧ s.trace = [.read 0xA010 (.ok 0x77)] := by decide +kernel

/-- T3. -/
theorem test_read_byte_ram_disabled :
    let s := after (exec .readByte { scripted mbc1Header [] with addr := some 0xA000 })
    answer s = some (.ramNotEnabled, 0, 0, false) ∧ s.trace = [] ∧ s.phase = .ready := by decide +kernel

/-- T5. -/
theorem test_write_byte :
    let s := after (exec (.writeByte 0x5A)
      { scripted mbc1Header (good 1) with addr := some 0xA000, drv := ⟨1, 0, true⟩ })
    answer s = some (.ok, 0, 0, false) ∧ s.trace = [.wait, .write 0xA000 0x5A .ok, .wait] := by decide +kernel

/-- T7. -/
theorem test_write_byte_control_refused :
    let s := after (exec (.writeByte 0x05) { scripted mbc1Header [] with addr := some 0x2000, drv := ⟨1, 0, true⟩ })
    answer s = some (.controlWriteRefused, 0, 0, false) ∧ s.trace = [] := by decide +kernel

/-- R8. -/
theorem test_rom_size :
    answer (after (exec .romSize (scripted mbc5Header []))) = some (.ok, 0x800000, 0, false) := by decide +kernel

/-- P2, row 9. -/
theorem test_rom_status :
    answer (after (exec .romStatus { scripted romOnlyHeader [] with rd := ⟨0x8000, true⟩ })) =
      some (.ok, 0x8000, 1, true) := by decide +kernel

/-- R7a: a select at the boundary inside the call. -/
theorem test_rom_read :
    let s := after (exec (.romRead 4)
      { ready mbc5Header (.reference (cart 0x1B 0x08 0x04 [] [])) with rd := ⟨0x3FFE, false⟩ })
    answer s = some (.ok, 4, 0, false) ∧ s.rd = ⟨0x4002, false⟩ ∧ s.drv.romBank = 1 ∧
      s.out = [0xFE, 0xFF, 0x01, 0x02] ∧ s.revTrace.length = 12 := by decide +kernel

/-- R5: the bytes before the failing one are delivered and counted. -/
theorem test_rom_read_bus_error :
    let s := after (exec (.romRead 0x10) (ready romOnlyHeader (.reference (cart 0x00 0x00 0x00 [5] []))))
    answer s = some (.busError, 5, 0, false) ∧ s.rd.cursor = 5 ∧ s.out.length = 5 ∧ s.phase = .faulted := by
  decide +kernel

/-- M3: a cartridge with no RAM is enabled and disabled and nothing else. -/
theorem test_ram_dump_no_ram :
    let s := after (exec .ramDump (scripted mbc2Header (good 2)))
    answer s = some (.ok, 0, 0, false) ∧ s.drv.ramEnabled = false ∧
      s.trace = [.setAddr 0, .write 0 0x0A .ok, .setAddr 0, .write 0 0x00 .ok] := by decide +kernel

/-- M1 with its fourth request failing: the bank is selected first, one byte is out, and RAM stays enabled. -/
theorem test_ram_dump_bus_error :
    let s := after (exec .ramDump (scripted mbc1Header (good 3 ++ [.ok 0x12, .err])))
    answer s = some (.busError, 1, 0, false) ∧ s.drv = ⟨1, 0, true⟩ ∧ s.out = [0x12] ∧ s.phase = .faulted ∧
      s.trace.take 8 = [.setAddr 0, .write 0 0x0A .ok, .setAddr 0x6000, .write 0x6000 0x01 .ok, .setAddr 0x4000,
        .write 0x4000 0x00 .ok, .setAddr 0xA000, .read 0xA000 (.ok 0x12)] := by decide +kernel

/-- M13. -/
theorem test_ram_restore_bus_error :
    let s := after (exec .ramRestore { scripted mbc1Header (good 4 ++ [.err]) with input := ⟨[0x11, 0x22], false⟩ })
    answer s = some (.busError, 0, 0, false) ∧ s.drv.ramEnabled = true ∧ s.phase = .faulted ∧
      s.revTrace.take 3 = [.write 0xA000 0x11 .err, .wait, .setAddr 0xA000] ∧ s.revTrace.length = 11 := by
  decide +kernel

/-- P4, row 2, with its fourth data write failing: three bytes, then the padding. -/
theorem test_ram_restore_pads :
    let s := after (exec .ramRestore
      { scripted mbc1Small (good 5 ++ [.err]) with input := ⟨[0x11, 0x22, 0x33], false⟩ })
    answer s = some (.busError, 3, 0, false) ∧ s.input.bytes = [] ∧
      s.revTrace.take 7 = [.write 0xA003 0xFF .err, .wait, .setAddr 0xA003, .wait, .write 0xA002 0x33 .ok, .wait,
        .setAddr 0xA002] := by decide +kernel

/-- X6. -/
theorem test_xlate_rom :
    answer (after (exec (.xlateRom 0x414243) (scripted mbc5Header []))) = some (.ok, 0x105, 0x4243, true) := by
  decide +kernel

/-- X13. -/
theorem test_xlate_ram :
    answer (after (exec (.xlateRam 0xFFFFFF) (scripted mbc1Header []))) = some (.ok, 0x7FF, 0xBFFF, false) := by
  decide +kernel

/-- Z1, Z4 and Z5: an unknown word is illegal in every phase; a query before a session is refused. -/
theorem test_step_on_words :
    answer (after (step (State.reset.withFetchWord 32 0x0A000000))) = some (.noSession, 0, 0, false) ∧
    answer (after (step (State.reset.withFetchWord 32 0x00000000))) = some (.illegalCommand, 0, 0, false) ∧
    answer (after (step (({ State.reset with phase := .faulted, fault := some .busError } : State).withFetchWord 32
      0xFF000000))) = some (.illegalCommand, 0, 0, false) := by decide +kernel

/-! ### Witnesses: for every statement with hypotheses, states and operands that meet them -/

def isOk {α : Type} (x : EStateM.Result Raised State α) : Bool :=
  match x with
  | .ok _ _ => true
  | .error _ _ => false

theorem exists_ok {α : Type} {x : EStateM.Result Raised State α} (h : isOk x = true) : ∃ a t, x = .ok a t := by
  cases x with
  | ok a t => exact ⟨a, t, rfl⟩
  | error e t => cases h

/-- A sequence that does not end well raises an error. -/
theorem exists_error {α : Type} {x : EStateM.Result Raised State α} (h : isOk x = false) : ∃ e t, x = .error e t := by
  cases x with
  | ok a t => cases h
  | error e t => exact ⟨e, t, rfl⟩

/-- Every command answers a next state, the one `after` names. -/
theorem exec_after (i : Instr) (s : State) : exec i s = .next (after (exec i s)) := by cases i <;> rfl

/-- A session state meets the invariant when its values fit its header. -/
theorem inv_of_session {s : State} {h : Header} (hp : s.phase = .ready) (hf : s.fault = none) (hh : s.hdr = some h)
    (ha : s.addr ≠ none) (hr : 1 ≤ s.drv.romBank.toNat ∧ s.drv.romBank.toNat ≤ 511) (hm : s.drv.ramBank.toNat ≤ 15)
    (hs : SessionInv h s.drv s.rd) (hb : s.bus.wf) : s.Inv where
  romBank := hr
  ramBank := hm
  fault := by simp [hp, hf]
  ready := fun _ => ⟨by simp [hh], ha⟩
  noSession := fun hn => by rw [hp] at hn; cases hn
  session := fun h' he => by rw [hh] at he; cases he; exact hs
  bus := hb

/-- The headers of the tests are headers the parser makes. -/
theorem headers_wf :
    mbc1Header.wf ∧ mbc1Small.wf ∧ mbc1Large.wf ∧ mbc2Header.wf ∧ mbc3Header.wf ∧ mbc5Header.wf ∧ romOnlyHeader.wf :=
  ⟨by decide +kernel, by decide +kernel, by decide +kernel, by decide +kernel, by decide +kernel, by decide +kernel,
    by decide +kernel⟩

/-- A session whose reader stands at a cursor of the image meets the invariant. -/
theorem reader_inv {h : Header} (hw : h.wf) {r : Reader} (hc : r.cursor.toNat ≤ h.romSize.toNat)
    (he : r.eos = true → r.cursor.toNat = h.romSize.toNat) {side : BusSide} (hb : side.wf) :
    ({ ready h side with rd := r } : State).Inv :=
  inv_of_session rfl rfl rfl (by simp [ready]) ⟨Nat.le_refl 1, by show 1 ≤ 511; decide⟩ (Nat.zero_le _) ⟨hw, .inl rfl, .inl rfl, hc, he⟩ hb

/-- A fresh session on scripted answers meets the invariant. -/
theorem scripted_inv {h : Header} (hw : h.wf) (answers : List ReadAnswer) : (scripted h answers).Inv :=
  reader_inv hw (r := ⟨0, false⟩) (Nat.zero_le _) (fun he => by cases he) trivial

/-- A session in phase Faulted. -/
def faulted : State := { scripted mbc1Header [] with phase := .faulted, fault := some .busError }

theorem faulted_inv : faulted.Inv where
  romBank := by decide
  ramBank := by decide
  fault := by simp [faulted]
  ready := fun h => by cases h
  noSession := fun h => by cases h
  session := fun h he => by
    cases he
    exact ⟨headers_wf.1, .inl rfl, .inl rfl, Nat.zero_le _, fun he => by cases he⟩
  bus := trivial

theorem test_witness_EncodedCommandDecodesToItself : ∀ i ∈ [Instr.parseHeader, .writeByte 0xFF, .romRead 0xFFFFFF],
    i.wellFormed = true := by decide

theorem test_witness_LegalWordIsTheWordOfItsCommand : decode 0x0500FFFF = .ok (.selectRomBank 0xFFFF) := by decide

theorem test_witness_LegalWordMatchesExactlyOneTableRow :
    (∃ i, decode 0x10FFFFFF = .ok i) ∧ ∃ e, decode 0x0D800000 = .error e := ⟨⟨_, rfl⟩, _, rfl⟩

theorem test_witness_IllegalWordChangesNothing :
    (faulted.withFetchWord 32 0x07800000).host = .command 0x07800000 :: [] ∧
    illegalWord 0x07800000 = true ∧ illegalWord 0x00FFFFFF = true ∧ illegalWord 0x11000000 = true ∧
    illegalWord 0xFFFFFFFF = true ∧ illegalWord 0x05010000 = true ∧ illegalWord 0x09000100 = true ∧
    illegalWord 0x08000001 = true := by decide +kernel

theorem test_witness_WrittenCommandIsNeverTruncated :
    Mnemonic.selectRomBank.format ≠ .n ∧ 2 ^ Mnemonic.selectRomBank.format.operandBits ≤ 0x10000 ∧
    Mnemonic.writeByte.format ≠ .n ∧ 2 ^ Mnemonic.writeByte.format.operandBits ≤ 0x100 ∧
    Mnemonic.romRead.format ≠ .n ∧ 2 ^ Mnemonic.romRead.format.operandBits ≤ 0x1000000 := by decide

theorem test_witness_StepRunsTheDecodedCommand :
    (State.reset.withFetchWord 32 0x0C000001).host = .command 0x0C000001 :: [] ∧
    decode 0x0C000001 = .ok (.romRead 1) ∧ (Instr.romRead 1).wellFormed = true := by decide +kernel

theorem test_witness_HostActionsBetweenCommands :
    State.reset.host = [] ∧
    ({ State.reset with host := [.setInput ⟨[1], true⟩] } : State).host = .setInput ⟨[1], true⟩ :: [] := by
  decide +kernel

theorem test_witness_ResetEventRestoresResetValues : ({ faulted with host := [.reset] } : State).host = .reset :: [] :=
  rfl

theorem test_witness_BusPrimitivesRecordTheirEvents :
    (scripted mbc1Header [.ok 7]).addr = some 0x014F ∧
    (scripted mbc1Header [.ok 7]).bus.read [] 0x014F = (.ok 7, .unknown []) ∧
    (scripted mbc1Header [.err]).bus.read [] 0x014F = (.err, .unknown []) ∧
    (scripted mbc1Header [.ok 7]).bus.write [] 0x014F 9 = (.ok, .unknown []) ∧
    (scripted mbc1Header [.err]).bus.write [] 0x014F 9 = (.err, .unknown []) ∧
    (scripted mbc1Header []).bus = .unknown [] := by decide +kernel

theorem test_witness_RunSeqStopsAtTheFirstBusError :
    (∃ a t, runSeq [(0x2000, 1), (0x4000, 2)] (scripted mbc1Header (good 2)) = .ok a t) ∧
    ∃ e t, runSeq [(0x2000, 1), (0x4000, 2)] (scripted mbc1Header [.ok 0, .err]) = .error e t :=
  ⟨exists_ok (by decide +kernel), exists_error (by decide +kernel)⟩

theorem test_witness_BankSwitchTableIsTheSpecs :
    (511 < params.famMaxRomBanks .mbc5 ∧ 511 < 512) ∧ (127 < params.famMaxRomBanks .mbc1 ∧ 127 < 128) ∧
    (1 < params.famMaxRomBanks .romOnly ∧ 1 < 2) ∧ 15 < params.famMaxRamBanks .mbc5 ∧
    3 < params.famMaxRamBanks .mbc3 := by decide

theorem test_witness_BankLimitsAreFamilyAndHeaderMinimum :
    (scripted mbc5Header []).phase = .ready ∧ (scripted mbc5Header []).hdr = some mbc5Header ∧
    limRom mbc5Header ≤ (if (512 : BitVec 16).toNat = 0 then 1 else (512 : BitVec 16).toNat) ∧
    limRom (header .mbc1 0 0) ≤ (if (0 : BitVec 16).toNat = 0 then 1 else (0 : BitVec 16).toNat) ∧
    limRam mbc5Header ≤ (16 : BitVec 16).toNat := by decide +kernel

theorem test_witness_HeaderFieldsComeFromTheirOffsets : (List.replicate 80 (0x41 : Byte)).length = 80 := by decide

theorem test_witness_AsciiTitleRaisesNoWarning :
    (∀ b ∈ (Vector.replicate 16 (0x7F : Byte)).toList, b.toNat < 0x80) ∧
    (∃ b ∈ (Vector.replicate 16 (0xF5 : Byte)).toList, b = 0xC0 ∨ b = 0xC1 ∨ 0xF5 ≤ b.toNat) := by decide

theorem test_witness_HeaderPassReadsTheRegionInOrder :
    ∃ bs t, play headerOps { State.reset with bus := .unknown (good 80) } = .ok bs t := exists_ok (by decide +kernel)

theorem test_witness_ParseHeaderReturnsTheDecodedHeader :
    (scripted mbc1Header (good 80)).phase ≠ .faulted ∧ State.reset.phase ≠ .faulted ∧
    (∃ bs t, play headerOps (scripted mbc1Header (good 80)) = .ok bs t) ∧
    (∃ e t, play headerOps (scripted mbc1Header (good 79 ++ [.err])) = .error e t) :=
  ⟨by decide +kernel, by decide +kernel, exists_ok (by decide +kernel), exists_error (by decide +kernel)⟩

theorem test_witness_MakeRomReaderOpensASession :
    (inserted (cart 0x1B 0x08 0x04 [] [])).phase ≠ .faulted ∧
    (∃ bs t, play headerOps (inserted (cart 0x1B 0x08 0x04 [] [])) = .ok bs t) ∧
    (∃ e t, play headerOps (inserted (cart 0x1B 0x08 0x04 [0] [])) = .error e t) :=
  ⟨by decide +kernel, exists_ok (by decide +kernel), exists_error (by decide +kernel)⟩

theorem test_witness_EnableRamWritesTheEnableRegister :
    (scripted romOnlyHeader []).phase = .ready ∧ (scripted romOnlyHeader []).hdr = some romOnlyHeader ∧
    family romOnlyHeader = .romOnly ∧ (scripted mbc2Header (good 1)).phase = .ready ∧
    (scripted mbc2Header (good 1)).hdr = some mbc2Header ∧ family mbc2Header ≠ .romOnly ∧
    (scripted mbc2Header (good 1)).bus.write [.setAddr 0] 0 0x0A = (.ok, .unknown []) ∧
    (scripted mbc2Header [.err]).bus.write [.setAddr 0] 0 0x0A = (.err, .unknown []) := by decide +kernel

theorem test_witness_DisableRamWritesTheEnableRegister :
    (scripted romOnlyHeader []).phase = .ready ∧ (scripted romOnlyHeader []).hdr = some romOnlyHeader ∧
    family romOnlyHeader = .romOnly ∧ (scripted mbc3Header (good 1)).phase = .ready ∧
    (scripted mbc3Header (good 1)).hdr = some mbc3Header ∧ family mbc3Header ≠ .romOnly ∧
    (scripted mbc3Header (good 1)).bus.write [.setAddr 0] 0 0x00 = (.ok, .unknown []) ∧
    (scripted mbc3Header [.err]).bus.write [.setAddr 0] 0 0x00 = (.err, .unknown []) := by decide +kernel

theorem test_witness_SelectRomBankWritesTheBankRegisters :
    (scripted mbc5Header (good 2)).phase = .ready ∧ (scripted mbc5Header (good 2)).hdr = some mbc5Header ∧
    (1 : Nat) = (if (0 : BitVec 16).toNat = 0 then 1 else (0 : BitVec 16).toNat) ∧ 1 < limRom mbc5Header ∧
    (511 : Nat) = (if (511 : BitVec 16).toNat = 0 then 1 else (511 : BitVec 16).toNat) ∧ 511 < limRom mbc5Header ∧
    (512 : Nat) = (if (512 : BitVec 16).toNat = 0 then 1 else (512 : BitVec 16).toNat) ∧ limRom mbc5Header ≤ 512 ∧
    (∃ bs t, play (seqOps (romSelectWrites (family mbc5Header) 511 (romBanks mbc5Header)))
      (scripted mbc5Header (good 2)) = .ok bs t) ∧
    (∃ e t, play (seqOps (romSelectWrites (family mbc5Header) 511 (romBanks mbc5Header)))
      (scripted mbc5Header [.ok 0, .err]) = .error e t) :=
  ⟨by decide +kernel, by decide +kernel, by decide, by decide +kernel, by decide, by decide +kernel, by decide,
    by decide +kernel, exists_ok (by decide +kernel), exists_error (by decide +kernel)⟩

theorem test_witness_SelectRamBankWritesTheBankRegisters :
    (scripted mbc1Header (good 2)).phase = .ready ∧ (scripted mbc1Header (good 2)).hdr = some mbc1Header ∧
    family romOnlyHeader = .romOnly ∧ family mbc2Header = .mbc2 ∧ limRam mbc1Header ≤ (4 : BitVec 16).toNat ∧
    family mbc1Header ≠ .romOnly ∧ family mbc1Header ≠ .mbc2 ∧ (3 : BitVec 16).toNat < limRam mbc1Header ∧
    (∃ bs t, play (seqOps (ramSelectWrites (family mbc1Header) 3)) (scripted mbc1Header (good 2)) = .ok bs t) ∧
    (∃ e t, play (seqOps (ramSelectWrites (family mbc1Header) 3)) (scripted mbc1Header [.err]) = .error e t) :=
  ⟨by decide +kernel, by decide +kernel, by decide, by decide, by decide +kernel, by decide, by decide,
    by decide +kernel, exists_ok (by decide +kernel), exists_error (by decide +kernel)⟩

theorem test_witness_SetAddrSetsTheAddress : (scripted mbc1Header []).phase = .ready := rfl

/-- A session at an address, with the flag ram_enabled. -/
def sessionAt (a : Option Addr) (on : Bool) (l : List ReadAnswer) : State :=
  { scripted mbc1Header l with addr := a, drv := ⟨1, 0, on⟩ }

theorem test_witness_ReadByteReturnsTheBusByte :
    (sessionAt none false []).phase = .ready ∧ (sessionAt none false []).addr = none ∧
    (∀ a : Addr, a = 0xA000 ∨ a = 0xBFFF → (sessionAt (some a) false []).addr = some a ∧
      ((0xA000 ≤ a.toNat ∧ a.toNat ≤ 0xBFFF) ∧ (sessionAt (some a) false []).drv.ramEnabled = false) ∧
      ¬((0xA000 ≤ a.toNat ∧ a.toNat ≤ 0xBFFF) ∧ (sessionAt (some a) true []).drv.ramEnabled = false)) ∧
    (∀ a : Addr, a = 0x0000 ∨ a = 0x9FFF ∨ a = 0xC000 ∨ a = 0xFFFF →
      ¬((0xA000 ≤ a.toNat ∧ a.toNat ≤ 0xBFFF) ∧ (sessionAt (some a) false []).drv.ramEnabled = false) ∧
      (sessionAt (some a) false [.ok 7]).bus.read [] a = (.ok 7, .unknown []) ∧
      (sessionAt (some a) false [.err]).bus.read [] a = (.err, .unknown [])) := by
  refine ⟨rfl, rfl, ?_, ?_⟩
  · rintro a (rfl | rfl) <;> decide +kernel
  · rintro a (rfl | rfl | rfl | rfl) <;> decide +kernel

theorem test_witness_WriteByteWritesTheBusByte :
    ((sessionAt none false []).phase = .ready ∧ (sessionAt none false []).addr = none) ∧
    (∀ a : Addr, a = 0x0000 ∨ a = 0x7FFF → (sessionAt (some a) true []).addr = some a ∧ a.toNat < 0x8000) ∧
    (∀ a : Addr, a = 0xA000 ∨ a = 0xBFFF → (sessionAt (some a) true []).addr = some a ∧
      0xA000 ≤ a.toNat ∧ a.toNat ≤ 0xBFFF ∧ (sessionAt (some a) false []).drv.ramEnabled = false ∧
      (sessionAt (some a) true []).drv.ramEnabled = true ∧
      (sessionAt (some a) true (good 1)).bus.write [.wait] a 9 = (.ok, .unknown []) ∧
      (sessionAt (some a) true [.err]).bus.write [.wait] a 9 = (.err, .unknown [])) ∧
    (∀ a : Addr, a = 0x8000 ∨ a = 0x9FFF ∨ a = 0xC000 ∨ a = 0xFFFF →
      ((0x8000 ≤ a.toNat ∧ a.toNat < 0xA000) ∨ 0xC000 ≤ a.toNat) ∧
      (sessionAt (some a) false (good 1)).bus.write [] a 9 = (.ok, .unknown []) ∧
      (sessionAt (some a) false [.err]).bus.write [] a 9 = (.err, .unknown [])) := by
  refine ⟨⟨rfl, rfl⟩, ?_, ?_, ?_⟩
  · rintro a (rfl | rfl) <;> decide +kernel
  · rintro a (rfl | rfl) <;> decide +kernel
  · rintro a (rfl | rfl | rfl | rfl) <;> decide +kernel

theorem test_witness_RomQueriesReportTheStateAndKeepIt :
    (scripted mbc5Header []).phase = .ready ∧ (scripted mbc5Header []).hdr = some mbc5Header := ⟨rfl, rfl⟩

/-- A reader two bytes before the first boundary of an MBC5 image. -/
def midStream (answers : List ReadAnswer) : State := { scripted mbc5Header answers with rd := ⟨0x3FFE, false⟩ }

theorem midStream_inv (answers : List ReadAnswer) : (midStream answers).Inv :=
  reader_inv headers_wf.2.2.2.2.2.1 (by decide) (fun he => by cases he) trivial

theorem test_witness_RomReadDeliversTheStream :
    (midStream (good 6)).Inv ∧ (midStream (good 6)).phase = .ready ∧ (midStream (good 6)).hdr = some mbc5Header ∧
    (4 : BitVec 24) ≠ 0 ∧ (midStream (good 6)).rd.cursor.toNat ≠ mbc5Header.romSize.toNat ∧
    4 = min (4 : BitVec 24).toNat (mbc5Header.romSize.toNat - (midStream (good 6)).rd.cursor.toNat) ∧
    (∀ j < 4, selectsAt ((midStream (good 6)).rd.cursor.toNat + j) →
      ((midStream (good 6)).rd.cursor.toNat + j) / 0x4000 < limRom mbc5Header) ∧
    ∃ bs t, play (romReadOps mbc5Header (midStream (good 6)).rd.cursor.toNat 4) (midStream (good 6)) = .ok bs t :=
  ⟨midStream_inv _, rfl, rfl, by decide, by decide +kernel, by decide +kernel, by decide +kernel,
    exists_ok (by decide +kernel)⟩

/-- A reader at the end of a RomOnly image. -/
def streamEnd : State := { scripted romOnlyHeader [] with rd := ⟨0x8000, false⟩ }

theorem streamEnd_inv : streamEnd.Inv :=
  reader_inv headers_wf.2.2.2.2.2.2 (by decide) (fun he => by cases he) trivial

theorem test_witness_RomReadReturnsZeroExactlyAtTheEnd :
    streamEnd.Inv ∧ streamEnd.phase = .ready ∧ streamEnd.hdr = some romOnlyHeader ∧ (1 : BitVec 24) ≠ 0 ∧
    streamEnd.rd.cursor.toNat = romOnlyHeader.romSize.toNat ∧ (midStream (good 6)).Inv ∧
    (midStream (good 6)).rd.cursor.toNat ≠ mbc5Header.romSize.toNat ∧
    ∃ t r, exec (.romRead 4) (midStream (good 6)) = .next t ∧ t.lastResult = some r ∧ r.status = .ok :=
  ⟨streamEnd_inv, rfl, rfl, by decide, by decide, midStream_inv _, by decide +kernel,
    after (exec (.romRead 4) (midStream (good 6))), ⟨.ok, 4, 0, false, none⟩, exec_after .., by decide +kernel, rfl⟩

theorem test_witness_RomReadAccountsForEveryByte :
    (midStream [.ok 1, .ok 2, .err]).Inv ∧ (midStream [.ok 1, .ok 2, .err]).phase = .ready ∧
    (midStream [.ok 1, .ok 2, .err]).hdr = some mbc5Header ∧
    ∃ t r, exec (.romRead 4) (midStream [.ok 1, .ok 2, .err]) = .next t ∧ t.lastResult = some r ∧
      r.status = .busError :=
  ⟨midStream_inv _, rfl, rfl, after (exec (.romRead 4) (midStream [.ok 1, .ok 2, .err])),
    ⟨.busError, 2, 0, false, none⟩, exec_after .., by decide +kernel, rfl⟩

/-- A RomOnly header that claims 64 KiB (vector R4a). -/
def romOnlyLarge : Header := header .romOnly 0x10000 0

/-- A reader of it two bytes before the bank it cannot select. -/
def nearStop (answers : List ReadAnswer) : State := { scripted romOnlyLarge answers with rd := ⟨0x7FFE, false⟩ }

theorem nearStop_inv (answers : List ReadAnswer) : (nearStop answers).Inv :=
  reader_inv (h := romOnlyLarge) (by decide +kernel) (by decide) (fun he => by cases he) trivial

theorem test_witness_RomReadStopsAtABankItCannotSelect :
    (let s : State := { scripted romOnlyLarge [] with rd := ⟨0x8000, false⟩ };
      s.phase = .ready ∧ s.hdr = some romOnlyLarge ∧ (1 : BitVec 24) ≠ 0 ∧
      s.rd.cursor.toNat < romOnlyLarge.romSize.toNat ∧ selectsAt s.rd.cursor.toNat ∧
      limRom romOnlyLarge ≤ s.rd.cursor.toNat / 0x4000) ∧
    (nearStop (good 2)).Inv ∧ (nearStop (good 2)).phase = .ready ∧ (nearStop (good 2)).hdr = some romOnlyLarge ∧
    2 < (3 : BitVec 24).toNat ∧ (nearStop (good 2)).rd.cursor.toNat + 2 < romOnlyLarge.romSize.toNat ∧
    selectsAt ((nearStop (good 2)).rd.cursor.toNat + 2) ∧
    limRom romOnlyLarge ≤ ((nearStop (good 2)).rd.cursor.toNat + 2) / 0x4000 ∧
    (∀ j < 2, selectsAt ((nearStop (good 2)).rd.cursor.toNat + j) →
      ((nearStop (good 2)).rd.cursor.toNat + j) / 0x4000 < limRom romOnlyLarge) ∧
    ∃ bs t, play (romReadOps romOnlyLarge (nearStop (good 2)).rd.cursor.toNat 2) (nearStop (good 2)) = .ok bs t :=
  ⟨by decide +kernel, nearStop_inv _, rfl, rfl, by decide, by decide +kernel, by decide +kernel, by decide +kernel,
    by decide +kernel, exists_ok (by decide +kernel)⟩

/-- R4a, two bytes before its end. -/
theorem test_rom_read_unselectable :
    let s := after (exec (.romRead 3) (nearStop [.ok 5, .ok 6]))
    answer s = some (.unsupportedOperation, 2, 0, false) ∧ s.rd.cursor = 0x8000 ∧ s.out = [5, 6] ∧ s.phase = .ready := by
  decide +kernel

theorem test_witness_StreamIsNotRestartable :
    streamEnd.Inv ∧ Instr.romRead 1 ≠ .makeRomReader ∧
    (∃ t, exec (.romRead 1) streamEnd = .next t) ∧
    (scripted mbc1Header (good 80)).Inv ∧ ∃ t, exec .makeRomReader (scripted mbc1Header (good 80)) = .next t ∧
      lastStatusIs .ok t :=
  ⟨streamEnd_inv, by decide, ⟨_, exec_after ..⟩, scripted_inv headers_wf.1 _,
    after (exec .makeRomReader (scripted mbc1Header (good 80))), exec_after ..,
    ⟨.ok, 0x8000, 0, false, some ⟨Vector.replicate 16 0, .romOnly, 0x8000, 0, 0⟩⟩, by decide +kernel, rfl⟩

theorem test_witness_TranslationAgreesWithTheStream :
    let s : State := { scripted mbc5Header (good 3) with rd := ⟨0x4000, false⟩ }
    s.phase = .ready ∧ s.hdr = some mbc5Header ∧ s.rd.cursor.toNat < mbc5Header.romSize.toNat ∧
    selectsAt s.rd.cursor.toNat ∧
    ∃ t u r, exec (.romRead 1) s = .next t ∧ lastStatusIs .ok t ∧ exec (.xlateRom s.rd.cursor) s = .next u ∧
      u.lastResult = some r :=
  ⟨rfl, rfl, by decide, by decide, after (exec (.romRead 1) { scripted mbc5Header (good 3) with rd := ⟨0x4000, false⟩ }),
    after (exec (.xlateRom 0x4000) { scripted mbc5Header (good 3) with rd := ⟨0x4000, false⟩ }),
    ⟨.ok, 1, 0x4000, true, none⟩, exec_after .., ⟨⟨.ok, 1, 0, false, none⟩, by decide +kernel, rfl⟩, exec_after .., by decide +kernel⟩

/-- How many bus requests a sequence makes. -/
def requests (ops : List BusOp) : Nat :=
  ops.countP fun op => match op with
    | .read | .write _ => true
    | .setAddr _ | .wait => false

/-- A bus that answers every request well plays any sequence to its end, once an address is set. -/
theorem play_good (ops : List BusOp) : ∀ (s : State) (n : Nat), s.bus = .unknown (good n) → s.addr ≠ none →
    requests ops ≤ n → ∃ bs t, play ops s = .ok bs t := by
  induction ops with
  | nil => exact fun s _ _ _ _ => ⟨[], s, rfl⟩
  | cons op ops ih =>
    intro s n hb ha hn
    obtain ⟨a, ha⟩ := Option.ne_none_iff_exists'.mp ha
    cases op with
    | setAddr b => exact ih _ n hb (by simp) (by simpa [requests] using hn)
    | wait => exact ih _ n hb (by simp [State.record, ha]) (by simpa [requests] using hn)
    | read =>
      obtain _ | n := n
      · simp [requests] at hn
      · have hr : busRead s = .ok 0 { s.record (.read a (.ok 0)) with bus := .unknown (good n) } := by
          simp only [busRead, ha, hb]; rfl
        obtain ⟨bs, t, ht⟩ := ih { s.record (.read a (.ok 0)) with bus := .unknown (good n) } n rfl
          (by simp [State.record, ha]) (by simpa [requests] using hn)
        exact ⟨0 :: bs, t, bind_eq_ok.mpr ⟨0, _, hr, bind_eq_ok.mpr ⟨bs, t, ht, rfl⟩⟩⟩
    | write v =>
      obtain _ | n := n
      · simp [requests] at hn
      · have hr : busWrite v s = .ok () { s.record (.write a v .ok) with bus := .unknown (good n) } := by
          simp only [busWrite, ha, hb]; rfl
        obtain ⟨bs, t, ht⟩ := ih { s.record (.write a v .ok) with bus := .unknown (good n) } n rfl
          (by simp [State.record, ha]) (by simpa [requests] using hn)
        exact ⟨bs, t, bind_eq_ok.mpr ⟨(), _, hr, ht⟩⟩

theorem requests_append (xs ys : List BusOp) : requests (xs ++ ys) = requests xs + requests ys :=
  List.countP_append ..

theorem requests_flatMap {f : Nat → List BusOp} {c : Nat} (h : ∀ i, requests (f i) = c) (l : List Nat) :
    requests (l.flatMap f) = l.length * c := by
  induction l with
  | nil => simp [requests]
  | cons i l ih => rw [List.flatMap_cons, requests_append, h, ih, List.length_cons, Nat.add_mul, Nat.one_mul, Nat.add_comm]

theorem test_witness_RamDumpEmitsTheRamImage :
    (scripted mbc1Small (good 8194)).phase = .ready ∧ (scripted mbc1Small (good 8194)).hdr = some mbc1Small ∧
    bankLimitOk mbc1Small ∧ ∃ bs t, play (dumpOps mbc1Small) (scripted mbc1Small (good 8194)) = .ok bs t :=
  ⟨rfl, rfl, by decide +kernel, play_good _ _ 8194 rfl (by simp [scripted, ready]) (by
    have hb : ∀ b, requests (dumpBankOps mbc1Small b) = 8192 := fun b => by
      unfold dumpBankOps
      rw [requests_append, requests_flatMap (c := 1) fun _ => rfl, List.length_range]
      have : accessSelectOps mbc1Small b = [] := by
        unfold accessSelectOps
        rw [if_neg (by decide +kernel)]
      rw [this]; rfl
    unfold dumpOps
    rw [requests_append, requests_append, requests_flatMap hb]
    decide +kernel)⟩

/-- A dump of every bank of a cartridge, when what it issues is played, returns OK. -/
theorem exec_ramDump_ok {s : State} {h : Header} (hp : s.phase = .ready) (hh : s.hdr = some h) (hl : bankLimitOk h)
    (hd : ∃ bs t, play (dumpOps h) s = .ok bs t) : ∃ t, exec .ramDump s = .next t ∧ lastStatusIs .ok t := by
  obtain ⟨_, _, hd⟩ := hd
  obtain ⟨r, u, hr⟩ := ramDumpOp_returns hl hd
  have h₁ : requireSession s = .ok () s := by simp [requireSession, hp]
  have h₂ : sessionHeader s = .ok h s := by simp [sessionHeader, hh]
  refine ⟨u.respond (okResult r), ?_, okResult r, rfl, rfl⟩
  show Host.Outcome.next (complete ((requireSession >>= fun _ => sessionHeader >>= ramDumpOp) s)) = _
  rw [bind_of_ok h₁, bind_of_ok h₂, hr]
  rfl

theorem dump_four_banks :
    ∃ bs t, play (dumpOps mbc1Header) (scripted mbc1Header (good 32778)) = .ok bs t :=
  play_good _ _ 32778 rfl (by simp [scripted, ready]) (by
    have hb : ∀ b, requests (dumpBankOps mbc1Header b) = 8194 := fun b => by
      unfold dumpBankOps accessSelectOps
      have hs : requests (seqOps (ramSelectWrites (family mbc1Header) b)) = 2 := rfl
      rw [requests_append, requests_flatMap (c := 1) fun _ => rfl, List.length_range, if_pos (by decide +kernel), hs]
    unfold dumpOps
    rw [requests_append, requests_append, requests_flatMap hb]
    decide +kernel)

/-- A dump that fails at the second byte of its first bank. -/
def shortDump : State := scripted mbc1Header (good 3 ++ [.ok 0x12, .err])

theorem test_witness_TranslationAgreesWithTheStream_ram :
    (scripted mbc1Header (good 32778)).phase = .ready ∧ (scripted mbc1Header (good 32778)).hdr = some mbc1Header ∧
    needSelect mbc1Header = true ∧
    (∃ t, exec .ramDump (scripted mbc1Header (good 32778)) = .next t ∧ lastStatusIs .ok t) ∧
    shortDump.phase = .ready ∧ shortDump.hdr = some mbc1Header ∧
    ∃ t evs, exec .ramDump shortDump = .next t ∧ t.revTrace = evs ++ shortDump.revTrace ∧
      (windowAccesses none evs.reverse)[(1 : BitVec 24).toNat]? = some (some 0, 0xA001) ∧
      ∃ u r, exec (.xlateRam 1) shortDump = .next u ∧ u.lastResult = some r :=
  ⟨rfl, rfl, by decide +kernel, exec_ramDump_ok rfl rfl (by decide +kernel) dump_four_banks, rfl, rfl,
    after (exec .ramDump shortDump), (after (exec .ramDump shortDump)).revTrace, exec_after ..,
    (List.append_nil _).symm, by decide +kernel, after (exec (.xlateRam 1) shortDump),
    ⟨.ok, 0, 0xA001, true, none⟩, exec_after .., by decide +kernel⟩

/-- The first byte of bank 1: the access stands after the select of bank 1. -/
theorem test_witness_TranslationAgreesWithTheStream_bank_one :
    (windowAccesses none (after (exec .ramDump
      (scripted mbc1Header (good 8197 ++ [.err])))).revTrace.reverse)[(0x2000 : BitVec 24).toNat]? =
      some (some 1, 0xA000) := by decide +kernel

/-- A session with an input of three bytes that ends there. -/
def shortInput (answers : List ReadAnswer) : State :=
  { scripted mbc1Small answers with input := ⟨[0x11, 0x22, 0x33], false⟩ }

theorem test_witness_RamRestoreWritesThePaddedInput :
    (shortInput (good 8195)).phase = .ready ∧ (shortInput (good 8195)).hdr = some mbc1Small ∧ mbc1Small.ramSize ≠ 0 ∧
    bankLimitOk mbc1Small ∧
    (ramBanks mbc1Small * 0x2000 ≤ (shortInput (good 8195)).input.bytes.length ∨
      (shortInput (good 8195)).input.fails = false) ∧
    ∃ bs t, play (restoreOps mbc1Small (shortInput (good 8195)).input.bytes) (shortInput (good 8195)) = .ok bs t :=
  ⟨rfl, rfl, by decide, by decide +kernel, .inr rfl,
    play_good _ _ 8195 rfl (by simp [shortInput, scripted, ready]) (by
      have hb : ∀ b, requests (restoreBankOps mbc1Small (shortInput (good 8195)).input.bytes b) = 8192 := fun b => by
        unfold restoreBankOps
        rw [requests_append, requests_flatMap (c := 1) fun _ => rfl, List.length_range]
        have : accessSelectOps mbc1Small b = [] := by
          unfold accessSelectOps
          rw [if_neg (by decide +kernel)]
        rw [this]; rfl
      unfold restoreOps restorePrefixOps
      rw [requests_append, requests_append, requests_append, requests_flatMap hb]
      decide +kernel)⟩

/-- A session of four RAM banks with an input that fails before its first bank is full. -/
def failingInput : State := { scripted mbc1Header (good 4) with input := ⟨[0x11, 0x22, 0x33], true⟩ }

theorem failingInput_inv : failingInput.Inv :=
  inv_of_session rfl rfl rfl (by simp [failingInput, scripted, ready]) ⟨Nat.le_refl 1, by show 1 ≤ 511; decide⟩
    (Nat.zero_le _) ⟨headers_wf.1, .inl rfl, .inl rfl, Nat.zero_le _, fun he => by cases he⟩ trivial

theorem test_witness_RamRestoreFailsWhereItsInputFails :
    failingInput.phase = .ready ∧ failingInput.hdr = some mbc1Header ∧ bankLimitOk mbc1Header ∧
    failingInput.input.fails = true ∧ failingInput.input.bytes.length < ramBanks mbc1Header * 0x2000 ∧
    0 = failingInput.input.bytes.length / 0x2000 ∧
    ∃ bs t, play (restorePrefixOps mbc1Header failingInput.input.bytes 0 ++ accessSelectOps mbc1Header 0)
      failingInput = .ok bs t :=
  ⟨rfl, rfl, by decide +kernel, rfl, by decide +kernel, by decide, exists_ok (by decide +kernel)⟩

theorem test_witness_AccessorsAccountForEveryByte :
    (scripted mbc1Header (good 3 ++ [.ok 0x12, .err])).Inv ∧
    (∃ t r, t.lastResult = some r ∧ exec .ramDump (scripted mbc1Header (good 3 ++ [.ok 0x12, .err])) = .next t ∧
      r.value.toNat = 1) ∧
    (scripted mbc1Header (good 5 ++ [.err])).Inv ∧
    (∃ t r, t.lastResult = some r ∧ exec .ramRestore (scripted mbc1Header (good 5 ++ [.err])) = .next t ∧
      r.value.toNat = 1) ∧
    (∀ l ∈ [[.ok 0, .err], [.err]], (scripted mbc2Header l).Inv ∧ (scripted mbc2Header l).phase = .ready ∧
      (scripted mbc2Header l).hdr = some mbc2Header ∧
      ∃ t r, t.lastResult = some r ∧ exec .ramDump (scripted mbc2Header l) = .next t ∧ r.status = .busError) ∧
    failingInput.Inv ∧
    ∃ t r, t.lastResult = some r ∧ exec .ramRestore failingInput = .next t ∧ r.status = .fileIoError :=
  ⟨scripted_inv headers_wf.1 _,
    ⟨after (exec .ramDump (scripted mbc1Header (good 3 ++ [.ok 0x12, .err]))), ⟨.busError, 1, 0, false, none⟩,
      by decide +kernel, exec_after .., by decide⟩,
    scripted_inv headers_wf.1 _,
    ⟨after (exec .ramRestore (scripted mbc1Header (good 5 ++ [.err]))), ⟨.busError, 1, 0, false, none⟩,
      by decide +kernel, exec_after .., by decide⟩,
    fun l hl => ⟨scripted_inv headers_wf.2.2.2.1 _, rfl, rfl, after (exec .ramDump (scripted mbc2Header l)),
      ⟨.busError, 0, 0, false, none⟩, by revert l; decide +kernel, exec_after .., rfl⟩,
    failingInput_inv, after (exec .ramRestore failingInput), ⟨.fileIoError, 0, 0, false, none⟩, by decide +kernel,
    exec_after .., rfl⟩

/-- The first and the last write of a dump of a cartridge with no RAM fail: the flag as the enable write left it. -/
theorem test_ram_dump_flag :
    (after (exec .ramDump (scripted mbc2Header [.ok 0, .err]))).drv.ramEnabled = true ∧
    (after (exec .ramDump (scripted mbc2Header [.err]))).drv.ramEnabled = false := by decide +kernel

theorem test_witness_ZeroRamRestoreDoesNothing :
    (scripted mbc2Header []).phase = .ready ∧ (scripted mbc2Header []).hdr = some mbc2Header ∧
    mbc2Header.ramSize = 0 := ⟨rfl, rfl, rfl⟩

theorem test_witness_BankLimitCheckComesFirst :
    (let h := header .mbc1RamBattery 0x10000 0x20000;
      (scripted h []).phase = .ready ∧ (scripted h []).hdr = some h ∧ needSelect h = true ∧
      params.famMaxRamBanks (family h) < ramBanks h ∧ needSelect mbc5Header = true ∧ bankLimitOk mbc5Header ∧
      15 < ramBanks mbc5Header) ∧
    (scripted mbc5Header [.err]).phase = .ready ∧ (scripted mbc5Header [.err]).hdr = some mbc5Header ∧
    (∃ t, exec .ramDump (scripted mbc5Header [.err]) = .next t) ∧
    ∃ t, exec .ramRestore (scripted mbc5Header [.err]) = .next t :=
  ⟨by decide +kernel, rfl, rfl, ⟨_, exec_after ..⟩, _, exec_after ..⟩

theorem test_witness_TakeInputGivesChunksUntilTheEnd :
    failingInput.hdr = some mbc1Header ∧ (∃ t, exec .ramRestore failingInput = .next t) ∧
    3 ≤ (shortInput []).input.bytes.length ∧ (shortInput []).input.bytes.length < 4 ∧
    (shortInput []).input.fails = false ∧ failingInput.input.bytes.length < 4 ∧ failingInput.input.fails = true :=
  ⟨rfl, ⟨_, exec_after ..⟩, by decide, by decide, rfl, by decide, rfl⟩

theorem test_witness_AccessorLeavesRamDisabled :
    let s := { scripted mbc2Header (good 2) with drv := ⟨1, 0, true⟩ }
    s.phase = .ready ∧ s.hdr = some mbc2Header ∧ mbc1Small.ramSize ≠ 0 ∧
    ∃ t, exec .ramDump s = .next t ∧ lastStatusIs .ok t :=
  ⟨rfl, rfl, by decide, after (exec .ramDump { scripted mbc2Header (good 2) with drv := ⟨1, 0, true⟩ }), exec_after ..,
    ⟨.ok, 0, 0, false, none⟩, by decide +kernel, rfl⟩

theorem test_witness_TranslationDividesByTheBankSize :
    (scripted mbc1Header []).phase = .ready ∧ (scripted mbc1Header []).hdr = some mbc1Header := ⟨rfl, rfl⟩

theorem test_witness_EveryCommandReturnsOneResult :
    ∃ t r, exec .ramDump faulted = .next t ∧ t.revResults = r :: faulted.revResults ∧ r.status ≠ .ok :=
  ⟨_, ⟨.sessionFaulted, 0, 0, false, none⟩, rfl, rfl, by decide⟩

theorem test_witness_FaultedSessionRefusesEveryCommand :
    faulted.phase = .faulted ∧ (∃ t, step faulted = .next t) ∧ ∃ t, step { faulted with host := [.reset] } = .next t :=
  ⟨rfl, ⟨_, rfl⟩, _, rfl⟩

theorem test_witness_NoSessionRefusesDriverCommands :
    State.reset.phase = .noSession ∧ Instr.readByte ≠ .parseHeader ∧ Instr.readByte ≠ .makeRomReader := by
  decide +kernel

theorem test_witness_FatalErrorsFaultTheSession :
    (∃ t r, exec .readByte (scripted mbc1Header [.err]) = .next t ∧ t.lastResult = some r ∧ r.status = .busError) ∧
    (∃ t r, exec .ramRestore failingInput = .next t ∧ t.lastResult = some r ∧ r.status = .fileIoError) ∧
    ∃ t r, exec .romStatus (scripted mbc1Header []) = .next t ∧ t.lastResult = some r ∧ r.status ≠ .busError ∧
      r.status ≠ .fileIoError :=
  ⟨⟨after (exec .readByte (scripted mbc1Header [.err])), ⟨.busError, 0, 0, false, none⟩, exec_after .., by decide +kernel, rfl⟩,
    ⟨after (exec .ramRestore failingInput), ⟨.fileIoError, 0, 0, false, none⟩, exec_after .., by decide +kernel, rfl⟩,
    ⟨after (exec .romStatus (scripted mbc1Header [])), ⟨.ok, 0, 1, false, none⟩, exec_after .., by decide +kernel, by decide,
      by decide⟩⟩

theorem test_witness_OtherErrorsChangeNothing :
    ∃ t r, exec (.selectRamBank 4) (scripted mbc1Header []) = .next t ∧ t.lastResult = some r ∧ r.status ≠ .ok ∧
      r.status ≠ .busError ∧ r.status ≠ .fileIoError ∧
      ((∀ cap, Instr.selectRamBank 4 ≠ .romRead cap) ∨ r.status ≠ .unsupportedOperation) :=
  ⟨after (exec (.selectRamBank 4) (scripted mbc1Header [])), ⟨.unsupportedOperation, 0, 0, false, none⟩, exec_after ..,
    by decide +kernel, by decide, by decide, by decide, .inl fun _ h => by cases h⟩

theorem test_witness_HeaderIsWrittenByMakeRomReaderAlone :
    ∃ t, exec .parseHeader (scripted mbc1Header (good 80)) = .next t ∧ lastStatusIs .ok t :=
  ⟨after (exec .parseHeader (scripted mbc1Header (good 80))), exec_after ..,
    ⟨.ok, 0x8000, 0, false, some ⟨Vector.replicate 16 0, .romOnly, 0x8000, 0, 0⟩⟩, by decide +kernel, rfl⟩

theorem test_witness_CommandsWriteOnlyTheirOwnFields :
    (∃ t, exec (.xlateRom 1) (scripted mbc1Header []) = .next t) ∧
    (∃ t, exec (.setAddr 1) (scripted mbc1Header []) = .next t) ∧
    ∃ t, exec .parseHeader (scripted mbc1Header [.err]) = .next t :=
  ⟨⟨_, exec_after ..⟩, ⟨_, exec_after ..⟩, _, exec_after ..⟩

theorem test_witness_PassThroughNeverWritesAControlRegister :
    ∃ t, exec (.writeByte 9) { scripted mbc1Header [] with addr := some 0x2000 } = .next t := ⟨_, exec_after ..⟩

theorem test_witness_WritesGoToTheTablesRegisters :
    (∃ t, exec (.selectRomBank 2) (scripted mbc1Header (good 1)) = .next t) ∧
    (scripted romOnlyHeader []).hdr = some romOnlyHeader ∧ family romOnlyHeader = .romOnly ∧
    ∃ t, exec .enableRam (scripted romOnlyHeader []) = .next t := ⟨⟨_, exec_after ..⟩, rfl, rfl, _, exec_after ..⟩

theorem test_witness_SettleWaitsBracketEveryRamWrite :
    settled [.wait, .write 0xA000 1 .ok, .wait] = true ∧ settled [.write 0xA000 1 .err, .wait] = true ∧
    settled [.write 0xA000 1 .ok, .wait] = false ∧ settled State.reset.revTrace = true ∧
    ∃ t, step State.reset = .next t := ⟨by decide +kernel, by decide +kernel, by decide +kernel, rfl, _, rfl⟩

/-- A reference cartridge with one bank of RAM, in a session with its header. -/
def smallCart : RefCart := cart 0x03 0x01 0x02 [] []

theorem smallCart_wf : (BusSide.reference smallCart).wf := by
  show Memory.wf ramFill smallCart.ram ∧ Memory.wf romPattern smallCart.rom
  decide +kernel

theorem smallCart_inv : (ready mbc1Small (.reference smallCart)).Inv :=
  reader_inv headers_wf.2.1 (r := ⟨0, false⟩) (Nat.zero_le _) (fun he => by cases he) smallCart_wf

theorem smallCart_fits : CartFits smallCart mbc1Small := ⟨by decide +kernel, by decide +kernel, by decide +kernel, rfl⟩

/-- A session on it with RAM enabled, at an address. -/
def cartAt (a : Option Addr) : State :=
  { ready mbc1Small (.reference { smallCart with ramg := true }) with addr := a, drv := ⟨1, 0, true⟩ }

theorem cartAt_inv (a : Addr) : (cartAt (some a)).Inv :=
  inv_of_session rfl rfl rfl (by simp [cartAt]) ⟨Nat.le_refl 1, by show 1 ≤ 511; decide⟩ (Nat.zero_le _)
    ⟨headers_wf.2.1, .inl rfl, .inl rfl, Nat.zero_le _, fun he => by cases he⟩ smallCart_wf

theorem test_witness_OnlyRamWritesChangeCartridgeRam :
    (∀ a : Addr, a = 0xA000 ∨ a = 0xBFFF ∨ a = 0xC000 → (cartAt (some a)).Inv ∧ (cartAt (some a)).addr = some a ∧
      (cartAt (some a)).bus = .reference { smallCart with ramg := true } ∧
      ∃ t, exec (.writeByte 1) (cartAt (some a)) = .next t) ∧
    RefCart.ramVisible { smallCart with ramg := true } 0xC000 = false ∧
    RefCart.ramVisible { smallCart with ramg := true } 0xBFFF = true ∧
    (5 : Nat) ≠ RefCart.ramOffset { smallCart with ramg := true } 0xBFFF ∧
    (ready mbc1Small (.reference smallCart)).Inv ∧
    (ready mbc1Small (.reference smallCart)).bus = .reference smallCart ∧
    (ready mbc1Small (.reference smallCart)).hdr = some mbc1Small ∧
    (∃ t, exec .ramRestore (ready mbc1Small (.reference smallCart)) = .next t) ∧
    ∀ b < ramBanks mbc1Small, ∀ k < 0x2000,
      (smallCart.storeAll (restoreSetup mbc1Small b)).ramVisible (ramWindowAddr k) = true →
      0x2000 ≠ (smallCart.storeAll (restoreSetup mbc1Small b)).ramOffset (ramWindowAddr k) := by
  refine ⟨fun a _ => ⟨cartAt_inv a, rfl, rfl, _, exec_after ..⟩, by decide +kernel, by decide +kernel,
    by decide +kernel, smallCart_inv, rfl, rfl, ⟨_, exec_after ..⟩, fun b _ k _ _ he => ?_⟩
  have hs : (smallCart.storeAll (restoreSetup mbc1Small b)).ramSize = 0x2000 :=
    (smallCart.storeAll_ramSize _).trans (by decide +kernel)
  have := Nat.mod_lt ((smallCart.storeAll (restoreSetup mbc1Small b)).ramBank * ramBankSize +
    ((ramWindowAddr k).toNat - ramWindowBase)) (show 0 < 0x2000 by decide)
  rw [RefCart.ramOffset, hs] at he
  omega

/-- T5 on the cartridge: the byte S.addr shows is stored, and one past the window changes nothing. -/
theorem test_write_byte_stores :
    (match (after (exec (.writeByte 0x5A) (cartAt (some 0xA000)))).bus with
      | .reference c => c.ram
      | .unknown _ => []) = [(0, 0x5A)] ∧
    (match (after (exec (.writeByte 0x5A) (cartAt (some 0xC000)))).bus with
      | .reference c => c.ram
      | .unknown _ => [(9, 9)]) = [] := by decide +kernel

theorem test_witness_EveryStepKeepsTheInvariant :
    (midStream []).Inv ∧ faulted.Inv ∧ (∃ t, step (midStream []) = .next t) ∧ ∃ t, step faulted = .next t :=
  ⟨midStream_inv _, faulted_inv, ⟨_, rfl⟩, _, rfl⟩

theorem test_witness_AddressUnsetNeverOccursInASession :
    (scripted mbc1Header (good 1)).Inv ∧ ∃ t, exec .readByte (scripted mbc1Header (good 1)) = .next t :=
  ⟨scripted_inv headers_wf.1 _, _, exec_after ..⟩

theorem test_witness_HeaderCommandsReadTheCartridgeHeader :
    (inserted smallCart).phase ≠ .faulted ∧ (inserted smallCart).bus = .reference smallCart ∧
    smallCart.failures = [] := ⟨by decide, rfl, rfl⟩

theorem test_witness_FreshStreamDeliversTheRomImage :
    (ready mbc1Small (.reference smallCart)).Inv ∧ (ready mbc1Small (.reference smallCart)).phase = .ready ∧
    (ready mbc1Small (.reference smallCart)).hdr = some mbc1Small ∧
    (ready mbc1Small (.reference smallCart)).bus = .reference smallCart ∧ CartFits smallCart mbc1Small ∧
    (ready mbc1Small (.reference smallCart)).rd.cursor = 0 ∧
    romBanks mbc1Small ≤ params.famMaxRomBanks (family mbc1Small) :=
  ⟨smallCart_inv, rfl, rfl, rfl, smallCart_fits, rfl, by decide +kernel⟩

theorem test_witness_RestoreThenDumpEmitsThePaddedInput :
    (ready mbc1Small (.reference smallCart)).Inv ∧ (ready mbc1Small (.reference smallCart)).phase = .ready ∧
    (ready mbc1Small (.reference smallCart)).hdr = some mbc1Small ∧
    (ready mbc1Small (.reference smallCart)).bus = .reference smallCart ∧ CartFits smallCart mbc1Small ∧
    mbc1Small.ramSize ≠ 0 ∧ bankLimitOk mbc1Small ∧ (needSelect mbc1Small = true ∨ ramBanks mbc1Small = 1) ∧
    (mbc1Small.ramSize.toNat ≤ (ready mbc1Small (.reference smallCart)).input.bytes.length ∨
      (ready mbc1Small (.reference smallCart)).input.fails = false) :=
  ⟨smallCart_inv, rfl, rfl, rfl, smallCart_fits, by decide, by decide +kernel, .inr (by decide +kernel), .inr rfl⟩

end Sys2Proof.Tests
end

section
/-! The command frame. Every command is one procedure run to its end (00_scope.md R18), so what holds of all commands is
said here once: the relations between the state before and the state after that a command's procedure keeps, which
commands raise their errors before they have moved a data byte (30_encoding.md R104), and the two statements that follow. -/

namespace Sys2Proof.Machine

variable {α β : Type}

/-! ### The procedure of a command -/

/-- A command that runs in a session: its checks, and then its body on the session header (60_exceptions.md R271). -/
def inSession (body : Header → Proc Reply) : Proc Reply := do
  requireSession
  let h ← sessionHeader
  body h

/-- The procedure each command runs; `exec_eq_runCommand` ties it to `exec`. -/
def commandProc : Instr → Proc Reply
  | .parseHeader => do
    requireNotFaulted
    let h ← readHeader
    pure (headerReply h)
  | .makeRomReader => do
    requireNotFaulted
    let h ← readHeader
    modifyState (openSession h)
    pure (headerReply h)
  | .enableRam => inSession fun h => do
    enableRamOp (family h)
    pure Reply.nothing
  | .disableRam => inSession fun h => do
    disableRamOp (family h)
    pure Reply.nothing
  | .selectRomBank n => inSession fun h => do
    selectRomOp h (bankOperand n)
    pure Reply.nothing
  | .selectRamBank n => inSession fun h => do
    selectRamOp h (bankOperand n)
    pure Reply.nothing
  | .setAddr a => do
    requireSession
    busSetAddr (addrOperand a)
    pure Reply.nothing
  | .readByte => do
    requireSession
    let _ ← readByteAddr
    let v ← busRead
    pure (Reply.ofValue (zext32 v))
  | .writeByte v => do
    requireSession
    let a ← writeByteAddr
    if isRamWindow a then settledWrite (dataOperand v) else busWrite (dataOperand v)
    pure Reply.nothing
  | .romSize => inSession fun h => pure (Reply.ofValue h.romSize)
  | .romStatus => fun s =>
    (do
      requireSession
      pure (statusReply s) : Proc Reply) s
  | .romRead cap => inSession fun h => romReadOp h (countOperand cap)
  | .ramDump => inSession ramDumpOp
  | .ramRestore => inSession ramRestoreOp
  | .xlateRom o => inSession fun h =>
    pure (translateReply (romBankOf (offsetOperand o)) (romBusAddr (offsetOperand o)) (offsetOperand o) h.romSize)
  | .xlateRam o => inSession fun h =>
    pure (translateReply (ramBankOf (offsetOperand o)) (ramBusAddr (offsetOperand o)) (offsetOperand o) h.ramSize)

theorem exec_eq_runCommand (i : Instr) (s : State) : exec i s = runCommand (commandProc i) s := by
  cases i <;> rfl

/-! ### Relations the commands keep -/

/-- A relation that the bus accesses and the writes of S.drv keep. -/
structure DriverSteady (R : State → State → Prop) : Prop extends BusSteady R where
  driver : ∀ s (f : Driver → Driver), R s { s with drv := f s.drv }

/-- A relation that everything a command does inside a session keeps: the driver's operations, and the writes of S.rd,
S.out and S.in. -/
structure CommandSteady (R : State → State → Prop) : Prop extends DriverSteady R where
  reader : ∀ s r, R s { s with rd := r }
  output : ∀ s v, R s { s with revOut := v :: s.revOut }
  input  : ∀ s bytes, R s { s with input := { s.input with bytes := bytes } }

section
variable {R : State → State → Prop}

theorem keeps_readByteAddr (hR : Steady R) : Keeps R readByteAddr := fun s => by
  rw [readByteAddr_stays]; exact hR.refl s

theorem keeps_writeByteAddr (hR : Steady R) : Keeps R writeByteAddr := fun s => by
  rw [writeByteAddr_stays]; exact hR.refl s

theorem keeps_inSession (hR : Steady R) {body : Header → Proc Reply} (hb : ∀ h, Keeps R (body h)) :
    Keeps R (inSession body) :=
  keeps_bind hR (keeps_requireSession hR) fun _ => keeps_bind hR (keeps_sessionHeader hR) hb

/-- A body that runs an operation and returns a fixed reply. -/
theorem keeps_then_pure (hR : Steady R) {p : Proc α} (hp : Keeps R p) (b : β) : Keeps R (do let _ ← p; pure b) :=
  keeps_bind hR hp fun _ => keeps_pure hR b

end

section
variable {R : State → State → Prop} (hR : DriverSteady R)
include hR

theorem keeps_modifyDriver (f : Driver → Driver) : Keeps R (modifyDriver f) :=
  keeps_modifyState fun s => hR.driver s f

theorem keeps_runSeq_modifyDriver (seq : List (Addr × Byte)) (f : Driver → Driver) :
    Keeps R (do runSeq seq; modifyDriver f) :=
  keeps_bind hR.toSteady (keeps_runSeq hR.toBusSteady seq) fun _ => keeps_modifyDriver hR f

theorem keeps_enableRamOp (f : Family) : Keeps R (enableRamOp f) := keeps_runSeq_modifyDriver hR _ _

theorem keeps_disableRamOp (f : Family) : Keeps R (disableRamOp f) := keeps_runSeq_modifyDriver hR _ _

theorem keeps_selectRomOp (h : Header) (n : Nat) : Keeps R (selectRomOp h n) :=
  keeps_ite (keeps_raise hR.toSteady _) (keeps_runSeq_modifyDriver hR _ _)

theorem keeps_selectRamOp (h : Header) (n : Nat) : Keeps R (selectRamOp h n) :=
  keeps_ite (keeps_raise hR.toSteady _)
    (keeps_ite (keeps_raise hR.toSteady _) (keeps_runSeq_modifyDriver hR _ _))

theorem keeps_selectForAccess (h : Header) (b : Nat) : Keeps R (selectForAccess h b) :=
  keeps_ite (keeps_selectRamOp hR h b) (keeps_pure hR.toSteady ())

theorem keeps_bankLimitCheck (h : Header) : Keeps R (bankLimitCheck h) :=
  keeps_ite (keeps_raise hR.toSteady _) (keeps_pure hR.toSteady ())

end

section
variable {R : State → State → Prop} (hR : CommandSteady R)
include hR

theorem keeps_emit (v : Byte) : Keeps R (emit v) := keeps_modifyState fun s => hR.output s v

theorem keeps_modifyReader (f : Reader → Reader) : Keeps R (modifyReader f) :=
  keeps_modifyState fun s => hR.reader s (f s.rd)

theorem keeps_takeInput (k : Nat) : Keeps R (takeInput k) := by
  intro s
  rcases takeInput_cases k s with ⟨_, h⟩ | ⟨_, _, h⟩ | ⟨_, _, h⟩
  · rw [stateAfter_of_ok h]; exact hR.input s _
  · rw [stateAfter_of_error h]; exact hR.refl s
  · rw [stateAfter_of_ok h]; exact hR.input s _

theorem keeps_dumpBank (h : Header) (b : Nat) : Keeps R (dumpBank h b) :=
  keeps_bind hR.toSteady (keeps_selectForAccess hR.toDriverSteady h b) fun _ =>
    keeps_forBytes hR.toSteady
      (fun _ => keeps_bind hR.toSteady (keeps_memRead hR.toBusSteady _) fun _ => keeps_emit hR _) _ _ _

theorem keeps_restoreBank (h : Header) (b : Nat) : Keeps R (restoreBank h b) :=
  keeps_bind hR.toSteady (keeps_selectForAccess hR.toDriverSteady h b) fun _ =>
    keeps_bind hR.toSteady (keeps_takeInput hR _) fun _ =>
      keeps_forBytes hR.toSteady
        (fun _ => keeps_bind hR.toSteady (keeps_busSetAddr hR.toBusSteady _) fun _ =>
          keeps_settledWrite hR.toBusSteady _) _ _ _

/-- The part RAM_DUMP and RAM_RESTORE share: enable, move the banks, disable (43_ram_accessor.md R232, R237). -/
theorem keeps_accessBanks (f : Family) {body : Nat → Proc Unit} (hb : ∀ b, Keeps R (body b)) (size banks moved : Nat)
    (r : Reply) :
    Keeps R (do
      enableRamOp f
      forBanks size body banks 0
      withMoved moved (disableRamOp f)
      pure r) :=
  keeps_bind hR.toSteady (keeps_enableRamOp hR.toDriverSteady f) fun _ =>
    keeps_bind hR.toSteady (keeps_forBanks hR.toSteady hb banks 0) fun _ =>
      keeps_then_pure hR.toSteady (keeps_withMoved moved (keeps_disableRamOp hR.toDriverSteady f)) r

theorem keeps_ramDumpOp (h : Header) : Keeps R (ramDumpOp h) :=
  keeps_bind hR.toSteady (keeps_bankLimitCheck hR.toDriverSteady h) fun _ =>
    keeps_accessBanks hR _ (keeps_dumpBank hR h) _ _ _ _

theorem keeps_ramRestoreOp (h : Header) : Keeps R (ramRestoreOp h) :=
  keeps_ite (keeps_pure hR.toSteady _)
    (keeps_bind hR.toSteady (keeps_bankLimitCheck hR.toDriverSteady h) fun _ =>
      keeps_bind hR.toSteady (keeps_preWriteFix hR.toBusSteady _) fun _ =>
        keeps_accessBanks hR _ (keeps_restoreBank hR h) _ _ _ _)

theorem keeps_readRomByte (h : Header) : Keeps R (readRomByte h) := by
  have hturn : ∀ c : BitVec 24, Keeps R (do
      if atRomBoundary c.toNat then selectRomOp h (romBankOf c.toNat)
      let v ← memRead (romBusAddr c.toNat)
      emit v
      modifyReader fun r => { r with cursor := c + 1 }) := fun c => by
    have hread := keeps_bind hR.toSteady (keeps_memRead hR.toBusSteady (romBusAddr c.toNat)) fun v =>
      keeps_bind hR.toSteady (keeps_emit hR v) fun _ => keeps_modifyReader hR fun r => { r with cursor := c + 1 }
    exact keeps_ite
      (keeps_bind hR.toSteady (keeps_selectRomOp hR.toDriverSteady h _) fun _ => hread) hread
  exact fun s => hturn s.rd.cursor s

theorem keeps_romReadOp (h : Header) (cap : Nat) : Keeps R (romReadOp h cap) := by
  intro s
  by_cases hcap : cap = 0
  · have hrun : romReadOp h cap s = .ok Reply.nothing s := by simp [romReadOp, hcap]
    rw [stateAfter_of_ok hrun]; exact hR.refl s
  by_cases heos : s.rd.cursor.toNat = h.romSize.toNat
  · have hrun : romReadOp h cap s = .ok Reply.nothing { s with rd := { s.rd with eos := true } } := by
      simp [romReadOp, hcap, heos]
    rw [stateAfter_of_ok hrun]; exact hR.reader s _
  · unfold stateAfter romReadOp
    simp only [hcap, heos, if_false]
    exact keeps_then_pure hR.toSteady
      (keeps_forBytes hR.toSteady (fun _ => keeps_readRomByte hR h) _ 0 0) _ s

/-- Whatever the command and its outcome, its procedure keeps a relation that the primitives and the opening of a
session keep. -/
theorem keeps_commandProc (hopen : ∀ s h, R s (openSession h s)) (i : Instr) : Keeps R (commandProc i) := by
  have hS := hR.toSteady
  have hB := hR.toBusSteady
  have hD := hR.toDriverSteady
  cases i with
  | parseHeader =>
    exact keeps_bind hS (keeps_requireNotFaulted hS) fun _ =>
      keeps_bind hS (keeps_readHeader hB) fun _ => keeps_pure hS _
  | makeRomReader =>
    exact keeps_bind hS (keeps_requireNotFaulted hS) fun _ => keeps_bind hS (keeps_readHeader hB) fun h =>
      keeps_then_pure hS (keeps_modifyState fun s => hopen s h) _
  | enableRam => exact keeps_inSession hS fun _ => keeps_then_pure hS (keeps_enableRamOp hD _) _
  | disableRam => exact keeps_inSession hS fun _ => keeps_then_pure hS (keeps_disableRamOp hD _) _
  | selectRomBank n => exact keeps_inSession hS fun h => keeps_then_pure hS (keeps_selectRomOp hD h _) _
  | selectRamBank n => exact keeps_inSession hS fun h => keeps_then_pure hS (keeps_selectRamOp hD h _) _
  | setAddr a =>
    exact keeps_bind hS (keeps_requireSession hS) fun _ => keeps_then_pure hS (keeps_busSetAddr hB _) _
  | readByte =>
    exact keeps_bind hS (keeps_requireSession hS) fun _ => keeps_bind hS (keeps_readByteAddr hS) fun _ =>
      keeps_bind hS (keeps_busRead hB) fun _ => keeps_pure hS _
  | writeByte v =>
    exact keeps_bind hS (keeps_requireSession hS) fun _ => keeps_bind hS (keeps_writeByteAddr hS) fun _ =>
      keeps_ite (keeps_then_pure hS (keeps_settledWrite hB _) _) (keeps_then_pure hS (keeps_busWrite hB _) _)
  | romSize => exact keeps_inSession hS fun _ => keeps_pure hS _
  | romStatus => exact fun s => keeps_then_pure hS (keeps_requireSession hS) (statusReply s) s
  | romRead cap => exact keeps_inSession hS fun h => keeps_romReadOp hR h _
  | ramDump => exact keeps_inSession hS fun h => keeps_ramDumpOp hR h
  | ramRestore => exact keeps_inSession hS fun h => keeps_ramRestoreOp hR h
  | xlateRom o => exact keeps_inSession hS fun _ => keeps_pure hS _
  | xlateRam o => exact keeps_inSession hS fun _ => keeps_pure hS _

end

/-! ### Errors before any data byte -/

/-- An error of the procedure counts no data byte moved (30_encoding.md R104). -/
def Unmoved (p : Proc α) : Prop := ∀ s e t, p s = .error e t → e.moved = 0

theorem unmoved_pure (a : α) : Unmoved (pure a : Proc α) := fun _ _ _ h => by cases h

theorem unmoved_modifyState (f : State → State) : Unmoved (modifyState f) := fun _ _ _ h => by cases h

theorem unmoved_raise (e : Status) : Unmoved (raise e : Proc α) := fun _ _ _ h => by cases h; rfl

theorem unmoved_bind {p : Proc α} {f : α → Proc β} (hp : Unmoved p) (hf : ∀ a, Unmoved (f a)) : Unmoved (p >>= f) := by
  intro s e t h
  rcases bind_eq_error.mp h with h | ⟨a, u, _, h⟩
  · exact hp s e t h
  · exact hf a u e t h

theorem unmoved_then_pure {p : Proc α} (hp : Unmoved p) (b : β) : Unmoved (do let _ ← p; pure b) :=
  unmoved_bind hp fun _ => unmoved_pure b

theorem unmoved_ite {c : Prop} [Decidable c] {p q : Proc α} (hp : Unmoved p) (hq : Unmoved q) :
    Unmoved (if c then p else q) := by
  split
  · exact hp
  · exact hq

theorem unmoved_busRead : Unmoved busRead := by
  intro s e t h
  cases ha : s.addr with
  | none => rw [busRead_unset ha] at h; cases h; rfl
  | some a =>
    rw [busRead_at ha] at h
    rcases hb : s.bus.read s.history a with ⟨_ | _, side⟩ <;> rw [hb] at h <;> cases h
    rfl

theorem unmoved_busWrite (v : Byte) : Unmoved (busWrite v) := by
  intro s e t h
  cases ha : s.addr with
  | none => rw [busWrite_unset ha] at h; cases h; rfl
  | some a =>
    rw [busWrite_at ha] at h
    rcases hb : s.bus.write s.history a v with ⟨_ | _, side⟩ <;> rw [hb] at h <;> cases h
    rfl

theorem unmoved_settledWrite (v : Byte) : Unmoved (settledWrite v) :=
  unmoved_bind (unmoved_modifyState _) fun _ => unmoved_bind (unmoved_busWrite v) fun _ => unmoved_modifyState _

theorem unmoved_memRead (a : Addr) : Unmoved (memRead a) :=
  unmoved_bind (unmoved_modifyState _) fun _ => unmoved_busRead

theorem unmoved_readRange (n : Nat) : ∀ a, Unmoved (readRange n a) := by
  induction n with
  | zero => exact fun _ => unmoved_pure []
  | succ n ih =>
    exact fun a => unmoved_bind (unmoved_memRead a) fun _ => unmoved_bind (ih _) fun _ => unmoved_pure _

theorem unmoved_readHeader : Unmoved readHeader := unmoved_bind (unmoved_readRange _ _) fun _ => unmoved_pure _

theorem unmoved_runSeq_modifyDriver (seq : List (Addr × Byte)) (f : Driver → Driver) :
    Unmoved (do runSeq seq; modifyDriver f) :=
  unmoved_bind (fun _ _ _ h => by rw [runSeq_error h]) fun _ => unmoved_modifyState _

theorem unmoved_selectRomOp (h : Header) (n : Nat) : Unmoved (selectRomOp h n) :=
  unmoved_ite (unmoved_raise _) (unmoved_runSeq_modifyDriver _ _)

theorem unmoved_selectRamOp (h : Header) (n : Nat) : Unmoved (selectRamOp h n) :=
  unmoved_ite (unmoved_raise _) (unmoved_ite (unmoved_raise _) (unmoved_runSeq_modifyDriver _ _))

theorem unmoved_requireNotFaulted : Unmoved requireNotFaulted := by
  intro s e t h
  by_cases hp : s.phase = .faulted
  · rw [requireNotFaulted_faulted hp] at h; cases h; rfl
  · rw [requireNotFaulted_ok hp] at h; cases h

theorem unmoved_requireSession : Unmoved requireSession := by
  intro s e t h
  cases hp : s.phase with
  | noSession => rw [requireSession_noSession hp] at h; cases h; rfl
  | ready => rw [requireSession_ready hp] at h; cases h
  | faulted => rw [requireSession_faulted hp] at h; cases h; rfl

theorem unmoved_sessionHeader : Unmoved sessionHeader := by
  intro s e t h
  cases hh : s.hdr <;> simp only [sessionHeader, hh, raise_apply] at h <;> cases h
  rfl

theorem unmoved_readByteAddr : Unmoved readByteAddr := by
  intro s e t h
  rcases readByteAddr_cases s with ⟨_, hr⟩ | ⟨_, _, _, _, hr⟩ | ⟨_, _, _, hr⟩ <;> rw [hr] at h <;> cases h <;> rfl

theorem unmoved_writeByteAddr : Unmoved writeByteAddr := by
  intro s e t h
  rcases writeByteAddr_cases s with ⟨_, hr⟩ | ⟨_, _, _, hr⟩ | ⟨_, _, _, _, _, hr⟩ | ⟨_, _, _, _, hr⟩ <;>
    rw [hr] at h <;> cases h <;> rfl

theorem unmoved_inSession {body : Header → Proc Reply} (hb : ∀ h, Unmoved (body h)) : Unmoved (inSession body) :=
  unmoved_bind unmoved_requireSession fun _ => unmoved_bind unmoved_sessionHeader hb

/-- Only the commands that move data raise an error with a count of bytes. -/
theorem unmoved_commandProc {i : Instr} (hread : ∀ cap, i ≠ .romRead cap) (hdump : i ≠ .ramDump)
    (hrestore : i ≠ .ramRestore) : Unmoved (commandProc i) := by
  cases i with
  | parseHeader =>
    exact unmoved_bind unmoved_requireNotFaulted fun _ => unmoved_bind unmoved_readHeader fun _ => unmoved_pure _
  | makeRomReader =>
    exact unmoved_bind unmoved_requireNotFaulted fun _ => unmoved_bind unmoved_readHeader fun _ =>
      unmoved_then_pure (unmoved_modifyState _) _
  | enableRam => exact unmoved_inSession fun _ => unmoved_then_pure (unmoved_runSeq_modifyDriver _ _) _
  | disableRam => exact unmoved_inSession fun _ => unmoved_then_pure (unmoved_runSeq_modifyDriver _ _) _
  | selectRomBank n => exact unmoved_inSession fun h => unmoved_then_pure (unmoved_selectRomOp h _) _
  | selectRamBank n => exact unmoved_inSession fun h => unmoved_then_pure (unmoved_selectRamOp h _) _
  | setAddr a => exact unmoved_bind unmoved_requireSession fun _ => unmoved_then_pure (unmoved_modifyState _) _
  | readByte =>
    exact unmoved_bind unmoved_requireSession fun _ => unmoved_bind unmoved_readByteAddr fun _ =>
      unmoved_bind unmoved_busRead fun _ => unmoved_pure _
  | writeByte v =>
    exact unmoved_bind unmoved_requireSession fun _ => unmoved_bind unmoved_writeByteAddr fun _ =>
      unmoved_ite (unmoved_then_pure (unmoved_settledWrite _) _) (unmoved_then_pure (unmoved_busWrite _) _)
  | romSize => exact unmoved_inSession fun _ => unmoved_pure _
  | romStatus => exact fun s => unmoved_then_pure unmoved_requireSession (statusReply s) s
  | romRead cap => exact absurd rfl (hread cap)
  | ramDump => exact absurd rfl hdump
  | ramRestore => exact absurd rfl hrestore
  | xlateRom o => exact unmoved_inSession fun _ => unmoved_pure _
  | xlateRam o => exact unmoved_inSession fun _ => unmoved_pure _

/-! ### One result record per command -/

/-- The list of results is the same before and after. -/
def SameResults (s t : State) : Prop := t.revResults = s.revResults

theorem sameResults_commandSteady : CommandSteady SameResults where
  refl _ := rfl
  trans h₁ h₂ := h₂.trans h₁
  setAddr _ _ := rfl
  request _ _ _ := rfl
  wait _ := rfl
  driver _ _ := rfl
  reader _ _ := rfl
  output _ _ := rfl
  input _ _ := rfl

/-- A command's procedure returns no result record of its own: the one record is that of its end. -/
theorem commandProc_sameResults (i : Instr) : Keeps SameResults (commandProc i) :=
  keeps_commandProc sameResults_commandSteady (fun _ _ => rfl) i

/-- The two ways a command ends, and the one record each adds (00_scope.md R18). -/
theorem exec_result_cases (i : Instr) (s : State) :
    (∃ r t, exec i s = .next t ∧ t.revResults = okResult r :: s.revResults) ∨
    (∃ e t u, commandProc i s = .error e u ∧ exec i s = .next t ∧ t.revResults = errorResult e :: s.revResults) := by
  rw [exec_eq_runCommand]
  rcases runCommand_cases (commandProc i) s with ⟨r, u, hp, hrun⟩ | ⟨e, u, hp, hrun⟩
  · have hres : u.revResults = s.revResults := (commandProc_sameResults i).of_ok hp
    exact .inl ⟨r, _, hrun, by rw [respond_revResults, hres]⟩
  · have hres : u.revResults = s.revResults := (commandProc_sameResults i).of_error hp
    exact .inr ⟨e, _, u, hp, hrun, by rw [takeError_revResults, hres]⟩

/-- Settles O44, by the two ways a command ends: the record of an OK end is exempt, and that of an error has its fields
from `errorResult` and no byte count but for the commands that move data. -/
theorem everyCommandReturnsOneResult : Obligations.EveryCommandReturnsOneResult := by
  refine ⟨fun e => by cases e <;> rfl, fun i s => ?_⟩
  rcases exec_result_cases i s with ⟨r, t, hexec, hres⟩ | ⟨e, t, u, hp, hexec, hres⟩
  · exact ⟨t, okResult r, hexec, hres, fun hne => absurd rfl hne⟩
  · refine ⟨t, errorResult e, hexec, hres, fun _ => ⟨rfl, rfl, rfl, fun hread hdump hrestore => ?_⟩⟩
    have hmoved : e.moved = 0 := unmoved_commandProc hread hdump hrestore s e u hp
    simp [errorResult, hmoved]

/-! ### The step of a command word -/

/-- A command word at the head of the host's queue is what the step takes (60_exceptions.md R288). -/
theorem fetch_command {s : State} {w : Word} {rest : List HostAction} (h : s.host = .command w :: rest) :
    fetch s = .word w { s with host := rest } := by
  simp [fetch, h]

/-- Settles O7: the step takes the word from the queue, and the decoder's answer chooses the command. -/
theorem stepRunsTheDecodedCommand : Obligations.StepRunsTheDecodedCommand := by
  intro s w rest i hhost hdecode _
  simp only [step, fetch_command hhost, hdecode]

end Sys2Proof.Machine
end

section
/-! The acts of a command. Every change a command makes to the state is one of a few primitive acts, each for the
commands named in it (10_state.md R20 to R32). `acts_commandProc` says so once, for all commands; what each may write,
where its bus writes go and the invariant are then read off the acts one by one. -/

namespace Sys2Proof.Machine

variable {α β : Type}

/-! ### Running a procedure from one state -/

/-- A sequence relates the state before to the state after when its first part does, and its second does from where
the first returned. -/
theorem stateAfter_bind_rel {R : State → State → Prop} (hR : Steady R) {p : Proc α} {f : α → Proc β} {s : State}
    (hp : R s (stateAfter p s)) (hf : ∀ a t, p s = .ok a t → R t (stateAfter (f a) t)) :
    R s (stateAfter (p >>= f) s) := by
  cases h : p s with
  | ok a t =>
    have hbind : stateAfter (p >>= f) s = stateAfter (f a) t := by simp only [stateAfter, bind_of_ok h]
    rw [stateAfter_of_ok h] at hp
    exact hbind ▸ hR.trans hp (hf a t h)
  | error e t => rwa [stateAfter_of_error (bind_of_error h), ← stateAfter_of_error h]

theorem stateAfter_congr {p q : Proc α} {s : State} (h : p s = q s) : stateAfter p s = stateAfter q s := by
  simp only [stateAfter, h]

@[simp] theorem stateAfter_withMoved (k : Nat) (p : Proc α) (s : State) :
    stateAfter (withMoved k p) s = stateAfter p s := by
  simp only [stateAfter, withMoved]
  cases p s <;> rfl

/-- The relation that a part of the state is the same before and after. -/
theorem steady_same (f : State → α) : Steady fun s t => f t = f s where
  refl _ := rfl
  trans h₁ h₂ := h₂.trans h₁

/-! ### The acts -/

/-- The registers of the BankSwitchRule table (30_encoding.md R114). -/
def tableRegisters : List Addr := [0x0000, 0x2000, 0x2100, 0x3000, 0x4000, 0x6000]

/-- The commands that add bytes to S.out. -/
abbrev EmitsBytes (i : Instr) : Prop := (∃ cap, i = .romRead cap) ∨ i = .ramDump

/-- The commands that write S.drv.ram_enabled inside a session. -/
abbrev SetsRamEnabled (i : Instr) : Prop := i = .enableRam ∨ i = .disableRam ∨ i = .ramDump ∨ i = .ramRestore

/-- The commands that write S.drv.rom_bank inside a session. -/
abbrev SelectsRomBank (i : Instr) : Prop := (∃ n, i = .selectRomBank n) ∨ ∃ cap, i = .romRead cap

/-- The commands that write S.drv.ram_bank inside a session. -/
abbrev SelectsRamBank (i : Instr) : Prop := (∃ n, i = .selectRamBank n) ∨ i = .ramDump ∨ i = .ramRestore

/-- A register the driver of this family writes: one of the table, and none on RomOnly (30_encoding.md R114). -/
def IsDriverRegister (f : Family) (a : Addr) : Prop := f ≠ .romOnly ∧ a ∈ tableRegisters

/-- Where command i may write, in a session whose header is o: to the driver's registers, in RAM_RESTORE to the RAM
window, and in WRITE_BYTE beyond the control registers (41_driver.md R178, R183). -/
def WriteTarget (i : Instr) (o : Option Header) (a : Addr) : Prop :=
  (∃ h, o = some h ∧ IsDriverRegister (family h) a) ∨ (i = .ramRestore ∧ isRamWindow a = true) ∨
  ((∃ v, i = .writeByte v) ∧ isControlAddr a = false)

/-- One act of command i on the state, where o is the header S.hdr held when the command began. -/
inductive Act (i : Instr) (o : Option Header) : State → State → Prop
  | setAddr (s : State) (a : Addr) : Act i o s (afterSetAddr s a)
  | read {s : State} {a : Addr} {r : ReadAnswer} {side : BusSide} (ha : s.addr = some a)
      (hb : s.bus.read s.history a = (r, side)) : Act i o s (afterRequest s (.read a r) side)
  | write {s : State} {a : Addr} {v : Byte} {r : WriteAnswer} {side : BusSide} (ha : s.addr = some a)
      (hw : WriteTarget i o a) (hb : s.bus.write s.history a v = (r, side)) :
      Act i o s (afterRequest s (.write a v r) side)
  | wait (s : State) : Act i o s (s.record .wait)
  | emit (hi : EmitsBytes i) (s : State) (v : Byte) : Act i o s { s with revOut := v :: s.revOut }
  | takeInput (hi : i = .ramRestore) (s : State) (bytes : List Byte) :
      Act i o s { s with input := { s.input with bytes := bytes } }
  | ramEnabled (hi : SetsRamEnabled i) (s : State) (b : Bool) :
      Act i o s { s with drv := { s.drv with ramEnabled := b } }
  | romBank (hi : SelectsRomBank i) {h : Header} (ho : o = some h) {n : Nat} (hpos : 1 ≤ n) (hlim : n < limRom h)
      (s : State) : Act i o s { s with drv := { s.drv with romBank := BitVec.ofNat 16 n } }
  | ramBank (hi : SelectsRamBank i) {h : Header} (ho : o = some h) {n : Nat} (hlim : n < limRam h) (s : State) :
      Act i o s { s with drv := { s.drv with ramBank := BitVec.ofNat 16 n } }
  | advance (hi : ∃ cap, i = .romRead cap) {h : Header} (ho : o = some h) {s : State}
      (hlt : s.rd.cursor.toNat < h.romSize.toNat) :
      Act i o s { s with rd := { s.rd with cursor := s.rd.cursor + 1 } }
  | endOfStream (hi : ∃ cap, i = .romRead cap) {h : Header} (ho : o = some h) {s : State}
      (heq : s.rd.cursor.toNat = h.romSize.toNat) : Act i o s { s with rd := { s.rd with eos := true } }
  | openSession (hi : i = .makeRomReader) {h : Header} (hw : h.wf) {s : State} (hp : s.phase ≠ .faulted)
      (ha : s.addr ≠ none) : Act i o s (openSession h s)

/-- The acts of command i, one after another. -/
abbrev Acts (i : Instr) (o : Option Header) : State → State → Prop := Relation.ReflTransGen (Act i o)

theorem acts_steady (i : Instr) (o : Option Header) : Steady (Acts i o) where
  refl _ := .refl
  trans := .trans

/-- What each act keeps, the acts of a command together keep. -/
theorem Acts.rel {i : Instr} {o : Option Header} {R : State → State → Prop} (hR : Steady R)
    (hact : ∀ s t, Act i o s t → R s t) {s t : State} (h : Acts i o s t) : R s t := by
  induction h with
  | refl => exact hR.refl s
  | tail _ hbc ih => exact hR.trans ih (hact _ _ hbc)

/-! ### The bus accesses as acts -/

section
variable {i : Instr} {o : Option Header}

theorem acts_busSetAddr (a : Addr) : Keeps (Acts i o) (busSetAddr a) := fun s => .single (.setAddr s a)

theorem acts_busRead : Keeps (Acts i o) busRead := by
  intro s
  cases ha : s.addr with
  | none => rw [stateAfter_of_error (busRead_unset ha)]
  | some a =>
    have hrun := busRead_at ha
    rcases hb : s.bus.read s.history a with ⟨v | _, side⟩ <;> rw [hb] at hrun
    · rw [stateAfter_of_ok hrun]; exact .single (.read ha hb)
    · rw [stateAfter_of_error hrun]; exact .single (.read ha hb)

theorem acts_busWrite {s : State} {a : Addr} (ha : s.addr = some a) (hw : WriteTarget i o a) (v : Byte) :
    Acts i o s (stateAfter (busWrite v) s) := by
  have hrun := busWrite_at ha v
  rcases hb : s.bus.write s.history a v with ⟨_ | _, side⟩ <;> rw [hb] at hrun
  · rw [stateAfter_of_ok hrun]; exact .single (.write ha hw hb)
  · rw [stateAfter_of_error hrun]; exact .single (.write ha hw hb)

theorem acts_memRead (a : Addr) : Keeps (Acts i o) (memRead a) :=
  keeps_bind (acts_steady i o) (acts_busSetAddr a) fun _ => acts_busRead

theorem acts_memWrite {a : Addr} (hw : WriteTarget i o a) (v : Byte) : Keeps (Acts i o) (memWrite a v) := fun s =>
  stateAfter_bind_rel (acts_steady i o) (acts_busSetAddr a s) fun _ _ ht => by
    cases ht
    exact acts_busWrite rfl hw v

theorem acts_settledWrite {s : State} {a : Addr} (ha : s.addr = some a) (hw : WriteTarget i o a) (v : Byte) :
    Acts i o s (stateAfter (settledWrite v) s) :=
  stateAfter_bind_rel (acts_steady i o) (.single (.wait s)) fun _ _ ht => by
    cases ht
    exact stateAfter_bind_rel (acts_steady i o) (acts_busWrite (s := s.record .wait) ha hw v) fun _ t _ =>
      .single (.wait t)

theorem acts_readHeader : Keeps (Acts i o) readHeader := by
  have hrange : ∀ n a, Keeps (Acts i o) (readRange n a) := by
    intro n
    induction n with
    | zero => exact fun a => keeps_pure (acts_steady i o) []
    | succ n ih =>
      exact fun a => keeps_bind (acts_steady i o) (acts_memRead a) fun _ =>
        keeps_bind (acts_steady i o) (ih _) fun _ => keeps_pure (acts_steady i o) _
  exact keeps_bind (acts_steady i o) (hrange _ _) fun _ => keeps_pure (acts_steady i o) _

/-! ### The driver's operations as acts -/

theorem acts_runSeq {seq : List (Addr × Byte)} (hseq : ∀ p ∈ seq, WriteTarget i o p.1) :
    Keeps (Acts i o) (runSeq seq) := by
  induction seq with
  | nil => exact keeps_pure (acts_steady i o) ()
  | cons p seq ih =>
    obtain ⟨hp, hrest⟩ := List.forall_mem_cons.mp hseq
    exact keeps_bind (acts_steady i o) (acts_memWrite hp p.2) fun _ => ih hrest

theorem enableSeq_registers {f : Family} : ∀ p ∈ enableSeq f, IsDriverRegister f p.1 := by
  cases f <;> simp [enableSeq, IsDriverRegister, tableRegisters, params]

theorem disableSeq_registers {f : Family} : ∀ p ∈ disableSeq f, IsDriverRegister f p.1 := by
  cases f <;> simp [disableSeq, IsDriverRegister, tableRegisters, params]

theorem romBankSeq_registers {f : Family} {n : Bank} {banks : Nat} :
    ∀ p ∈ romBankSeq f n banks, IsDriverRegister f p.1 := by
  cases f with
  | mbc1 => by_cases hb : 32 < banks <;> simp [romBankSeq, hb, IsDriverRegister, tableRegisters, params]
  | romOnly | mbc2 | mbc3 | mbc5 => simp [romBankSeq, IsDriverRegister, tableRegisters, params]

theorem ramBankSeq_registers {f : Family} {n : Bank} : ∀ p ∈ ramBankSeq f n, IsDriverRegister f p.1 := by
  cases f <;> simp [ramBankSeq, IsDriverRegister, tableRegisters, params]

variable {h : Header}

/-- Register writes of the driver, and the mirror after them. -/
theorem acts_driverOp {seq : List (Addr × Byte)} {f : Driver → Driver}
    (hseq : ∀ p ∈ seq, IsDriverRegister (family h) p.1)
    (hf : ∀ s : State, Act i (some h) s { s with drv := f s.drv }) :
    Keeps (Acts i (some h)) (do runSeq seq; modifyDriver f) :=
  keeps_bind (acts_steady i _) (acts_runSeq fun p hp => .inl ⟨h, rfl, hseq p hp⟩) fun _ =>
    keeps_modifyState fun s => .single (hf s)

theorem acts_enableRamOp (hi : SetsRamEnabled i) : Keeps (Acts i (some h)) (enableRamOp (family h)) :=
  acts_driverOp enableSeq_registers fun s => .ramEnabled hi s true

theorem acts_disableRamOp (hi : SetsRamEnabled i) : Keeps (Acts i (some h)) (disableRamOp (family h)) :=
  acts_driverOp disableSeq_registers fun s => .ramEnabled hi s false

theorem one_le_substituteBank (n : Nat) : 1 ≤ substituteBank n := by
  unfold substituteBank
  split <;> omega

theorem acts_selectRomOp (hi : SelectsRomBank i) (n : Nat) : Keeps (Acts i (some h)) (selectRomOp h n) := by
  by_cases hlim : limRom h ≤ substituteBank n
  · rw [selectRomOp_refused hlim]
    exact keeps_raise (acts_steady i _) _
  · simp only [selectRomOp, if_neg hlim]
    exact acts_driverOp romBankSeq_registers
      fun s => .romBank hi rfl (one_le_substituteBank n) (Nat.lt_of_not_le hlim) s

theorem acts_selectRamOp (hi : SelectsRamBank i) (n : Nat) : Keeps (Acts i (some h)) (selectRamOp h n) := by
  by_cases hrefused : hasRamBanking (family h) = false ∨ limRam h ≤ n
  · rw [selectRamOp_refused hrefused]
    exact keeps_raise (acts_steady i _) _
  · obtain ⟨hbanking, hlim⟩ := not_or.mp hrefused
    simp only [selectRamOp, if_neg hbanking, if_neg hlim]
    exact acts_driverOp ramBankSeq_registers fun s => .ramBank hi rfl (Nat.lt_of_not_le hlim) s

/-! ### The ROM reader as acts -/

/-- The rest of a turn of ROM_READ's loop, after the select: read, emit, advance (42_rom_reader.md R213). -/
def deliverByte (c : Offset) : Proc Unit := do
  let v ← memRead (romBusAddr c.toNat)
  emit v
  modifyReader fun r => { r with cursor := c + 1 }

theorem readRomByte_eq (h : Header) (s : State) : readRomByte h s =
    (if atRomBoundary s.rd.cursor.toNat = true
      then (do selectRomOp h (romBankOf s.rd.cursor.toNat); deliverByte s.rd.cursor)
      else deliverByte s.rd.cursor : Proc Unit) s := rfl

/-- A byte delivered moves the cursor on from where it was. -/
theorem deliverByte_cursor {c : Offset} {s t : State} (hrun : deliverByte c s = .ok () t) : t.rd.cursor = c + 1 := by
  obtain ⟨_, _, _, hrun⟩ := bind_eq_ok.mp hrun
  obtain ⟨_, _, _, hrun⟩ := bind_eq_ok.mp hrun
  cases hrun
  rfl

theorem readRomByte_cursor {s t : State} (hrun : readRomByte h s = .ok () t) : t.rd.cursor = s.rd.cursor + 1 := by
  rw [readRomByte_eq] at hrun
  split at hrun
  · obtain ⟨_, _, _, hrun⟩ := bind_eq_ok.mp hrun
    exact deliverByte_cursor hrun
  · exact deliverByte_cursor hrun

/-- Selecting a ROM bank leaves S.rd as it was. -/
theorem selectRomOp_rd (h : Header) (n : Nat) : Keeps (fun s t => t.rd = s.rd) (selectRomOp h n) :=
  keeps_selectRomOp
    { steady_same State.rd with
      setAddr := fun _ _ => rfl
      request := fun _ _ _ => rfl
      wait := fun _ => rfl
      driver := fun _ _ => rfl } h n

theorem acts_deliverByte (hi : ∃ cap, i = .romRead cap) {s : State} (hlt : s.rd.cursor.toNat < h.romSize.toNat) :
    Acts i (some h) s (stateAfter (deliverByte s.rd.cursor) s) :=
  stateAfter_bind_rel (acts_steady i _) (acts_memRead _ s) fun v t ht => by
    have hrd : t.rd = s.rd := by rw [(busOnly_memRead _).ok_frame ht, withBus_rd]
    refine stateAfter_bind_rel (acts_steady i _) (.single (.emit (.inl hi) t v)) fun _ u hu => ?_
    cases hu
    rw [← hrd] at hlt ⊢
    exact .single (.advance hi rfl hlt)

theorem acts_readRomByte (hi : ∃ cap, i = .romRead cap) {s : State} (hlt : s.rd.cursor.toNat < h.romSize.toNat) :
    Acts i (some h) s (stateAfter (readRomByte h) s) := by
  rw [stateAfter_congr (readRomByte_eq h s)]
  split
  · refine stateAfter_bind_rel (acts_steady i _) (acts_selectRomOp (.inr hi) _ s) fun _ t ht => ?_
    have hrd : t.rd = s.rd := (selectRomOp_rd h _).of_ok ht
    rw [← hrd] at hlt ⊢
    exact acts_deliverByte hi hlt
  · exact acts_deliverByte hi hlt

/-- ROM_READ's loop, while the bytes it is to deliver are in the image. -/
theorem acts_readRomBytes (hi : ∃ cap, i = .romRead cap) (n : Nat) : ∀ (first moved : Nat) (s : State),
    n ≤ h.romSize.toNat - s.rd.cursor.toNat →
    Acts i (some h) s (stateAfter (forBytes (fun _ => readRomByte h) n first moved) s) := by
  induction n with
  | zero => exact fun _ _ s _ => keeps_pure (acts_steady i _) () s
  | succ n ih =>
    intro first moved s hn
    refine stateAfter_bind_rel (acts_steady i _) ?_ fun _ t ht => ih _ _ t ?_
    · rw [stateAfter_withMoved]
      exact acts_readRomByte hi (by omega)
    · have hcursor : t.rd.cursor.toNat ≤ s.rd.cursor.toNat + 1 := by
        rw [readRomByte_cursor (withMoved_eq_ok.mp ht), BitVec.toNat_add]
        exact Nat.mod_le _ _
      omega

theorem acts_romReadOp (hi : ∃ cap, i = .romRead cap) (cap : Nat) : Keeps (Acts i (some h)) (romReadOp h cap) := by
  intro s
  unfold stateAfter romReadOp
  by_cases hcap : cap = 0
  · simp only [hcap, if_true]
    exact .refl
  by_cases hend : s.rd.cursor.toNat = h.romSize.toNat
  · simp only [hcap, hend, if_false, if_true]
    exact .single (.endOfStream hi rfl hend)
  · simp only [hcap, hend, if_false]
    exact stateAfter_bind_rel (acts_steady i _) (acts_readRomBytes hi _ 0 0 s (Nat.min_le_right ..)) fun _ t _ =>
      keeps_pure (acts_steady i _) _ t

/-! ### The RAM accessor as acts -/

theorem acts_selectForAccess (hi : SelectsRamBank i) (b : Nat) : Keeps (Acts i (some h)) (selectForAccess h b) :=
  keeps_ite (acts_selectRamOp hi b) (keeps_pure (acts_steady i _) ())

theorem acts_bankLimitCheck : Keeps (Acts i o) (bankLimitCheck h) :=
  keeps_ite (keeps_raise (acts_steady i o) _) (keeps_pure (acts_steady i o) ())

theorem isRamWindow_ramWindowAddr {k : Nat} (hk : k < ramBankSize) : isRamWindow (ramWindowAddr k) = true := by
  unfold ramBankSize at hk
  simp only [isRamWindow, ramWindowAddr, ramWindowBase, BitVec.toNat_ofNat, Bool.and_eq_true, decide_eq_true_eq]
  omega

theorem acts_dumpBank (hi : i = .ramDump) (b : Nat) : Keeps (Acts i (some h)) (dumpBank h b) :=
  keeps_bind (acts_steady i _) (acts_selectForAccess (.inr (.inl hi)) b) fun _ =>
    keeps_forBytes (acts_steady i _)
      (fun _ => keeps_bind (acts_steady i _) (acts_memRead _) fun v =>
        keeps_modifyState fun s => .single (.emit (.inr hi) s v)) _ _ _

theorem acts_takeInput (hi : i = .ramRestore) (k : Nat) : Keeps (Acts i o) (takeInput k) := by
  intro s
  rcases takeInput_cases k s with ⟨_, hrun⟩ | ⟨_, _, hrun⟩ | ⟨_, _, hrun⟩
  · rw [stateAfter_of_ok hrun]; exact .single (.takeInput hi s _)
  · rw [stateAfter_of_error hrun]
  · rw [stateAfter_of_ok hrun]; exact .single (.takeInput hi s _)

theorem acts_restoreByte (hi : i = .ramRestore) (chunk : List Byte) {k : Nat} (hk : k < ramBankSize) :
    Keeps (Acts i o) (restoreByte chunk k) := fun s =>
  stateAfter_bind_rel (acts_steady i o) (acts_busSetAddr _ s) fun _ _ ht => by
    cases ht
    exact acts_settledWrite rfl (.inr (.inl ⟨hi, isRamWindow_ramWindowAddr hk⟩)) _

/-- A loop over bytes first to limit - 1. -/
theorem acts_forBytes {body : Nat → Proc Unit} {limit : Nat} (hb : ∀ k < limit, Keeps (Acts i o) (body k)) (n : Nat) :
    ∀ first moved, first + n ≤ limit → Keeps (Acts i o) (forBytes body n first moved) := by
  induction n with
  | zero => exact fun _ _ _ => keeps_pure (acts_steady i o) ()
  | succ n ih =>
    exact fun first moved hle => keeps_bind (acts_steady i o) (keeps_withMoved _ (hb first (by omega))) fun _ =>
      ih _ _ (by omega)

theorem acts_restoreBank (hi : i = .ramRestore) (b : Nat) : Keeps (Acts i (some h)) (restoreBank h b) :=
  keeps_bind (acts_steady i _) (acts_selectForAccess (.inr (.inr hi)) b) fun _ =>
    keeps_bind (acts_steady i _) (acts_takeInput hi _) fun chunk =>
      acts_forBytes (limit := ramBankSize) (fun _ => acts_restoreByte hi chunk) _ 0 0 (by omega)

/-- The part RAM_DUMP and RAM_RESTORE share, after the checks: enable, move the banks, disable (43_ram_accessor.md R232,
R237). -/
theorem acts_accessBanks (hi : SetsRamEnabled i) {body : Nat → Proc Unit}
    (hb : ∀ b, Keeps (Acts i (some h)) (body b)) (size banks moved : Nat) (r : Reply) :
    Keeps (Acts i (some h)) (do
      enableRamOp (family h)
      forBanks size body banks 0
      withMoved moved (disableRamOp (family h))
      pure r) :=
  keeps_bind (acts_steady i _) (acts_enableRamOp hi) fun _ =>
    keeps_bind (acts_steady i _) (keeps_forBanks (acts_steady i _) hb banks 0) fun _ =>
      keeps_then_pure (acts_steady i _) (keeps_withMoved moved (acts_disableRamOp hi)) r

theorem acts_ramDumpOp (hi : i = .ramDump) : Keeps (Acts i (some h)) (ramDumpOp h) :=
  keeps_bind (acts_steady i _) acts_bankLimitCheck fun _ =>
    acts_accessBanks (.inr (.inr (.inl hi))) (acts_dumpBank hi) _ _ _ _

theorem acts_preWriteFix : Keeps (Acts i (some h)) (preWriteFix (family h)) := by
  cases hf : family h with
  | mbc1 =>
    exact acts_memWrite (.inl ⟨h, rfl, by rw [hf]; simp, by simp [tableRegisters, params]⟩) _
  | mbc2 => exact keeps_then_pure (acts_steady i _) (acts_memRead _) _
  | romOnly | mbc3 | mbc5 => exact keeps_pure (acts_steady i _) ()

theorem acts_ramRestoreOp (hi : i = .ramRestore) : Keeps (Acts i (some h)) (ramRestoreOp h) :=
  keeps_ite (keeps_pure (acts_steady i _) _)
    (keeps_bind (acts_steady i _) acts_bankLimitCheck fun _ =>
      keeps_bind (acts_steady i _) acts_preWriteFix fun _ =>
        acts_accessBanks (.inr (.inr (.inr hi))) (acts_restoreBank hi) _ _ _ _)

end

/-! ### The opening of a session -/

theorem ramSizes_decodeRam (mt : MbcType) (code : Byte) : (decodeRam mt code).toNat ∈ ramSizes := by
  unfold decodeRam
  split
  · decide
  · exact ramTableSize_mem code

/-- The header of any bytes is well formed (40_header.md R144 to R147). -/
theorem decodeHeader_wf (raw : List Byte) : (decodeHeader raw).wf := by
  refine ⟨romSizeOf_mem _, ramSizes_decodeRam _ _, fun hrom => if_pos hrom, fun hwarn => ?_, warnBits_title _ _⟩
  exact decodeType_unrecognised _ ((warnBits_type _ _).symm.trans hwarn)

/-- ReadHeader returns a well-formed header. -/
theorem readHeader_wf {s t : State} {h : Header} (hrun : readHeader s = .ok h t) : h.wf := by
  obtain ⟨raw, _, _, hrun⟩ := bind_eq_ok.mp hrun
  cases hrun
  exact decodeHeader_wf raw

/-- A pass that reads a byte and returns has set S.addr. -/
theorem readRange_addr (n : Nat) : ∀ {a : Addr} {s t : State} {raw : List Byte},
    readRange (n + 1) a s = .ok raw t → t.addr ≠ none := by
  induction n with
  | zero =>
    intro a s t raw hrun
    obtain ⟨v, u, hread, hrun⟩ := bind_eq_ok.mp hrun
    cases hrun
    rcases memRead_cases a s with ⟨_, _, _, hm⟩ | ⟨_, _, hm⟩ <;> rw [hm] at hread <;> cases hread
    exact Option.some_ne_none a
  | succ n ih =>
    intro a s t raw hrun
    obtain ⟨v, u, _, hrun⟩ := bind_eq_ok.mp hrun
    obtain ⟨vs, w, hrest, hrun⟩ := bind_eq_ok.mp hrun
    cases hrun
    exact ih hrest

/-- A header pass that returns has set S.addr (60_exceptions.md R278). -/
theorem readHeader_addr {s t : State} {h : Header} (hrun : readHeader s = .ok h t) : t.addr ≠ none := by
  obtain ⟨raw, _, hrange, hrun⟩ := bind_eq_ok.mp hrun
  cases hrun
  exact readRange_addr 79 hrange

/-- The header pass leaves the phase as it is. -/
theorem readHeader_phase : Keeps (fun s t => t.phase = s.phase) readHeader :=
  keeps_readHeader
    { steady_same State.phase with
      setAddr := fun _ _ => rfl
      request := fun _ _ _ => rfl
      wait := fun _ => rfl }

/-! ### The acts of each command -/

theorem requireNotFaulted_eq_ok {s t : State} (hrun : requireNotFaulted s = .ok () t) : t = s ∧ s.phase ≠ .faulted := by
  by_cases hp : s.phase = .faulted
  · rw [requireNotFaulted_faulted hp] at hrun
    cases hrun
  · rw [requireNotFaulted_ok hp] at hrun
    cases hrun
    exact ⟨rfl, hp⟩

theorem sessionHeader_eq_ok {s t : State} {h : Header} (hrun : sessionHeader s = .ok h t) : t = s ∧ s.hdr = some h := by
  cases hh : s.hdr with
  | none => simp only [sessionHeader, hh, raise_apply] at hrun; cases hrun
  | some h₀ => rw [sessionHeader_some hh] at hrun; cases hrun; exact ⟨rfl, rfl⟩

section
variable {i : Instr}

/-- A command inside a session does the acts of its body on the session header. -/
theorem acts_inSession {body : Header → Proc Reply} (hb : ∀ h, Keeps (Acts i (some h)) (body h)) (s : State) :
    Acts i s.hdr s (stateAfter (inSession body) s) := by
  refine stateAfter_bind_rel (acts_steady i _) (keeps_requireSession (acts_steady i _) s) fun _ t ht => ?_
  have hts : t = s := (stateAfter_of_ok ht).symm.trans (requireSession_stays s)
  subst hts
  refine stateAfter_bind_rel (acts_steady i _) (keeps_sessionHeader (acts_steady i _) t) fun h u hu => ?_
  obtain ⟨rfl, hh⟩ := sessionHeader_eq_ok hu
  rw [hh]
  exact hb h u

/-- A body that runs an operation and replies with nothing. -/
theorem acts_then_nothing {o : Option Header} {p : Proc Unit} (hp : Keeps (Acts i o) p) :
    Keeps (Acts i o) (do p; pure Reply.nothing) := keeps_then_pure (acts_steady i o) hp _

theorem acts_makeRomReader (s : State) (o : Option Header) :
    Acts .makeRomReader o s (stateAfter (commandProc .makeRomReader) s) := by
  have hS := acts_steady .makeRomReader o
  refine stateAfter_bind_rel hS (keeps_requireNotFaulted hS s) fun _ t ht => ?_
  obtain ⟨rfl, hp⟩ := requireNotFaulted_eq_ok ht
  refine stateAfter_bind_rel hS (acts_readHeader t) fun h u hu => ?_
  have hphase : u.phase = t.phase := readHeader_phase.of_ok hu
  exact .single (.openSession rfl (readHeader_wf hu) (hphase ▸ hp) (readHeader_addr hu))

theorem acts_writeByte (v : BitVec 8) (s : State) (o : Option Header) :
    Acts (.writeByte v) o s (stateAfter (commandProc (.writeByte v)) s) := by
  have hS := acts_steady (.writeByte v) o
  refine stateAfter_bind_rel hS (keeps_requireSession hS s) fun _ t _ => ?_
  refine stateAfter_bind_rel hS (keeps_writeByteAddr hS t) fun a u hu => ?_
  rcases writeByteAddr_cases t with ⟨_, hr⟩ | ⟨_, _, _, hr⟩ | ⟨_, _, _, _, _, hr⟩ | ⟨a, ha, hcontrol, _, hr⟩ <;>
    rw [hr] at hu <;> cases hu
  have hw : WriteTarget (.writeByte v) o a := .inr (.inr ⟨⟨v, rfl⟩, hcontrol⟩)
  split
  · exact stateAfter_bind_rel hS (acts_settledWrite ha hw _) fun _ u _ => keeps_pure hS _ u
  · exact stateAfter_bind_rel hS (acts_busWrite ha hw _) fun _ u _ => keeps_pure hS _ u

/-- Whatever a command does to the state, returned or raised, is acts of its own. -/
theorem acts_commandProc (i : Instr) (s : State) : Acts i s.hdr s (stateAfter (commandProc i) s) := by
  have hS := acts_steady i s.hdr
  cases i with
  | parseHeader =>
    exact keeps_bind hS (keeps_requireNotFaulted hS)
      (fun _ => keeps_bind hS acts_readHeader fun _ => keeps_pure hS _) s
  | makeRomReader => exact acts_makeRomReader s _
  | enableRam => exact acts_inSession (fun _ => acts_then_nothing (acts_enableRamOp (.inl rfl))) s
  | disableRam => exact acts_inSession (fun _ => acts_then_nothing (acts_disableRamOp (.inr (.inl rfl)))) s
  | selectRomBank n => exact acts_inSession (fun _ => acts_then_nothing (acts_selectRomOp (.inl ⟨n, rfl⟩) _)) s
  | selectRamBank n => exact acts_inSession (fun _ => acts_then_nothing (acts_selectRamOp (.inl ⟨n, rfl⟩) _)) s
  | setAddr a =>
    exact keeps_bind hS (keeps_requireSession hS) (fun _ => acts_then_nothing (acts_busSetAddr _)) s
  | readByte =>
    exact keeps_bind hS (keeps_requireSession hS)
      (fun _ => keeps_bind hS (keeps_readByteAddr hS) fun _ =>
        keeps_bind hS acts_busRead fun _ => keeps_pure hS _) s
  | writeByte v => exact acts_writeByte v s _
  | romSize => exact acts_inSession (fun _ => keeps_pure (acts_steady _ _) _) s
  | romStatus => exact keeps_then_pure hS (keeps_requireSession hS) (statusReply s) s
  | romRead cap => exact acts_inSession (fun _ => acts_romReadOp ⟨cap, rfl⟩ _) s
  | ramDump => exact acts_inSession (fun _ => acts_ramDumpOp rfl) s
  | ramRestore => exact acts_inSession (fun _ => acts_ramRestoreOp rfl) s
  | xlateRom o => exact acts_inSession (fun _ => keeps_pure (acts_steady _ _) _) s
  | xlateRam o => exact acts_inSession (fun _ => keeps_pure (acts_steady _ _) _) s

end

/-! ### The end of a command -/

/-- What the end of a command changes: it adds a result record, and a fatal error faults the session (60_exceptions.md
R272, R273, R283). -/
structure CommandEnd (u t : State) : Prop where
  frame : t = { u with phase := t.phase, fault := t.fault, revResults := t.revResults }
  fault : (t.phase = u.phase ∧ t.fault = u.fault) ∨ (t.phase = .faulted ∧ t.fault ≠ none)

theorem CommandEnd.same {u t : State} (hend : CommandEnd u t) (f : State → α)
    (hf : ∀ p e rs, f { u with phase := p, fault := e, revResults := rs } = f u) : f t = f u := by
  rw [hend.frame, hf]

theorem commandEnd_respond (r : Result) (u : State) : CommandEnd u (u.respond r) := ⟨rfl, .inl ⟨rfl, rfl⟩⟩

theorem commandEnd_takeError (e : Raised) (u : State) : CommandEnd u (takeError e u) := by
  unfold takeError State.enterFaulted
  cases fatalOf e.status with
  | none => exact commandEnd_respond _ _
  | some f => exact ⟨rfl, .inr ⟨rfl, Option.some_ne_none f⟩⟩

/-- Every command is acts of its own and an end. -/
theorem exec_acts {i : Instr} {s t : State} (hexec : exec i s = .next t) :
    ∃ u, Acts i s.hdr s u ∧ CommandEnd u t := by
  refine ⟨_, acts_commandProc i s, ?_⟩
  rw [exec_eq_runCommand] at hexec
  rcases runCommand_cases (commandProc i) s with ⟨r, u, hp, hrun⟩ | ⟨e, u, hp, hrun⟩ <;> rw [hrun] at hexec <;>
    cases hexec
  · rw [stateAfter_of_ok hp]; exact commandEnd_respond _ u
  · rw [stateAfter_of_error hp]; exact commandEnd_takeError e u

end Sys2Proof.Machine
end

section
/-! The fields of the state and the invariant (10_state.md), read off the acts: what each leaves alone, and the
statements that follow. -/

namespace Sys2Proof.Machine

/-! ### What each act leaves alone -/

section
variable {i : Instr} {o : Option Header} {s t : State}

theorem Acts.host_eq (h : Acts i o s t) : t.host = s.host :=
  h.rel (steady_same State.host) fun _ _ a => by cases a <;> rfl

theorem Acts.revPast_eq (h : Acts i o s t) : t.revPast = s.revPast :=
  h.rel (steady_same State.revPast) fun _ _ a => by cases a <;> rfl

theorem Acts.fault_eq (h : Acts i o s t) : t.fault = s.fault :=
  h.rel (steady_same State.fault) fun _ _ a => by cases a <;> rfl

theorem Acts.hdr_eq (hi : i ≠ .makeRomReader) (h : Acts i o s t) : t.hdr = s.hdr :=
  h.rel (steady_same State.hdr) fun _ _ a => by
    cases a with
    | openSession hopen => exact absurd hopen hi
    | _ => rfl

theorem Acts.phase_cases (h : Acts i o s t) : t.phase = s.phase ∨ (i = .makeRomReader ∧ t.phase = .ready) :=
  h.rel (R := fun s t => t.phase = s.phase ∨ (i = .makeRomReader ∧ t.phase = .ready))
    ⟨fun _ => .inl rfl, fun h₁ h₂ => h₂.elim (fun heq => heq ▸ h₁) .inr⟩ fun _ _ a => by
    cases a with
    | openSession hopen => exact .inr ⟨hopen, rfl⟩
    | _ => exact .inl rfl

theorem Acts.rd_eq (hi : i ≠ .makeRomReader) (hread : ∀ cap, i ≠ .romRead cap) (h : Acts i o s t) : t.rd = s.rd :=
  h.rel (steady_same State.rd) fun _ _ a => by
    cases a with
    | openSession hopen => exact absurd hopen hi
    | advance hadvance => exact absurd hadvance (not_exists.mpr hread)
    | endOfStream hend => exact absurd hend (not_exists.mpr hread)
    | _ => rfl

theorem Acts.ramEnabled_eq (hi : i ≠ .makeRomReader) (hset : ¬ SetsRamEnabled i) (h : Acts i o s t) :
    t.drv.ramEnabled = s.drv.ramEnabled :=
  h.rel (steady_same fun s => s.drv.ramEnabled) fun _ _ a => by
    cases a with
    | openSession hopen => exact absurd hopen hi
    | ramEnabled hflag => exact absurd hflag hset
    | _ => rfl

theorem Acts.romBank_eq (hi : i ≠ .makeRomReader) (hsel : ¬ SelectsRomBank i) (h : Acts i o s t) :
    t.drv.romBank = s.drv.romBank :=
  h.rel (steady_same fun s => s.drv.romBank) fun _ _ a => by
    cases a with
    | openSession hopen => exact absurd hopen hi
    | romBank hbank => exact absurd hbank hsel
    | _ => rfl

theorem Acts.ramBank_eq (hi : i ≠ .makeRomReader) (hsel : ¬ SelectsRamBank i) (h : Acts i o s t) :
    t.drv.ramBank = s.drv.ramBank :=
  h.rel (steady_same fun s => s.drv.ramBank) fun _ _ a => by
    cases a with
    | openSession hopen => exact absurd hopen hi
    | ramBank hbank => exact absurd hbank hsel
    | _ => rfl

theorem Acts.input_eq (hi : i ≠ .ramRestore) (h : Acts i o s t) : t.input = s.input :=
  h.rel (steady_same State.input) fun _ _ a => by
    cases a with
    | takeInput htake => exact absurd htake hi
    | _ => rfl

theorem Acts.revOut_eq (hi : ¬ EmitsBytes i) (h : Acts i o s t) : t.revOut = s.revOut :=
  h.rel (steady_same State.revOut) fun _ _ a => by
    cases a with
    | emit hemit => exact absurd hemit hi
    | _ => rfl

/-- The relation that a list has grown at its head, by elements that have a property. -/
theorem steady_grows {α : Type} (f : State → List α) (P : α → Prop) :
    Steady fun s t => ∃ new, f t = new ++ f s ∧ ∀ x ∈ new, P x where
  refl _ := ⟨[], rfl, by simp⟩
  trans := by
    rintro s t u ⟨xs, hxs, hpx⟩ ⟨ys, hys, hpy⟩
    exact ⟨ys ++ xs, by rw [hys, hxs, List.append_assoc], List.forall_mem_append.mpr ⟨hpy, hpx⟩⟩

/-- The acts of a command add bytes to S.out and take none away. -/
theorem Acts.revOut_grows (h : Acts i o s t) : ∃ bs, t.revOut = bs ++ s.revOut := by
  obtain ⟨bs, hbs, -⟩ := h.rel (steady_grows State.revOut fun _ => True) fun _ _ a => by
    cases a with
    | emit _ s v => exact ⟨[v], rfl, by simp⟩
    | _ => exact ⟨[], rfl, by simp⟩
  exact ⟨bs, hbs⟩

/-- An event of command i: any but a write where it may not write. -/
def EventOf (i : Instr) (o : Option Header) (e : BusEvent) : Prop := ∀ a v r, e = .write a v r → WriteTarget i o a

theorem Acts.revTrace_grows (h : Acts i o s t) :
    ∃ evs, t.revTrace = evs ++ s.revTrace ∧ ∀ e ∈ evs, EventOf i o e :=
  h.rel (steady_grows State.revTrace (EventOf i o)) fun _ _ act => by
    cases act with
    | setAddr s a => exact ⟨[.setAddr a], rfl, by simp [EventOf]⟩
    | @read s a r side => exact ⟨[.read a r], rfl, by simp [EventOf]⟩
    | @write s a v r side _ hw => exact ⟨[.write a v r], rfl, by simpa [EventOf] using hw⟩
    | wait s => exact ⟨[.wait], rfl, by simp [EventOf]⟩
    | _ => exact ⟨[], rfl, by simp⟩

end

/-! ### The invariant -/

/-- The invariant speaks of no other field, of S.addr only that it is set, and of the bus side only its canonical
form. -/
theorem State.Inv.of_same {s t : State} (hinv : s.Inv) (hphase : t.phase = s.phase) (hfault : t.fault = s.fault)
    (hhdr : t.hdr = s.hdr) (hdrv : t.drv = s.drv) (hrd : t.rd = s.rd) (haddr : s.addr ≠ none → t.addr ≠ none)
    (hbus : t.bus.wf) : t.Inv where
  romBank := hdrv ▸ hinv.romBank
  ramBank := hdrv ▸ hinv.ramBank
  fault := by rw [hphase, hfault]; exact hinv.fault
  ready hready := by
    obtain ⟨hh, ha⟩ := hinv.ready (hphase ▸ hready)
    exact ⟨hhdr ▸ hh, haddr ha⟩
  noSession hno := hhdr ▸ hinv.noSession (hphase ▸ hno)
  session h hh := by rw [hdrv, hrd]; exact hinv.session h (hhdr ▸ hh)
  bus := hbus

/-- The driver and the reader may change to any values that fit the session's header. -/
theorem State.Inv.with_session {s : State} (hinv : s.Inv) {d : Driver} {r : Reader}
    (hrom : 1 ≤ d.romBank.toNat ∧ d.romBank.toNat ≤ 511) (hram : d.ramBank.toNat ≤ 15)
    (hs : ∀ h, s.hdr = some h → SessionInv h d r) : ({ s with drv := d, rd := r } : State).Inv where
  romBank := hrom
  ramBank := hram
  fault := hinv.fault
  ready := hinv.ready
  noSession := hinv.noSession
  session := hs
  bus := hinv.bus

theorem State.Inv.with_session_of {s : State} (hinv : s.Inv) {h : Header} (hh : s.hdr = some h) {d : Driver}
    {r : Reader} (hrom : 1 ≤ d.romBank.toNat ∧ d.romBank.toNat ≤ 511) (hram : d.ramBank.toNat ≤ 15)
    (hs : SessionInv h d r) :
    ({ s with drv := d, rd := r } : State).Inv :=
  hinv.with_session hrom hram fun h' hh' => by
    obtain rfl : h = h' := Option.some.inj (hh.symm.trans hh')
    exact hs

/-- A read leaves the memories behind the bus in their canonical form. -/
theorem BusSide.read_wf {side after : BusSide} {past : List BusEvent} {a : Addr} {r : ReadAnswer} (hw : side.wf)
    (hb : side.read past a = (r, after)) : after.wf := by
  obtain rfl : (side.read past a).2 = after := congrArg Prod.snd hb
  cases side with
  | unknown answers => cases answers <;> trivial
  | reference c =>
    simp only [BusSide.read]
    split <;> exact hw

/-- A write leaves the memories behind the bus in their canonical form. -/
theorem BusSide.write_wf {side after : BusSide} {past : List BusEvent} {a : Addr} {v : Byte} {r : WriteAnswer}
    (hw : side.wf) (hb : side.write past a v = (r, after)) : after.wf := by
  obtain rfl : (side.write past a v).2 = after := congrArg Prod.snd hb
  cases side with
  | unknown answers => rcases answers with _ | ⟨_ | _, _⟩ <;> trivial
  | reference c =>
    obtain ⟨hram, hrom⟩ := hw
    simp only [BusSide.write]
    split
    · exact ⟨hram, hrom⟩
    · exact ⟨c.store_wf a v hram, (c.store_rom a v).symm ▸ hrom⟩

theorem limRom_le (h : Header) : limRom h ≤ 512 := by
  have hfam : params.famMaxRomBanks (family h) ≤ 512 := by cases family h <;> decide
  exact (Nat.min_le_left _ _).trans hfam

theorem limRam_le (h : Header) : limRam h ≤ 16 := by
  have hfam : params.famMaxRamBanks (family h) ≤ 16 := by cases family h <;> decide
  exact (Nat.min_le_left _ _).trans hfam

/-- Each act of a command keeps the invariant; its acts on the session's values are those of the session's header. -/
theorem Act.keeps_inv {i : Instr} {o : Option Header} {s t : State} (act : Act i o s t) (hinv : s.Inv)
    (ho : i ≠ .makeRomReader → s.hdr = o) : t.Inv := by
  cases act with
  | setAddr _ a => exact hinv.of_same rfl rfl rfl rfl rfl (fun _ => Option.some_ne_none a) hinv.bus
  | read _ hb => exact hinv.of_same rfl rfl rfl rfl rfl id (BusSide.read_wf hinv.bus hb)
  | write _ _ hb => exact hinv.of_same rfl rfl rfl rfl rfl id (BusSide.write_wf hinv.bus hb)
  | wait => exact hinv.of_same rfl rfl rfl rfl rfl id hinv.bus
  | emit => exact hinv.of_same rfl rfl rfl rfl rfl id hinv.bus
  | takeInput => exact hinv.of_same rfl rfl rfl rfl rfl id hinv.bus
  | ramEnabled hi b =>
    exact hinv.with_session hinv.romBank hinv.ramBank fun h hh => { hinv.session h hh with }
  | @romBank hi h hh n hpos hlim =>
    have hhdr : s.hdr = some h := (ho (by rintro rfl; simp [SelectsRomBank] at hi)).trans hh
    have hmax := limRom_le h
    have hn : (BitVec.ofNat 16 n).toNat = n := by rw [BitVec.toNat_ofNat]; omega
    exact hinv.with_session_of hhdr (by rw [hn]; omega) hinv.ramBank
      { hinv.session h hhdr with romBank := .inr (hn.symm ▸ hlim) }
  | @ramBank hi h hh n hlim =>
    have hhdr : s.hdr = some h := (ho (by rintro rfl; simp [SelectsRamBank] at hi)).trans hh
    have hmax := limRam_le h
    have hn : (BitVec.ofNat 16 n).toNat = n := by rw [BitVec.toNat_ofNat]; omega
    exact hinv.with_session_of hhdr hinv.romBank (by rw [hn]; omega)
      { hinv.session h hhdr with ramBank := .inr (hn.symm ▸ hlim) }
  | @advance hi h hh _ hlt =>
    have hhdr : s.hdr = some h := (ho (by rintro rfl; simp at hi)).trans hh
    have hs := hinv.session h hhdr
    have hnext : (s.rd.cursor + 1).toNat ≤ s.rd.cursor.toNat + 1 := by
      rw [BitVec.toNat_add]; exact Nat.mod_le _ _
    exact hinv.with_session_of hhdr hinv.romBank hinv.ramBank
      { hs with
        cursor := hnext.trans hlt
        eos := fun heos => absurd (hs.eos heos) (Nat.ne_of_lt hlt) }
  | @endOfStream hi h hh _ heq =>
    have hhdr : s.hdr = some h := (ho (by rintro rfl; simp at hi)).trans hh
    exact hinv.with_session_of hhdr hinv.romBank hinv.ramBank { hinv.session h hhdr with eos := fun _ => heq }
  | @openSession hi h₀ hw _ hp ha =>
    have hfault : s.fault = none := by
      by_contra hne
      exact hp (hinv.fault.mpr hne)
    exact {
      romBank := ⟨Nat.le_refl 1, by simp⟩
      ramBank := Nat.zero_le _
      fault := by simp [hfault]
      ready := fun _ => ⟨Option.some_ne_none h₀, ha⟩
      noSession := fun hno => by cases hno
      session := fun h hh => by
        cases hh
        exact ⟨hw, .inl rfl, .inl rfl, Nat.zero_le _, fun heos => by cases heos⟩
      bus := hinv.bus }

/-- The acts of a command together keep the invariant. -/
theorem Acts.keeps_inv {i : Instr} {s t : State} (h : Acts i s.hdr s t) (hinv : s.Inv) : t.Inv := by
  induction h with
  | refl => exact hinv
  | tail hab hbc ih => exact hbc.keeps_inv ih fun hi => Acts.hdr_eq hi hab

/-- The end of a command keeps the invariant: S.fault is set as the phase becomes Faulted. -/
theorem CommandEnd.keeps_inv {u t : State} (hend : CommandEnd u t) (hinv : u.Inv) : t.Inv := by
  rw [hend.frame]
  rcases hend.fault with ⟨hphase, hfault⟩ | ⟨hphase, hfault⟩
  · exact hinv.of_same hphase hfault rfl rfl rfl id hinv.bus
  · exact {
      romBank := hinv.romBank
      ramBank := hinv.ramBank
      fault := ⟨fun _ => hfault, fun _ => hphase⟩
      ready := fun hready => by cases hphase.symm.trans hready
      noSession := fun hno => by cases hphase.symm.trans hno
      session := hinv.session
      bus := hinv.bus }

/-- Every command keeps the invariant. -/
theorem exec_keeps_inv {i : Instr} {s t : State} (hinv : s.Inv) (hexec : exec i s = .next t) : t.Inv := by
  obtain ⟨u, hacts, hend⟩ := exec_acts hexec
  exact hend.keeps_inv (hacts.keeps_inv hinv)

/-- Settles O55, field by field. -/
theorem invariantHoldsAfterReset : Obligations.InvariantHoldsAfterReset where
  romBank := by decide
  ramBank := by decide
  fault := by simp [State.reset]
  ready hready := by cases hready
  noSession _ := rfl
  session _ hh := by cases hh
  bus := trivial

/-- The reset event leads to the invariant: but for the cartridge behind the bus it does not matter from where. -/
theorem resetEvent_inv {s : State} (hbus : s.bus.wf) : (resetEvent s).Inv :=
  State.Inv.of_same (t := resetEvent s) invariantHoldsAfterReset rfl rfl rfl rfl rfl id hbus

/-- Settles O56, over what the step finds at the host port; a command is acts that each keep the invariant, and an end
that does. -/
theorem everyStepKeepsTheInvariant : Obligations.EveryStepKeepsTheInvariant := by
  intro s t hinv hstep
  unfold step fetch at hstep
  rcases hhost : s.host with _ | ⟨w | src | _, rest⟩ <;> simp only [hhost] at hstep
  case nil => cases hstep; exact hinv
  case cons.setInput => cases hstep; exact hinv.of_same rfl rfl rfl rfl rfl id hinv.bus
  case cons.reset => cases hstep; exact resetEvent_inv hinv.bus
  case cons.command =>
    have htaken : ({ s with host := rest } : State).Inv := hinv.of_same rfl rfl rfl rfl rfl id hinv.bus
    cases hdecode : decode w <;> simp only [hdecode] at hstep
    case error e => cases hstep; exact (commandEnd_takeError _ _).keeps_inv htaken
    case ok i => exact exec_keeps_inv htaken hstep

/-! ### The state after reset -/

/-- Settles O10: each field of R40 is read off `State.reset`. -/
theorem resetStateHasTheResetValues : Obligations.ResetStateHasTheResetValues :=
  ⟨rfl, rfl, rfl, rfl, rfl, rfl, rfl, rfl, rfl, rfl, rfl⟩

/-! ### Where the writes go -/

/-- A RomOnly session's command writes no control register: its driver has none, and neither the RAM window nor
WRITE_BYTE reaches one. -/
theorem WriteTarget.not_control {i : Instr} {o : Option Header} {a : Addr} (hw : WriteTarget i o a) {h : Header}
    (ho : o = some h) (hfam : family h = .romOnly) : isControlAddr a = false := by
  rcases hw with ⟨h₀, ho₀, hne, _⟩ | ⟨_, hwindow⟩ | ⟨_, hcontrol⟩
  · cases ho.symm.trans ho₀
    exact absurd hfam hne
  · simp only [isRamWindow, Bool.and_eq_true, decide_eq_true_eq] at hwindow
    simp only [isControlAddr, decide_eq_false_iff_not]
    omega
  · exact hcontrol

/-- Settles O52: the events of a command's acts are its own, and its end adds none. -/
theorem writesGoToTheTablesRegisters : Obligations.WritesGoToTheTablesRegisters := by
  intro i s t hexec
  obtain ⟨u, hacts, hend⟩ := exec_acts hexec
  obtain ⟨evs, hevs, hof⟩ := hacts.revTrace_grows
  have hgrown : t.revTrace = evs ++ s.revTrace := (hend.same State.revTrace fun _ _ _ => rfl).trans hevs
  refine ⟨evs, hgrown, fun hi a v r hmem => ?_, fun h hh hfam e hmem => ?_⟩
  · rcases hof _ hmem a v r rfl with ⟨_, _, _, hreg⟩ | hram | ⟨⟨v, hv⟩, _⟩
    · exact .inl hreg
    · exact .inr hram
    · exact absurd hv (hi v)
  · cases e with
    | write a v r => exact (hof _ hmem a v r rfl).not_control hh hfam
    | setAddr | read | wait => rfl

/-! ### The frame of every command -/

/-- A command that only looks at the session and replies leaves the state but for its result record. -/
theorem inSession_pure_respond (f : Header → Reply) (s : State) :
    ∃ r, runCommand (inSession fun h => pure (f h)) s = .next (s.respond r) := by
  cases hp : s.phase with
  | noSession => exact ⟨_, runCommand_of_error (bind_of_error (requireSession_noSession hp))⟩
  | faulted => exact ⟨_, runCommand_of_error (bind_of_error (requireSession_faulted hp))⟩
  | ready =>
    have hbody : inSession (fun h => pure (f h)) s = (sessionHeader >>= fun h => pure (f h)) s :=
      bind_of_ok (requireSession_ready hp)
    cases hh : s.hdr with
    | some h => exact ⟨_, runCommand_of_ok (hbody.trans (bind_of_ok (sessionHeader_some hh)))⟩
    | none =>
      have hno : sessionHeader s = .error ⟨.noSession, 0⟩ s := by simp [sessionHeader, hh]
      exact ⟨_, runCommand_of_error (hbody.trans (bind_of_error hno))⟩

/-- The commands that ask the block and reach no bus. -/
abbrev IsQuery (i : Instr) : Prop :=
  i = .romSize ∨ i = .romStatus ∨ (∃ o, i = .xlateRom o) ∨ ∃ o, i = .xlateRam o

theorem exec_query {i : Instr} (hi : IsQuery i) (s : State) : ∃ r, exec i s = .next (s.respond r) := by
  rw [exec_eq_runCommand]
  rcases hi with rfl | rfl | ⟨o, rfl⟩ | ⟨o, rfl⟩
  · exact inSession_pure_respond _ s
  · cases hp : s.phase with
    | noSession => exact ⟨_, runCommand_of_error (bind_of_error (requireSession_noSession hp))⟩
    | faulted => exact ⟨_, runCommand_of_error (bind_of_error (requireSession_faulted hp))⟩
    | ready => exact ⟨_, runCommand_of_ok (bind_of_ok (requireSession_ready hp))⟩
  · exact inSession_pure_respond _ s
  · exact inSession_pure_respond _ s

/-- SET_ADDR sets the address or is refused (41_driver.md R176). -/
theorem exec_setAddr_cases (a : BitVec 16) (s : State) :
    ∃ r, exec (.setAddr a) s = .next (s.respond r) ∨ exec (.setAddr a) s = .next ((afterSetAddr s a).respond r) := by
  rw [exec_eq_runCommand]
  cases hp : s.phase with
  | noSession => exact ⟨_, .inl (runCommand_of_error (bind_of_error (requireSession_noSession hp)))⟩
  | faulted => exact ⟨_, .inl (runCommand_of_error (bind_of_error (requireSession_faulted hp)))⟩
  | ready => exact ⟨_, .inr (runCommand_of_ok (bind_of_ok (requireSession_ready hp)))⟩

theorem exec_setAddr_frame {a : BitVec 16} {s t : State} (hexec : exec (.setAddr a) s = .next t) :
    t.phase = s.phase ∧ t.fault = s.fault ∧ t.bus = s.bus := by
  obtain ⟨r, hrun | hrun⟩ := exec_setAddr_cases a s <;> cases hexec.symm.trans hrun <;> exact ⟨rfl, rfl, rfl⟩

theorem exec_query_frame {i : Instr} {s t : State} (hi : IsQuery i) (hexec : exec i s = .next t) :
    t.phase = s.phase ∧ t.fault = s.fault ∧ t.addr = s.addr ∧ t.revTrace = s.revTrace ∧ t.bus = s.bus := by
  obtain ⟨r, hrun⟩ := exec_query hi s
  cases hexec.symm.trans hrun
  exact ⟨rfl, rfl, rfl, rfl, rfl⟩

/-- How phase and S.fault change over a whole command: together, by a fatal error, or the phase to Ready by
MAKE_ROM_READER (10_state.md R20, R21). -/
theorem exec_phase_fault {i : Instr} {s t : State} (hexec : exec i s = .next t) :
    (t.phase = s.phase ∧ t.fault = s.fault) ∨ (i = .makeRomReader ∧ t.phase = .ready ∧ t.fault = s.fault) ∨
      (t.phase = .faulted ∧ t.fault ≠ none) := by
  obtain ⟨u, hacts, hend⟩ := exec_acts hexec
  rcases hend.fault with ⟨hphase, hfault⟩ | hfatal
  · have hfault' := hfault.trans hacts.fault_eq
    rcases hacts.phase_cases with hsame | ⟨hi, hready⟩
    · exact .inl ⟨hphase.trans hsame, hfault'⟩
    · exact .inr (.inl ⟨hi, hphase.trans hready, hfault'⟩)
  · exact .inr (.inr hfatal)

/-- S.hdr is written by MAKE_ROM_READER alone (10_state.md R22). -/
theorem exec_hdr {i : Instr} {s t : State} (hi : i ≠ .makeRomReader) (hexec : exec i s = .next t) : t.hdr = s.hdr := by
  obtain ⟨u, hacts, hend⟩ := exec_acts hexec
  exact (hend.same State.hdr fun _ _ _ => rfl).trans (hacts.hdr_eq hi)

/-- Settles O50: the acts of a command write the fields named in them, and its end the phase and S.fault alone. -/
theorem commandsWriteOnlyTheirOwnFields : Obligations.CommandsWriteOnlyTheirOwnFields := by
  intro i s t hexec
  obtain ⟨u, hacts, hend⟩ := exec_acts hexec
  obtain ⟨bs, hbs⟩ := hacts.revOut_grows
  have hhost : t.host = u.host := hend.same State.host fun _ _ _ => rfl
  have hpast : t.revPast = u.revPast := hend.same State.revPast fun _ _ _ => rfl
  have hrd : t.rd = u.rd := hend.same State.rd fun _ _ _ => rfl
  have hdrv : t.drv = u.drv := hend.same State.drv fun _ _ _ => rfl
  have hinput : t.input = u.input := hend.same State.input fun _ _ _ => rfl
  have hout : t.revOut = u.revOut := hend.same State.revOut fun _ _ _ => rfl
  refine ⟨hhost.trans hacts.host_eq, hpast.trans hacts.revPast_eq, ⟨bs.reverse, ?_⟩, fun hi => exec_hdr hi hexec,
    exec_phase_fault hexec, fun hi hread => hrd.trans (hacts.rd_eq hi hread), fun hi he hd hdump hrestore => ?_,
    fun hi hsel hread => ?_, fun hi hsel hdump hrestore => ?_, fun hi => hinput.trans (hacts.input_eq hi),
    fun hdump hread => ?_, ?_, fun hi => exec_query_frame hi hexec⟩
  · rw [State.out, State.out, hout, hbs, List.reverse_append]
  · rw [hdrv]
    exact hacts.ramEnabled_eq hi (by simp [SetsRamEnabled, he, hd, hdump, hrestore])
  · rw [hdrv]
    exact hacts.romBank_eq hi (by simp [SelectsRomBank, hsel, hread])
  · rw [hdrv]
    exact hacts.ramBank_eq hi (by simp [SelectsRamBank, hsel, hdump, hrestore])
  · exact hout.trans (hacts.revOut_eq (by simp [EmitsBytes, hdump, hread]))
  · rintro ⟨a, rfl⟩
    exact exec_setAddr_frame hexec

/-! ### The header of PARSE_HEADER -/

/-- A read of a range fails by a BusError alone. -/
theorem readRange_raises_busError (n : Nat) : ∀ {a : Addr} {s t : State} {e : Raised},
    readRange n a s = .error e t → e = ⟨.busError, 0⟩ := by
  induction n with
  | zero => intro a s t e hrun; cases hrun
  | succ n ih =>
    intro a s t e hrun
    rcases bind_eq_error.mp hrun with hread | ⟨_, u, _, hrun⟩
    · rcases memRead_cases a s with ⟨_, _, _, hm⟩ | ⟨_, _, hm⟩ <;> rw [hm] at hread <;> cases hread
      rfl
    · rcases bind_eq_error.mp hrun with hrest | ⟨_, _, _, hrun⟩
      · exact ih hrest
      · cases hrun

/-- PARSE_HEADER raises no error with status OK. -/
theorem parseHeader_error_ne_ok {s t : State} {e : Raised} (hrun : commandProc .parseHeader s = .error e t) :
    e.status ≠ .ok := by
  rcases bind_eq_error.mp hrun with hreq | ⟨_, u, _, hrun⟩
  · by_cases hp : s.phase = .faulted
    · rw [requireNotFaulted_faulted hp] at hreq; cases hreq; simp
    · rw [requireNotFaulted_ok hp] at hreq; cases hreq
  · rcases bind_eq_error.mp hrun with hread | ⟨_, _, _, hrun⟩
    · rcases bind_eq_error.mp hread with hrange | ⟨_, _, _, hrun⟩
      · rw [readRange_raises_busError _ hrange]; simp
      · cases hrun
    · cases hrun

/-- PARSE_HEADER replies with the header it has read (40_header.md R140). -/
theorem parseHeader_ok_reply {s t : State} {r : Reply} (hrun : commandProc .parseHeader s = .ok r t) :
    ∃ h, r = headerReply h := by
  obtain ⟨_, u, _, hrun⟩ := bind_eq_ok.mp hrun
  obtain ⟨h, w, _, hrun⟩ := bind_eq_ok.mp hrun
  cases hrun
  exact ⟨h, rfl⟩

theorem parseHeader_ok_hdr {s t : State} (hexec : exec .parseHeader s = .next t) (hok : lastStatusIs .ok t) :
    ∃ r h, t.lastResult = some r ∧ r.hdr = some h := by
  rw [exec_eq_runCommand] at hexec
  rcases runCommand_cases (commandProc .parseHeader) s with ⟨r, u, hp, hrun⟩ | ⟨e, u, hp, hrun⟩ <;>
    cases hexec.symm.trans hrun
  · obtain ⟨h, rfl⟩ := parseHeader_ok_reply hp
    exact ⟨okResult (headerReply h), h, respond_lastResult _ _, rfl⟩
  · obtain ⟨r, hlast, hstatus⟩ := hok
    have hr : errorResult e = r := Option.some.inj ((respond_lastResult _ _).symm.trans hlast)
    rw [← hr] at hstatus
    exact absurd hstatus (parseHeader_error_ne_ok hp)

/-- Settles O49: no act of another command writes S.hdr, and PARSE_HEADER's one OK reply carries the header it has
read. -/
theorem headerIsWrittenByMakeRomReaderAlone : Obligations.HeaderIsWrittenByMakeRomReaderAlone := by
  rintro i s t hexec
  refine ⟨fun hi => exec_hdr hi hexec, ?_⟩
  rintro rfl hok
  exact parseHeader_ok_hdr hexec hok

end Sys2Proof.Machine
end

section
/-! The bus side across a command (20_memory.md R62, R66 to R70, R79): the three bus primitives as statements about one
request, and what a command can do to the reference cartridge's ROM and RAM. RAM_RESTORE writes registers and data in
turn, so its part is said with what holds of the cartridge before and after each procedure (`Runs`). -/

namespace Sys2Proof.Machine

variable {α β : Type}

/-! ### The bus primitives -/

/-- Settles O11: each primitive is its event and the answer of the bus side. -/
theorem busPrimitivesRecordTheirEvents : Obligations.BusPrimitivesRecordTheirEvents := by
  intro s a v
  refine ⟨rfl, fun ha => ?_, fun hbus => ?_⟩
  · rw [busRead_at ha, busWrite_at ha]
    refine ⟨fun x side hb => ?_, fun side hb => ?_, fun side hb => ?_, fun side hb => ?_⟩ <;> rw [hb] <;> rfl
  · rw [hbus]
    exact ⟨rfl, rfl⟩

/-! ### The control registers of the reference cartridge -/

/-- The cartridge without its memories and its count of requests: its family, its RAM size and its registers are all
that decides what the RAM window shows. -/
def RefCart.control (c : RefCart) : RefCart :=
  { c with romSize := 0, rom := [], ram := [], requests := 0, failures := [] }

theorem RefCart.ramVisible_eq_of_control {c d : RefCart} (h : d.control = c.control) (a : Addr) :
    d.ramVisible a = c.ramVisible a := by
  have hd : d.ramVisible a = d.control.ramVisible a := rfl
  rw [hd, h]
  rfl

theorem RefCart.ramOffset_eq_of_control {c d : RefCart} (h : d.control = c.control) (a : Addr) :
    d.ramOffset a = c.ramOffset a := by
  have hd : d.ramOffset a = d.control.ramOffset a := rfl
  rw [hd, h]
  rfl

/-- A control write acts on the registers and looks at the family alone. -/
theorem RefCart.control_writeControl (c : RefCart) (a : Addr) (v : Byte) :
    (c.writeControl a v).control = c.control.writeControl a v := by
  rcases c with ⟨f⟩
  cases f with
  | romOnly => rfl
  | mbc1 | mbc2 | mbc3 | mbc5 => dsimp only [writeControl, control]; split_ifs <;> rfl

theorem RefCart.store_of_control {a : Addr} (ha : isControlAddr a = true) (c : RefCart) (v : Byte) :
    c.store a v = c.writeControl a v := if_pos ha

theorem RefCart.store_ram_of_control {a : Addr} (ha : isControlAddr a = true) (c : RefCart) (v : Byte) :
    (c.store a v).ram = c.ram := by
  rw [store_of_control ha, writeControl_ram]

theorem RefCart.control_store_of_control {a : Addr} (ha : isControlAddr a = true) {c d : RefCart}
    (h : d.control = c.control) (v : Byte) : (d.store a v).control = (c.store a v).control := by
  rw [store_of_control ha, store_of_control ha, control_writeControl, control_writeControl, h]

theorem RefCart.control_store_of_data {a : Addr} (ha : isControlAddr a = false) (c : RefCart) (v : Byte) :
    (c.store a v).control = c.control := by
  rcases c.store_cases a v with ⟨hcontrol, _⟩ | ⟨_, _, h⟩ | ⟨_, _, h⟩
  · exact absurd hcontrol (by simp [ha])
  · rw [h]; rfl
  · rw [h]

theorem isControlAddr_of_isRamWindow {a : Addr} (ha : isRamWindow a = true) : isControlAddr a = false := by
  simp only [isRamWindow, Bool.and_eq_true, decide_eq_true_eq] at ha
  simp only [isControlAddr, decide_eq_false_iff_not]
  omega

theorem isControlAddr_of_tableRegister {a : Addr} (ha : a ∈ tableRegisters) : isControlAddr a = true :=
  List.all_eq_true.mp (rfl : tableRegisters.all isControlAddr = true) a ha

/-- The register writes of a bank select overwrite those of an earlier one, so these leave no trace (43_ram_accessor.md
R237). -/
theorem RefCart.storeAll_ramSelectWrites_twice (c : RefCart) (f : Family) (m n : Nat) :
    (c.storeAll (ramSelectWrites f m)).storeAll (ramSelectWrites f n) = c.storeAll (ramSelectWrites f n) := by
  rcases c with ⟨g⟩
  cases f with
  | romOnly | mbc2 => rfl
  | mbc1 | mbc3 | mbc5 => cases g <;> simp [ramSelectWrites, store, writeControl, isControlAddr]

/-! ### One request to the reference cartridge -/

/-- The bus side is a reference cartridge of which P holds. -/
def CartHas (P : RefCart → Prop) (s : State) : Prop := ∃ c, s.bus = .reference c ∧ P c

theorem CartHas.mono {P Q : RefCart → Prop} (hPQ : ∀ c, P c → Q c) {s : State} (h : CartHas P s) : CartHas Q s := by
  obtain ⟨c, hc, hP⟩ := h
  exact ⟨c, hc, hPQ c hP⟩

theorem CartHas.of_bus {P : RefCart → Prop} {s t : State} (hbus : t.bus = s.bus) (h : CartHas P s) : CartHas P t := by
  obtain ⟨c, hc, hP⟩ := h
  exact ⟨c, hbus.trans hc, hP⟩

/-- A read only counts the request. -/
theorem BusSide.read_reference {c : RefCart} {past : List BusEvent} {a : Addr} {r : ReadAnswer} {side : BusSide}
    (hb : BusSide.read past a (.reference c) = (r, side)) : side = .reference c.count := by
  obtain rfl : (BusSide.read past a (.reference c)).2 = side := congrArg Prod.snd hb
  simp only [BusSide.read]
  split <;> rfl

/-- A write that succeeds stores its byte, and one that fails only counts the request. -/
theorem BusSide.write_reference {c : RefCart} {past : List BusEvent} {a : Addr} {v : Byte} {r : WriteAnswer}
    {side : BusSide} (hb : BusSide.write past a v (.reference c) = (r, side)) :
    (r = .ok ∧ side = .reference (c.store a v).count) ∨ (r = .err ∧ side = .reference c.count) := by
  simp only [BusSide.write] at hb
  split at hb <;> cases hb
  · exact .inr ⟨rfl, rfl⟩
  · exact .inl ⟨rfl, rfl⟩

/-! ### What the acts of a command keep of the cartridge -/

/-- What counting a request keeps, and every write to where the command may write, the command's acts keep. -/
theorem Acts.cartHas {i : Instr} {o : Option Header} {s t : State} {P : RefCart → Prop} (h : Acts i o s t)
    (hcount : ∀ c, P c → P c.count) (hstore : ∀ c a v, WriteTarget i o a → P c → P (c.store a v)) :
    CartHas P s → CartHas P t :=
  h.rel (R := fun s t => CartHas P s → CartHas P t) ⟨fun _ => id, fun h₁ h₂ => h₂ ∘ h₁⟩ fun _ _ act hs => by
    obtain ⟨c, hc, hP⟩ := hs
    cases act with
    | read _ hb => exact ⟨_, BusSide.read_reference (hc ▸ hb), hcount c hP⟩
    | @write _ a v _ _ _ hw hb =>
      rcases BusSide.write_reference (hc ▸ hb) with ⟨_, hside⟩ | ⟨_, hside⟩
      · exact ⟨_, hside, hcount _ (hstore c a v hw hP)⟩
      · exact ⟨_, hside, hcount c hP⟩
    | _ => exact ⟨c, hc, hP⟩

theorem exec_cartHas {i : Instr} {s t : State} {P : RefCart → Prop} (hexec : exec i s = .next t)
    (hcount : ∀ c, P c → P c.count) (hstore : ∀ c a v, WriteTarget i s.hdr a → P c → P (c.store a v))
    (hs : CartHas P s) : CartHas P t := by
  obtain ⟨u, hacts, hend⟩ := exec_acts hexec
  exact (hacts.cartHas hcount hstore hs).of_bus (hend.same State.bus fun _ _ _ => rfl)

/-- No command changes the ROM. -/
theorem exec_rom {i : Instr} {s t : State} {c : RefCart} (hc : s.bus = .reference c) (hexec : exec i s = .next t) :
    CartHas (fun d => d.rom = c.rom) t :=
  exec_cartHas hexec (fun _ h => h) (fun d a v _ h => (d.store_rom a v).trans h) ⟨c, hc, rfl⟩

/-- A command but WRITE_BYTE and RAM_RESTORE writes to control registers alone. -/
theorem WriteTarget.control {i : Instr} {o : Option Header} {a : Addr} (hw : WriteTarget i o a)
    (hbyte : ∀ v, i ≠ .writeByte v) (hrestore : i ≠ .ramRestore) : isControlAddr a = true := by
  rcases hw with ⟨_, _, _, htable⟩ | ⟨hi, _⟩ | ⟨⟨v, hi⟩, _⟩
  · exact isControlAddr_of_tableRegister htable
  · exact absurd hi hrestore
  · exact absurd hi (hbyte v)

theorem exec_ram {i : Instr} {s t : State} {c : RefCart} (hbyte : ∀ v, i ≠ .writeByte v) (hrestore : i ≠ .ramRestore)
    (hc : s.bus = .reference c) (hexec : exec i s = .next t) : CartHas (fun d => d.ram = c.ram) t :=
  exec_cartHas hexec (fun _ h => h)
    (fun d _ v hw h => (d.store_ram_of_control (hw.control hbyte hrestore) v).trans h) ⟨c, hc, rfl⟩

/-! ### WRITE_BYTE -/

/-- The end of a command leaves the bus side as its procedure left it. -/
theorem exec_bus {i : Instr} {s t : State} (hexec : exec i s = .next t) :
    t.bus = (stateAfter (commandProc i) s).bus := by
  rw [exec_eq_runCommand] at hexec
  rcases runCommand_cases (commandProc i) s with ⟨r, u, hp, hrun⟩ | ⟨e, u, hp, hrun⟩ <;>
    cases hexec.symm.trans hrun
  · rw [stateAfter_of_ok hp, respond_bus]
  · rw [stateAfter_of_error hp, takeError_bus]

theorem stateAfter_then_pure (p : Proc α) (b : β) (s : State) :
    stateAfter (do let _ ← p; pure b) s = stateAfter p s := by
  simp only [stateAfter, bind_apply]
  cases p s <;> rfl

/-- The bus side after is the one after one write of v to address a. -/
def WroteAt (a : Addr) (v : Byte) (s t : State) : Prop := ∃ past r, s.bus.write past a v = (r, t.bus)

theorem wroteAt_busWrite {s : State} {a : Addr} (ha : s.addr = some a) (v : Byte) :
    WroteAt a v s (stateAfter (busWrite v) s) := by
  have hrun := busWrite_at ha v
  rcases hb : s.bus.write s.history a v with ⟨_ | _, side⟩ <;> rw [hb] at hrun
  · rw [stateAfter_of_ok hrun]; exact ⟨_, _, hb⟩
  · rw [stateAfter_of_error hrun]; exact ⟨_, _, hb⟩

theorem wroteAt_settledWrite {s : State} {a : Addr} (ha : s.addr = some a) (v : Byte) :
    WroteAt a v s (stateAfter (settledWrite v) s) := by
  rcases settledWrite_cases ha v with ⟨side, hb, hrun⟩ | ⟨side, hb, hrun⟩
  · rw [stateAfter_of_ok hrun]; exact ⟨_, _, hb⟩
  · rw [stateAfter_of_error hrun]; exact ⟨_, _, hb⟩

/-- WRITE_BYTE leaves the bus side as it was or does one write at S.addr (41_driver.md R178). -/
theorem commandProc_writeByte_bus (v : BitVec 8) (s : State) :
    (stateAfter (commandProc (.writeByte v)) s).bus = s.bus ∨
    ∃ a, s.addr = some a ∧ WroteAt a v s (stateAfter (commandProc (.writeByte v)) s) := by
  cases hp : s.phase with
  | noSession => exact .inl (congrArg State.bus (stateAfter_of_error (bind_of_error (requireSession_noSession hp))))
  | faulted => exact .inl (congrArg State.bus (stateAfter_of_error (bind_of_error (requireSession_faulted hp))))
  | ready =>
    rw [stateAfter_congr (p := commandProc (.writeByte v)) (bind_of_ok (requireSession_ready hp))]
    rcases writeByteAddr_cases s with ⟨_, h⟩ | ⟨_, _, _, h⟩ | ⟨_, _, _, _, _, h⟩ | ⟨a, ha, _, _, h⟩
    · exact .inl (by rw [stateAfter_of_error (bind_of_error h)])
    · exact .inl (by rw [stateAfter_of_error (bind_of_error h)])
    · exact .inl (by rw [stateAfter_of_error (bind_of_error h)])
    · refine .inr ⟨a, ha, ?_⟩
      rw [stateAfter_congr (bind_of_ok h)]
      split <;> rw [stateAfter_then_pure]
      · exact wroteAt_settledWrite ha v
      · exact wroteAt_busWrite ha v

/-- What holds of the cartridge, counted or with v stored at S.addr, holds of it after WRITE_BYTE. -/
theorem exec_writeByte_cartHas {v : BitVec 8} {s t : State} {c : RefCart} {P : RefCart → Prop}
    (hc : s.bus = .reference c) (hexec : exec (.writeByte v) s = .next t) (hsame : P c) (hcount : ∀ d, P d → P d.count)
    (hstore : ∀ a, s.addr = some a → P (c.store a v)) : CartHas P t := by
  have hbus := exec_bus hexec
  rcases commandProc_writeByte_bus v s with hstay | ⟨a, ha, past, r, hb⟩
  · exact ⟨c, hbus.trans (hstay.trans hc), hsame⟩
  · rcases BusSide.write_reference (hc ▸ hb) with ⟨_, hside⟩ | ⟨_, hside⟩
    · exact ⟨_, hbus.trans hside, hcount _ (hstore a ha)⟩
    · exact ⟨_, hbus.trans hside, hcount _ hsame⟩

/-- The RAM of d is the RAM of c but for what a write at a can reach. -/
structure RamKeptBut (a : Option Addr) (c d : RefCart) : Prop where
  unset  : a = none → d.ram = c.ram
  hidden : ∀ x, a = some x → c.ramVisible x = false → d.ram = c.ram
  others : ∀ x, a = some x → ∀ o, o ≠ c.ramOffset x → d.ramByte o = c.ramByte o

theorem exec_writeByte_ram {v : BitVec 8} {s t : State} {c : RefCart} (hw : Memory.wf ramFill c.ram)
    (hc : s.bus = .reference c) (hexec : exec (.writeByte v) s = .next t) : CartHas (RamKeptBut s.addr c) t := by
  refine exec_writeByte_cartHas hc hexec ⟨fun _ => rfl, fun _ _ _ => rfl, fun _ _ _ _ => rfl⟩
    (fun d h => ⟨h.unset, h.hidden, h.others⟩) fun a ha => ⟨fun hnone => ?_, fun x hx hv => ?_, fun x hx o ho => ?_⟩
  · cases ha.symm.trans hnone
  · cases ha.symm.trans hx
    exact c.store_ram_hidden a v hv
  · cases ha.symm.trans hx
    exact c.store_ramByte a v hw fun _ => ho

/-! ### Running a procedure between two conditions -/

/-- From state s a procedure returns where Q holds, or raises its error where E holds. -/
structure RunsFrom (E Q : State → Prop) (p : Proc α) (s : State) : Prop where
  ok    : ∀ {a t}, p s = .ok a t → Q t
  error : ∀ {e t}, p s = .error e t → E t

/-- From every state in which P holds, a procedure returns where Q holds, or raises its error where E holds. -/
def Runs (E P : State → Prop) (p : Proc α) (Q : State → Prop) : Prop := ∀ s, P s → RunsFrom E Q p s

theorem runsFrom_of_ok {E Q : State → Prop} {p : Proc α} {s t : State} {a : α} (h : p s = .ok a t) (hQ : Q t) :
    RunsFrom E Q p s where
  ok h' := by cases h.symm.trans h'; exact hQ
  error h' := by cases h.symm.trans h'

theorem runsFrom_of_error {E Q : State → Prop} {p : Proc α} {s t : State} {e : Raised} (h : p s = .error e t)
    (hE : E t) : RunsFrom E Q p s where
  ok h' := by cases h.symm.trans h'
  error h' := by cases h.symm.trans h'; exact hE

section
variable {E P Q S : State → Prop}

theorem runs_pure (hPQ : ∀ s, P s → Q s) (a : α) : Runs E P (pure a) Q := fun s hP => runsFrom_of_ok rfl (hPQ s hP)

theorem runs_raise (hPE : ∀ s, P s → E s) (e : Status) : Runs E P (raise e : Proc α) Q :=
  fun s hP => runsFrom_of_error rfl (hPE s hP)

theorem runs_modifyState {f : State → State} (hf : ∀ s, P s → Q (f s)) : Runs E P (modifyState f) Q :=
  fun s hP => runsFrom_of_ok rfl (hf s hP)

theorem runs_bind {p : Proc α} {f : α → Proc β} (hp : Runs E P p Q) (hf : ∀ a, Runs E Q (f a) S) :
    Runs E P (p >>= f) S := fun s hP => by
  cases h : p s with
  | ok a t =>
    have hft := hf a t ((hp s hP).ok h)
    exact ⟨fun h' => hft.ok ((bind_of_ok h).symm.trans h'), fun h' => hft.error ((bind_of_ok h).symm.trans h')⟩
  | error e t => exact runsFrom_of_error (bind_of_error h) ((hp s hP).error h)

theorem runs_withMoved (k : Nat) {p : Proc α} (hp : Runs E P p Q) : Runs E P (withMoved k p) Q := fun s hP =>
  ⟨fun h => (hp s hP).ok (withMoved_eq_ok.mp h), fun h => by
    obtain ⟨e₀, h₀, _⟩ := withMoved_eq_error.mp h
    exact (hp s hP).error h₀⟩

/-- A loop over bytes keeps what each turn keeps. -/
theorem runs_forBytes {body : Nat → Proc Unit} {limit : Nat} (hb : ∀ k < limit, Runs E P (body k) P) (n : Nat) :
    ∀ first moved, first + n ≤ limit → Runs E P (forBytes body n first moved) P := by
  induction n with
  | zero => exact fun _ _ _ => runs_pure (fun _ => id) ()
  | succ n ih =>
    exact fun first moved hle => runs_bind (runs_withMoved _ (hb first (by omega))) fun _ => ih _ _ (by omega)

/-- A loop over banks keeps what each turn keeps. -/
theorem runs_forBanks {body : Nat → Proc Unit} {size limit : Nat} (hb : ∀ b < limit, Runs E P (body b) P) (n : Nat) :
    ∀ first, first + n ≤ limit → Runs E P (forBanks size body n first) P := by
  induction n with
  | zero => exact fun _ _ => runs_pure (fun _ => id) ()
  | succ n ih =>
    exact fun first hle => runs_bind (runs_withMoved _ (hb first (by omega))) fun _ => ih _ (by omega)

theorem Runs.stateAfter {p : Proc α} (hp : Runs E P p Q) (hQE : ∀ s, Q s → E s) {s : State} (hP : P s) :
    E (stateAfter p s) := by
  cases h : p s with
  | ok a t => rw [stateAfter_of_ok h]; exact hQE t ((hp s hP).ok h)
  | error e t => rw [stateAfter_of_error h]; exact (hp s hP).error h

end

/-! ### RAM_RESTORE -/

/-- The RAM of d, canonical, holds c's byte at offset o. -/
structure HoldsByte (c : RefCart) (o : Nat) (d : RefCart) : Prop where
  wf   : Memory.wf ramFill d.ram
  byte : d.ramByte o = c.ramByte o

/-- The RAM of d holds c's byte at offset o, and its window shows what that of r shows. -/
structure HoldsByteAs (c : RefCart) (o : Nat) (r d : RefCart) : Prop extends HoldsByte c o d where
  control : d.control = r.control

section
variable {c r d : RefCart} {o : Nat}

theorem HoldsByte.count (h : HoldsByte c o d) : HoldsByte c o d.count := ⟨h.wf, h.byte⟩

theorem HoldsByteAs.count (h : HoldsByteAs c o r d) : HoldsByteAs c o r d.count := ⟨h.toHoldsByte.count, h.control⟩

/-- A register write leaves the byte, and the window shows what the same write makes it show. -/
theorem HoldsByteAs.store_control {a : Addr} (ha : isControlAddr a = true) (v : Byte) (h : HoldsByteAs c o r d) :
    HoldsByteAs c o (r.store a v) (d.store a v) where
  wf := d.store_wf a v h.wf
  byte := by
    have hram := d.store_ram_of_control ha v
    rw [RefCart.ramByte, hram]
    exact h.byte
  control := RefCart.control_store_of_control ha h.control v

/-- A write to the window leaves the byte where the window does not show it, and shows what it showed. -/
theorem HoldsByteAs.store_window {a : Addr} (ha : isRamWindow a = true) (v : Byte)
    (ho : r.ramVisible a = true → o ≠ r.ramOffset a) (h : HoldsByteAs c o r d) :
    HoldsByteAs c o r (d.store a v) where
  wf := d.store_wf a v h.wf
  byte := by
    rw [← RefCart.ramVisible_eq_of_control h.control, ← RefCart.ramOffset_eq_of_control h.control] at ho
    exact (d.store_ramByte a v h.wf ho).trans h.byte
  control := (d.control_store_of_data (isControlAddr_of_isRamWindow ha) v).trans h.control

end

section
variable {c r : RefCart} {o : Nat} {h : Header}

/-- The bus side is a cartridge whose RAM holds c's byte at offset o. -/
abbrev ByteHeld (c : RefCart) (o : Nat) : State → Prop := CartHas (HoldsByte c o)

/-- The bus side is a cartridge whose RAM holds c's byte at offset o and whose window shows what that of r shows. -/
abbrev ByteHeldAs (c : RefCart) (o : Nat) (r : RefCart) : State → Prop := CartHas (HoldsByteAs c o r)

theorem ByteHeldAs.held {s : State} (hs : ByteHeldAs c o r s) : ByteHeld c o s := hs.mono fun _ => (·.toHoldsByte)

theorem runs_memRead (a : Addr) : Runs (ByteHeld c o) (ByteHeldAs c o r) (memRead a) (ByteHeldAs c o r) := by
  rintro s ⟨d, hd, hP⟩
  rcases memRead_cases a s with ⟨_, side, hb, hrun⟩ | ⟨side, hb, hrun⟩
  · exact runsFrom_of_ok hrun ⟨_, BusSide.read_reference (hd ▸ hb), hP.count⟩
  · exact runsFrom_of_error hrun ⟨_, BusSide.read_reference (hd ▸ hb), hP.toHoldsByte.count⟩

theorem runs_memWrite_control {a : Addr} (ha : isControlAddr a = true) (v : Byte) :
    Runs (ByteHeld c o) (ByteHeldAs c o r) (memWrite a v) (ByteHeldAs c o (r.store a v)) := by
  rintro s ⟨d, hd, hP⟩
  rcases memWrite_cases a v s with ⟨side, hb, hrun⟩ | ⟨side, hb, hrun⟩ <;>
    rcases BusSide.write_reference (hd ▸ hb) with ⟨hr, hside⟩ | ⟨hr, hside⟩ <;> cases hr
  · exact runsFrom_of_ok hrun ⟨_, hside, (hP.store_control ha v).count⟩
  · exact runsFrom_of_error hrun ⟨_, hside, hP.toHoldsByte.count⟩

theorem runs_runSeq {seq : List (Addr × Byte)} (hseq : ∀ p ∈ seq, isControlAddr p.1 = true) :
    ∀ {r : RefCart}, Runs (ByteHeld c o) (ByteHeldAs c o r) (runSeq seq) (ByteHeldAs c o (r.storeAll seq)) := by
  induction seq with
  | nil => exact runs_pure (fun _ => id) ()
  | cons p seq ih =>
    obtain ⟨hp, hrest⟩ := List.forall_mem_cons.mp hseq
    exact runs_bind (runs_memWrite_control hp p.2) fun _ => ih hrest

theorem runs_driverOp {seq : List (Addr × Byte)} (hseq : ∀ p ∈ seq, IsDriverRegister (family h) p.1)
    (f : Driver → Driver) :
    Runs (ByteHeld c o) (ByteHeldAs c o r) (do runSeq seq; modifyDriver f) (ByteHeldAs c o (r.storeAll seq)) :=
  runs_bind (runs_runSeq fun p hp => isControlAddr_of_tableRegister (hseq p hp).2) fun _ =>
    runs_modifyState fun _ => id

/-- The register write of the pre-write fix (30_encoding.md R115). -/
def fixWrites (h : Header) : List (Addr × Byte) := if family h = .mbc1 then [(0x6000, 0x01)] else []

/-- The register writes that select bank b for an accessor (43_ram_accessor.md R233). -/
def accessSelectWrites (h : Header) (b : Nat) : List (Addr × Byte) :=
  if needSelect h then ramSelectWrites (family h) b else []

/-- The register writes of a restore before its first bank: the fix and the enable (43_ram_accessor.md R237). -/
def restoreOpening (h : Header) : List (Addr × Byte) := fixWrites h ++ ramEnableWrites (family h) 0x0A

theorem restoreSetup_eq (h : Header) (b : Nat) : restoreSetup h b = restoreOpening h ++ accessSelectWrites h b := rfl

theorem storeAll_accessSelectWrites_twice (r : RefCart) (m n : Nat) :
    (r.storeAll (accessSelectWrites h m)).storeAll (accessSelectWrites h n) = r.storeAll (accessSelectWrites h n) := by
  unfold accessSelectWrites
  split
  · exact r.storeAll_ramSelectWrites_twice _ m n
  · rfl

theorem runs_preWriteFix :
    Runs (ByteHeld c o) (ByteHeldAs c o r) (preWriteFix (family h)) (ByteHeldAs c o (r.storeAll (fixWrites h))) := by
  unfold fixWrites
  cases family h with
  | mbc1 => exact runs_memWrite_control (by decide) _
  | mbc2 => exact runs_bind (runs_memRead _) fun _ => runs_pure (fun _ => id) _
  | romOnly | mbc3 | mbc5 => exact runs_pure (fun _ => id) ()

theorem runs_enableRamOp :
    Runs (ByteHeld c o) (ByteHeldAs c o r) (enableRamOp (family h))
      (ByteHeldAs c o (r.storeAll (ramEnableWrites (family h) 0x0A))) :=
  enableSeq_eq (family h) ▸ runs_driverOp enableSeq_registers _

theorem runs_selectForAccess (b : Nat) :
    Runs (ByteHeld c o) (ByteHeldAs c o r) (selectForAccess h b)
      (ByteHeldAs c o (r.storeAll (accessSelectWrites h b))) := by
  unfold selectForAccess accessSelectWrites
  by_cases hneed : needSelect h = true
  · rw [if_pos hneed, if_pos hneed]
    by_cases hlim : limRam h ≤ b
    · rw [selectRamOp_refused (.inr hlim)]
      exact runs_raise (fun _ => ByteHeldAs.held) _
    · obtain ⟨hbanking, _⟩ := Bool.and_eq_true_iff.mp hneed
      have hb : b < limRam h := Nat.lt_of_not_le hlim
      have hmax : b < params.famMaxRamBanks (family h) := Nat.lt_of_lt_of_le hb (Nat.min_le_left ..)
      rw [selectRamOp_allowed hbanking hb, ← ramBankSeq_eq hmax]
      exact runs_driverOp ramBankSeq_registers _
  · rw [if_neg hneed, if_neg hneed]
    exact runs_pure (fun _ => id) ()

theorem runs_takeInput (k : Nat) : Runs (ByteHeld c o) (ByteHeldAs c o r) (takeInput k) (ByteHeldAs c o r) := by
  intro s hs
  rcases takeInput_cases k s with ⟨_, hrun⟩ | ⟨_, _, hrun⟩ | ⟨_, _, hrun⟩
  · exact runsFrom_of_ok hrun hs
  · exact runsFrom_of_error hrun hs.held
  · exact runsFrom_of_ok hrun hs

/-- The RAM window of r, anywhere, does not show offset o. -/
def Unshown (r : RefCart) (o : Nat) : Prop :=
  ∀ k < ramBankSize, r.ramVisible (ramWindowAddr k) = true → o ≠ r.ramOffset (ramWindowAddr k)

theorem runs_restoreByte (ho : Unshown r o) (chunk : List Byte) {k : Nat} (hk : k < ramBankSize) :
    Runs (ByteHeld c o) (ByteHeldAs c o r) (restoreByte chunk k) (ByteHeldAs c o r) := by
  rintro s ⟨d, hd, hP⟩
  have hstored := fun v => (hP.store_window (isRamWindow_ramWindowAddr hk) v (ho k hk)).count
  have hset : restoreByte chunk k s = settledWrite (restoreValue chunk k) (afterSetAddr s (ramWindowAddr k)) := rfl
  rcases settledWrite_cases (s := afterSetAddr s (ramWindowAddr k)) rfl (restoreValue chunk k) with
    ⟨side, hb, hrun⟩ | ⟨side, hb, hrun⟩ <;>
    rcases BusSide.write_reference (hd ▸ hb) with ⟨hr, hside⟩ | ⟨hr, hside⟩ <;> cases hr
  · exact runsFrom_of_ok (hset.trans hrun) ⟨_, hside, hstored _⟩
  · exact runsFrom_of_error (hset.trans hrun) ⟨_, hside, hP.toHoldsByte.count⟩

theorem runs_restoreBank {b : Nat} (ho : Unshown (r.storeAll (accessSelectWrites h b)) o) :
    Runs (ByteHeld c o) (ByteHeldAs c o r) (restoreBank h b)
      (ByteHeldAs c o (r.storeAll (accessSelectWrites h b))) :=
  runs_bind (runs_selectForAccess b) fun _ => runs_bind (runs_takeInput _) fun chunk =>
    runs_forBytes (limit := ramBankSize) (fun _ => runs_restoreByte ho chunk) _ 0 0 (by omega)

/-- What stands between the banks of a restore: the byte is held, and the next bank's select makes the window show what
it would have shown from r₀. -/
def BetweenBanks (c : RefCart) (o : Nat) (h : Header) (r₀ : RefCart) (s : State) : Prop :=
  ∃ r, ByteHeldAs c o r s ∧ ∀ b, r.storeAll (accessSelectWrites h b) = r₀.storeAll (accessSelectWrites h b)

theorem runs_restoreBanks {r₀ : RefCart} (ho : ∀ b < ramBanks h, Unshown (r₀.storeAll (accessSelectWrites h b)) o) :
    Runs (ByteHeld c o) (BetweenBanks c o h r₀) (forBanks ramBankSize (restoreBank h) (ramBanks h) 0)
      (BetweenBanks c o h r₀) := by
  refine runs_forBanks (limit := ramBanks h) (fun b hb s hs => ?_) _ 0 (by omega)
  obtain ⟨r, hheld, hsel⟩ := hs
  have hbank := runs_restoreBank ((hsel b).symm ▸ ho b hb) s hheld
  refine ⟨fun hrun => ⟨_, hbank.ok hrun, fun n => ?_⟩, hbank.error⟩
  rw [storeAll_accessSelectWrites_twice, hsel]

/-- A restore leaves a byte that no bank's window shows. -/
theorem runs_ramRestoreOp (ho : ∀ b < ramBanks h, Unshown (c.storeAll (restoreSetup h b)) o) :
    Runs (ByteHeld c o) (ByteHeldAs c o c) (ramRestoreOp h) (ByteHeld c o) := by
  unfold ramRestoreOp
  split
  · exact runs_pure (fun _ => ByteHeldAs.held) _
  have hlimit : Runs (ByteHeld c o) (ByteHeldAs c o c) (bankLimitCheck h) (ByteHeldAs c o c) := by
    unfold bankLimitCheck
    split
    · exact runs_raise (fun _ => ByteHeldAs.held) _
    · exact runs_pure (fun _ => id) _
  have hbanks := runs_restoreBanks (c := c) (r₀ := c.storeAll (restoreOpening h)) (o := o) (h := h) fun b hb => by
    rw [← RefCart.storeAll_append, ← restoreSetup_eq]
    exact ho b hb
  have hdisable : Runs (ByteHeld c o) (BetweenBanks c o h (c.storeAll (restoreOpening h)))
      (withMoved (ramImageSize h) (disableRamOp (family h))) (ByteHeld c o) :=
    runs_withMoved _ fun s ⟨r, hheld, _⟩ =>
      have hrun := runs_driverOp (h := h) disableSeq_registers (fun d => { d with ramEnabled := false }) s hheld
      ⟨fun hok => (hrun.ok hok).held, hrun.error⟩
  refine runs_bind hlimit fun _ => runs_bind runs_preWriteFix fun _ => runs_bind runs_enableRamOp fun _ => ?_
  rw [← RefCart.storeAll_append]
  exact runs_bind (fun s hs => hbanks s ⟨_, hs, fun _ => rfl⟩) fun _ =>
    runs_bind hdisable fun _ => runs_pure (fun _ => id) _

/-- A command in a session leaves the state as it is, or does its body on the session header. -/
theorem stateAfter_inSession (body : Header → Proc Reply) (s : State) :
    stateAfter (inSession body) s = s ∨
    ∃ h, s.hdr = some h ∧ stateAfter (inSession body) s = stateAfter (body h) s := by
  cases hp : s.phase with
  | noSession => exact .inl (stateAfter_of_error (bind_of_error (requireSession_noSession hp)))
  | faulted => exact .inl (stateAfter_of_error (bind_of_error (requireSession_faulted hp)))
  | ready =>
    unfold inSession
    rw [stateAfter_congr (bind_of_ok (requireSession_ready hp))]
    cases hh : s.hdr with
    | none =>
      have hno : sessionHeader s = .error ⟨.noSession, 0⟩ s := by simp [sessionHeader, hh]
      exact .inl (stateAfter_of_error (bind_of_error hno))
    | some h => exact .inr ⟨h, rfl, stateAfter_congr (bind_of_ok (sessionHeader_some hh))⟩

theorem exec_ramRestore_byteHeld {s t : State} (hw : Memory.wf ramFill c.ram) (hc : s.bus = .reference c)
    (hexec : exec .ramRestore s = .next t) (hh : s.hdr = some h)
    (ho : ∀ b < ramBanks h, Unshown (c.storeAll (restoreSetup h b)) o) : ByteHeld c o t := by
  have hs : ByteHeldAs c o c s := ⟨c, hc, ⟨hw, rfl⟩, rfl⟩
  refine CartHas.of_bus (exec_bus hexec) ?_
  rcases stateAfter_inSession ramRestoreOp s with hstay | ⟨h', hh', hbody⟩
  · exact hs.held.of_bus (congrArg State.bus hstay)
  · cases hh.symm.trans hh'
    exact CartHas.of_bus (congrArg State.bus hbody) ((runs_ramRestoreOp ho).stateAfter (fun _ => id) hs)

end

/-! ### The memory frame -/

/-- The bus side is one cartridge. -/
theorem CartHas.of_reference {P : RefCart → Prop} {s : State} {c : RefCart} (h : CartHas P s)
    (hc : s.bus = .reference c) : P c := by
  obtain ⟨d, hd, hP⟩ := h
  cases hd.symm.trans hc
  exact hP

/-- Settles O54: the acts of every command keep the ROM, and those of a command but the two RAM writers the RAM;
WRITE_BYTE is one write at S.addr, and RAM_RESTORE writes through the windows its banks' selects show. -/
theorem onlyRamWritesChangeCartridgeRam : Obligations.OnlyRamWritesChangeCartridgeRam := by
  intro i s t c hinv hc hexec
  have hw : Memory.wf ramFill c.ram := by
    have hbus := hinv.bus
    rw [hc] at hbus
    exact hbus.1
  obtain ⟨c', hc', hrom⟩ := exec_rom hc hexec
  refine ⟨c', hc', hrom, fun hbyte hrestore => (exec_ram hbyte hrestore hc hexec).of_reference hc', ?_, ?_⟩
  · rintro ⟨v, rfl⟩
    have hkept := (exec_writeByte_ram hw hc hexec).of_reference hc'
    exact ⟨hkept.unset, fun a ha => ⟨hkept.hidden a ha, hkept.others a ha⟩⟩
  · rintro rfl h hh o ho
    exact ((exec_ramRestore_byteHeld hw hc hexec hh ho).of_reference hc').byte

end Sys2Proof.Machine
end

section
/-! The words of the commands. A word is its opcode field beside its operand area, and it is legal exactly when the
opcode has a row and the area fits the operand field of the row's format; decoding, encoding, the assembler's checks
and the masks of the opcode table are all read off that (30_encoding.md R100 to R108). -/

namespace Sys2Proof

open Laws Machine

/-! ### The fields of a word -/

theorem opcodeField_append_imm24 (w : Word) : opcodeField w ++ imm24 w = w :=
  BitVec.extractLsb'_append_extractLsb' (w := 8) (len := 24)

theorem append_eq_iff {op : Byte} {x : BitVec 24} {w : Word} : op ++ x = w ↔ op = opcodeField w ∧ x = imm24 w := by
  constructor
  · rintro rfl
    exact ⟨(opcodeField_append op x).symm, (imm24_append op x).symm⟩
  · rintro ⟨rfl, rfl⟩
    exact opcodeField_append_imm24 w

theorem toNat_ushiftRight_24 (w : Word) : (w >>> 24).toNat = (opcodeField w).toNat := by
  simp only [opcodeField, BitVec.toNat_ushiftRight, BitVec.extractLsb'_toNat, Nat.shiftRight_eq_div_pow]
  omega

theorem imm24_toNat (w : Word) : (imm24 w).toNat = w.toNat % 2 ^ 24 := by simp [imm24]

/-- An operand area of 8 bits is its operand. -/
theorem imm8_toNat {w : Word} (h : (imm24 w).toNat < 2 ^ 8) : (imm8 w).toNat = (imm24 w).toNat := by
  have hbits : (imm8 w).toNat = w.toNat % 2 ^ 8 := by simp [imm8]
  rw [imm24_toNat] at h
  rw [hbits, imm24_toNat]
  omega

/-- An operand area of 16 bits is its operand. -/
theorem imm16_toNat {w : Word} (h : (imm24 w).toNat < 2 ^ 16) : (imm16 w).toNat = (imm24 w).toNat := by
  have hbits : (imm16 w).toNat = w.toNat % 2 ^ 16 := by simp [imm16]
  rw [imm24_toNat] at h
  rw [hbits, imm24_toNat]
  omega

/-- A field at the top of the operand area is zero when the area is a number of the bits below it. -/
theorem extractLsb'_eq_zero_iff {w : Word} {low len : Nat} (h : low + len = 24) :
    w.extractLsb' low len = 0#len ↔ (imm24 w).toNat < 2 ^ low := by
  have hfield : (w.extractLsb' low len).toNat = (imm24 w).toNat / 2 ^ low := by
    rw [BitVec.extractLsb'_toNat, imm24_toNat, Nat.shiftRight_eq_div_pow, ← h, Nat.pow_add, Nat.mod_mul_right_div_self]
  rw [← BitVec.toNat_inj, hfield, BitVec.toNat_zero, Nat.div_eq_zero_iff_lt (Nat.two_pow_pos low)]

/-- The reserved bits of a format are zero when the operand area is a number its operand field can hold. -/
theorem reservedClear_iff (f : Format) (w : Word) :
    reservedClear f w = true ↔ (imm24 w).toNat < 2 ^ f.operandBits := by
  cases f with
  | n | b8 | h16 => exact beq_iff_eq.trans (extractLsb'_eq_zero_iff rfl)
  | w24 => exact ⟨fun _ => (imm24 w).isLt, fun _ => rfl⟩

/-! ### The opcode map -/

@[simp] theorem mnemonicOf_opcode (m : Mnemonic) : mnemonicOf m.opcode = some m := by cases m <;> rfl

theorem mnemonicOf_eq_some {op : Byte} {m : Mnemonic} : mnemonicOf op = some m ↔ op = m.opcode := by
  refine ⟨fun h => ?_, fun h => h ▸ mnemonicOf_opcode m⟩
  unfold mnemonicOf at h
  split at h <;> cases h <;> exact BitVec.eq_of_toNat_eq ‹_›

/-- The opcodes without a command (30_encoding.md R106). -/
theorem mnemonicOf_eq_none (op : Byte) : mnemonicOf op = none ↔ op.toNat = 0 ∨ 0x11 ≤ op.toNat := by
  revert op; decide +kernel

/-! ### Commands and their operands -/

@[simp] theorem mnemonic_withOperand (m : Mnemonic) (w : Word) : (m.withOperand w).mnemonic = m := by cases m <;> rfl

/-- Where the reserved bits are zero, the operand field is the whole operand area. -/
theorem operandArea_withOperand {m : Mnemonic} {w : Word} (h : reservedClear m.format w = true) :
    (m.withOperand w).operandArea = imm24 w := by
  have hfits := (reservedClear_iff _ w).mp h
  cases m with
  | writeByte => exact BitVec.eq_of_toNat_eq ((BitVec.toNat_setWidth_of_le (by decide)).trans (imm8_toNat hfits))
  | selectRomBank | selectRamBank | setAddr =>
    exact BitVec.eq_of_toNat_eq ((BitVec.toNat_setWidth_of_le (by decide)).trans (imm16_toNat hfits))
  | romRead | xlateRom | xlateRam => rfl
  | parseHeader | makeRomReader | enableRam | disableRam | readByte | romSize | romStatus | ramDump | ramRestore =>
    exact BitVec.eq_of_toNat_eq (Nat.lt_one_iff.mp hfits).symm

/-- A command reads its operand back from every word whose operand area holds it. -/
theorem withOperand_of_imm24 {i : Instr} {w : Word} (h : (imm24 w).toNat = i.operand?.getD 0) :
    i.mnemonic.withOperand w = i := by
  cases i with
  | writeByte v => exact congrArg _ (BitVec.eq_of_toNat_eq ((imm8_toNat (h ▸ v.isLt)).trans h))
  | selectRomBank n | selectRamBank n | setAddr n =>
    exact congrArg _ (BitVec.eq_of_toNat_eq ((imm16_toNat (h ▸ n.isLt)).trans h))
  | romRead o | xlateRom o | xlateRam o => exact congrArg _ (BitVec.eq_of_toNat_eq h)
  | parseHeader | makeRomReader | enableRam | disableRam | readByte | romSize | romStatus | ramDump | ramRestore => rfl

/-- An operand fits the field of its command's format. -/
theorem operand_lt (i : Instr) : i.operand?.getD 0 < 2 ^ i.mnemonic.format.operandBits := by
  cases i with
  | writeByte v => exact v.isLt
  | selectRomBank n | selectRamBank n | setAddr n => exact n.isLt
  | romRead o | xlateRom o | xlateRam o => exact o.isLt
  | parseHeader | makeRomReader | enableRam | disableRam | readByte | romSize | romStatus | ramDump | ramRestore =>
    exact Nat.one_pos

theorem operandArea_toNat (i : Instr) : i.operandArea.toNat = i.operand?.getD 0 := by
  cases i with
  | writeByte | selectRomBank | selectRamBank | setAddr => exact BitVec.toNat_setWidth_of_le (by decide)
  | romRead | xlateRom | xlateRam => rfl
  | parseHeader | makeRomReader | enableRam | disableRam | readByte | romSize | romStatus | ramDump | ramRestore => rfl

/-! ### Decoding and encoding -/

theorem decode_eq_ok {w : Word} {i : Instr} :
    decode w = .ok i ↔
      opcodeField w = i.mnemonic.opcode ∧ reservedClear i.mnemonic.format w = true ∧ i.mnemonic.withOperand w = i := by
  unfold decode
  constructor
  · intro h
    split at h
    · cases h
    next m hm =>
      split at h
      next hclear =>
        cases h
        rw [mnemonic_withOperand]
        exact ⟨mnemonicOf_eq_some.mp hm, hclear, rfl⟩
      · cases h
  · rintro ⟨hop, hclear, hoperand⟩
    simp only [hop, mnemonicOf_opcode, hclear, if_true, hoperand]

/-- A word is illegal for one of the two causes of 30_encoding.md R106. -/
theorem decode_eq_error {w : Word} :
    (∃ e, decode w = .error e) ↔
      mnemonicOf (opcodeField w) = none ∨
      ∃ m, mnemonicOf (opcodeField w) = some m ∧ reservedClear m.format w = false := by
  unfold decode
  cases hm : mnemonicOf (opcodeField w) with
  | none => simp
  | some m => cases hclear : reservedClear m.format w <;> simp [hclear]

/-- Decoding gives the command back whose word it reads (30_encoding.md R107). -/
theorem decode_encode (i : Instr) : decode (encode i) = .ok i := by
  have hop : opcodeField (encode i) = i.mnemonic.opcode := opcodeField_append _ _
  have harea : (imm24 (encode i)).toNat = i.operand?.getD 0 :=
    (congrArg BitVec.toNat (imm24_append _ _)).trans (operandArea_toNat i)
  exact decode_eq_ok.mpr
    ⟨hop, (reservedClear_iff _ _).mpr (harea ▸ operand_lt i), withOperand_of_imm24 harea⟩

/-- Encoding gives the word back that decodes to the command (30_encoding.md R107). -/
theorem encode_of_decode {w : Word} {i : Instr} (h : decode w = .ok i) : encode i = w := by
  obtain ⟨hop, hclear, hoperand⟩ := decode_eq_ok.mp h
  have harea : i.operandArea = imm24 w := hoperand ▸ operandArea_withOperand hclear
  exact append_eq_iff.mpr ⟨hop.symm, harea⟩

/-- Settles O1: the type of a command's operand makes every command well formed, so the hypothesis is not needed. -/
theorem encodedCommandDecodesToItself : Obligations.EncodedCommandDecodesToItself := fun i _ => decode_encode i

/-- Settles O2: the word of a command is determined by it, since encoding inverts decoding. -/
theorem legalWordIsTheWordOfItsCommand : Obligations.LegalWordIsTheWordOfItsCommand := fun _ _ hw =>
  ⟨encode_of_decode hw, fun _ hv => (encode_of_decode hv).symm.trans (encode_of_decode hw)⟩

theorem decodeTableWord_encode (i : Instr) : decodeTableWord 32 (encode i).toNat = some i := by
  have hword : BitVec.ofNat 32 ((encode i).toNat % 2 ^ 32) = encode i := by
    rw [Nat.mod_eq_of_lt (encode i).isLt, BitVec.ofNat_toNat, BitVec.setWidth_eq]
  rw [decodeTableWord, hword, decode_encode]

/-- Settles O5: nine of the words are those of their commands, and the tenth has a reserved bit set. -/
theorem sampleWordsDecodeAsTheOpcodeMapSays : Obligations.SampleWordsDecodeAsTheOpcodeMapSays :=
  ⟨decodeTableWord_encode .parseHeader, decodeTableWord_encode .makeRomReader, decodeTableWord_encode .ramRestore,
    decodeTableWord_encode (.selectRomBank 0xFFFF), decodeTableWord_encode (.setAddr 0xA010),
    decodeTableWord_encode (.writeByte 0xFF), decodeTableWord_encode (.romRead 0xFFFFFF),
    decodeTableWord_encode .ramDump, decodeTableWord_encode (.xlateRom 0x414243), by decide⟩

/-! ### Commands as written -/

/-- The checks on a written operand, where the format has one (30_encoding.md R108). -/
theorem check_some {m : Mnemonic} (hm : m.format ≠ .n) (k : Nat) :
    (SourceCommand.mk m (some k)).check =
      if k < 2 ^ m.format.operandBits then .ok () else .error .operandTooWide := by
  unfold SourceCommand.check
  cases hf : m.format with
  | n => exact absurd hf hm
  | b8 | h16 | w24 => rfl

/-- A command's own written form passes every check: every command is well formed (30_encoding.md R102). -/
theorem toSource_check (i : Instr) : i.toSource.check = .ok () := by
  have hfits := operand_lt i
  cases i with
  | writeByte | selectRomBank | selectRamBank | setAddr | romRead | xlateRom | xlateRam => exact if_pos hfits
  | parseHeader | makeRomReader | enableRam | disableRam | readByte | romSize | romStatus | ramDump | ramRestore => rfl

/-- The assembler takes a command's operand from the number written for it. -/
theorem toSource_toInstr (i : Instr) : i.toSource.toInstr = .ok i := by
  have harea : (imm24 (BitVec.ofNat 32 (i.operand?.getD 0))).toNat = i.operand?.getD 0 := by
    have hlt := i.operandArea.isLt
    rw [operandArea_toNat] at hlt
    rw [imm24_toNat, BitVec.toNat_ofNat]
    omega
  simp only [SourceCommand.toInstr, toSource_check]
  exact congrArg _ (withOperand_of_imm24 harea)

/-- Settles O6: a number is checked against its field before it is cut to it. -/
theorem writtenCommandIsNeverTruncated : Obligations.WrittenCommandIsNeverTruncated := by
  refine ⟨fun i => congrArg Except.toOption (toSource_toInstr i), fun m k hm hk => ?_⟩
  simp only [SourceCommand.toInstr, check_some hm, if_neg (Nat.not_lt.mpr hk)]

/-! ### The masks of the opcode table -/

/-- The reserved bits of a format, as a mask of the operand area (30_encoding.md R101). -/
def Format.reserved (f : Format) : BitVec 24 := BitVec.allOnes 24 <<< f.operandBits

theorem and_reserved_eq_zero (x : BitVec 24) (f : Format) : x &&& f.reserved = 0#24 ↔ x.toNat < 2 ^ f.operandBits := by
  have hshift : (x &&& f.reserved).toNat = x.toNat / 2 ^ f.operandBits * 2 ^ f.operandBits := by
    rw [Format.reserved, ← BitVec.shiftLeft_ushiftRight, BitVec.toNat_shiftLeft, BitVec.toNat_ushiftRight,
      Nat.shiftRight_eq_div_pow, Nat.shiftLeft_eq, Nat.mod_eq_of_lt]
    exact (Nat.div_mul_le_self _ _).trans_lt x.isLt
  rw [← BitVec.toNat_inj, hshift, BitVec.toNat_zero, mul_eq_zero, or_iff_left (Nat.two_pow_pos _).ne',
    Nat.div_eq_zero_iff_lt (Nat.two_pow_pos _)]

theorem reservedClear_iff_mask (f : Format) (w : Word) : reservedClear f w = true ↔ imm24 w &&& f.reserved = 0#24 :=
  (reservedClear_iff f w).trans (and_reserved_eq_zero _ f).symm

/-- A mask acts on the opcode field and on the operand area apart. -/
theorem and_append_eq_append {w : Word} {a op : Byte} {r x : BitVec 24} :
    w &&& (a ++ r) = op ++ x ↔ opcodeField w &&& a = op ∧ imm24 w &&& r = x := by
  have hw : w &&& (a ++ r) = (opcodeField w &&& a) ++ (imm24 w &&& r) := by
    rw [← BitVec.and_append, opcodeField_append_imm24]
  rw [hw, append_eq_iff, opcodeField_append, imm24_append]

/-- The match and the mask of a command's row: its opcode, and zeros in the reserved bits of its format. -/
def Mnemonic.row (m : Mnemonic) : Word × Word := (m.opcode ++ 0#24, 0xFF#8 ++ m.format.reserved)

/-- The commands in the order of the opcode table (30_encoding.md R103). -/
def mnemonics : List Mnemonic :=
  [.parseHeader, .makeRomReader, .enableRam, .disableRam, .selectRomBank, .selectRamBank, .setAddr, .readByte,
    .writeByte, .romSize, .romStatus, .romRead, .ramDump, .ramRestore, .xlateRom, .xlateRam]

theorem mem_mnemonics (m : Mnemonic) : m ∈ mnemonics := by cases m <;> decide

theorem nodup_mnemonics : mnemonics.Nodup := by decide

theorem opcodeRows_eq : opcodeRows = mnemonics.map Mnemonic.row := by decide

/-- A word matches the row of the command it decodes to, and no other. -/
theorem and_row_eq_iff (w : Word) (m : Mnemonic) : w &&& m.row.2 = m.row.1 ↔ decode w = .ok (m.withOperand w) := by
  have hop : opcodeField w &&& 0xFF#8 = opcodeField w := BitVec.and_allOnes
  rw [Mnemonic.row, and_append_eq_append, hop, ← reservedClear_iff_mask, decode_eq_ok, mnemonic_withOperand]
  simp only [and_true]

theorem rowsMatching_eq (w : Word) :
    rowsMatching w = (mnemonics.filter fun m => w &&& m.row.2 == m.row.1).map Mnemonic.row :=
  (congrArg (List.filter _) opcodeRows_eq).trans List.filter_map

/-- Settles O3: the rows a word matches are those of the commands it decodes to. -/
theorem legalWordMatchesExactlyOneTableRow : Obligations.LegalWordMatchesExactlyOneTableRow := by
  intro w
  rw [rowsMatching_eq, List.length_map]
  constructor
  · rintro ⟨i, hi⟩
    obtain ⟨-, -, hoperand⟩ := decode_eq_ok.mp hi
    have hown : ∀ m, (w &&& m.row.2 == m.row.1) = (m == i.mnemonic) := by
      intro m
      rw [Bool.eq_iff_iff, beq_iff_eq, beq_iff_eq, and_row_eq_iff, hi]
      constructor
      · intro h
        rw [Except.ok.inj h, mnemonic_withOperand]
      · rintro rfl
        rw [hoperand]
    simp only [hown]
    rw [← List.countP_eq_length_filter]
    exact List.count_eq_one_of_mem nodup_mnemonics (mem_mnemonics _)
  · rintro ⟨e, he⟩
    rw [List.length_eq_zero_iff, List.filter_eq_nil_iff]
    intro m _ hm
    rw [beq_iff_eq, and_row_eq_iff, he] at hm
    cases hm

/-! ### Illegal words -/

theorem reservedMask_opcode (m : Mnemonic) : reservedMask m.opcode.toNat = 0#8 ++ m.format.reserved := by
  cases m <;> rfl

theorem and_reservedMask_eq_zero (w : Word) (m : Mnemonic) :
    w &&& reservedMask m.opcode.toNat = 0 ↔ reservedClear m.format w = true := by
  have hzero : (0 : Word) = 0#8 ++ 0#24 := rfl
  rw [reservedMask_opcode, hzero, and_append_eq_append, reservedClear_iff_mask]
  simp

/-- The illegal words in masks are those the decoder refuses (30_encoding.md R106). -/
theorem illegalWord_iff (w : Word) : illegalWord w = true ↔ ∃ e, decode w = .error e := by
  have hcauses : illegalWord w = true ↔
      mnemonicOf (opcodeField w) = none ∨ w &&& reservedMask (opcodeField w).toNat ≠ 0 := by
    simp only [illegalWord, toNat_ushiftRight_24, Bool.or_eq_true, beq_iff_eq, decide_eq_true_eq, bne_iff_ne,
      mnemonicOf_eq_none, ne_eq]
  rw [hcauses, decode_eq_error]
  cases hm : mnemonicOf (opcodeField w) with
  | none => simp
  | some m => rw [mnemonicOf_eq_some.mp hm, Ne, and_reservedMask_eq_zero]; simp

theorem step_of_decode_error {s : State} {w : Word} {rest : List HostAction} {e : DecodeError}
    (hhost : s.host = .command w :: rest) (hdecode : decode w = .error e) :
    step s = .next (illegalCommand e { s with host := rest }) := by
  simp only [step, fetch_command hhost, hdecode]

/-- Settles O4: the decoder's error is taken before anything else is looked at, and IllegalCommand is no fatal error. -/
theorem illegalWordChangesNothing : Obligations.IllegalWordChangesNothing := by
  refine ⟨rfl, fun w => ⟨illegalWord_iff w, fun s rest hhost hillegal => ?_⟩⟩
  obtain ⟨e, hdecode⟩ := (illegalWord_iff w).mp hillegal
  exact step_of_decode_error hhost hdecode

end Sys2Proof
end

section
/-! The tables of the header codes (30_encoding.md R110 to R113). -/

namespace Sys2Proof.Machine

/-- A code of the table doubles 0x8000 without leaving the 32 bits of a size (30_encoding.md R112). -/
theorem romSizeOf_toNat (b : Byte) : (romSizeOf b).toNat = if b.toNat ≤ 8 then 0x8000 * 2 ^ b.toNat else 0 := by
  have hmax : b ≤ params.romCodeMax ↔ b.toNat ≤ 8 := Iff.rfl
  unfold romSizeOf
  simp only [hmax]
  split
  next hb =>
    have hpow : 2 ^ b.toNat ≤ 2 ^ 8 := Nat.pow_le_pow_right Nat.two_pos hb
    rw [BitVec.natCast_eq_ofNat, BitVec.toNat_ofNat, Nat.shiftLeft_eq]
    exact Nat.mod_eq_of_lt (by omega)
  · rfl

/-- Settles O15: the variants and the bytes of each table one by one. -/
theorem headerCodeTablesAreTheSpecs : Obligations.HeaderCodeTablesAreTheSpecs := by
  refine ⟨fun m => by cases m <;> rfl, fun b => ⟨?_, romSizeOf_toNat b, fun m => ?_⟩⟩
  · revert b; decide +kernel
  · unfold decodeRam
    split
    · rfl
    · revert b; decide +kernel

end Sys2Proof.Machine
end

section
/-! The header parser (40_header.md R140 to R148): the fields of a decoded header, the warning of its title, the read
pass as the reads of a sequence of addresses, and the two header commands, on any cartridge and on the reference
cartridge. -/

namespace Sys2Proof.Machine

/-! ### The fields of a decoded header -/

/-- The sixteen bytes picked one by one are those of the slice (40_header.md R142). -/
theorem toList_ofFn_getD {raw : List Byte} {start : Nat} (hlen : start + 16 ≤ raw.length) :
    (Vector.ofFn fun i : Fin 16 => raw.getD (start + i.val) 0).toList = (raw.drop start).take 16 := by
  have hslice : ((raw.drop start).take 16).length = 16 := by simp; omega
  refine List.ext_getElem (by simp [hslice]) fun i hi _ => ?_
  have hin : start + i < raw.length := by simp at hi; omega
  simp [hin]

/-- The title is the slice at its offset, verbatim (40_header.md R142, R143; 30_encoding.md R116). -/
theorem decodeHeader_title {raw : List Byte} (hlen : raw.length = 80) :
    (decodeHeader raw).title.toList = (raw.drop 0x34).take 16 :=
  toList_ofFn_getD (start := 0x34) (by omega)

/-- Settles O16: the title is the slice at its offset, and the other fields are the decoder's by its definition. -/
theorem headerFieldsComeFromTheirOffsets : Obligations.HeaderFieldsComeFromTheirOffsets := by
  intro raw hlen
  have htitle := decodeHeader_title hlen
  refine ⟨htitle, rfl, rfl, rfl, ?_, warnBits_type _ _⟩
  rw [← htitle]
  exact warnBits_title _ _

/-! ### The warning of a title -/

/-- Bytes below 0x80 are sequences of one byte each. -/
theorem wellFormedUtf8_of_ascii {bytes : List Byte} (hascii : ∀ b ∈ bytes, b.toNat < 0x80) :
    wellFormedUtf8 bytes = true := by
  induction bytes with
  | nil => rfl
  | cons b bytes ih =>
    obtain ⟨hb, hrest⟩ := List.forall_mem_cons.mp hascii
    unfold wellFormedUtf8
    rw [if_pos hb]
    exact ih hrest

/-- A byte that stands in no well-formed sequence: it would begin an overlong form or a value above U+10FFFF. -/
abbrev NeverInUtf8 (b : Byte) : Prop := b = 0xC0 ∨ b = 0xC1 ∨ 0xF5 ≤ b.toNat

theorem not_neverInUtf8_iff (b : Byte) :
    ¬ NeverInUtf8 b ↔ b.toNat < 0xC0 ∨ 0xC2 ≤ b.toNat ∧ b.toNat < 0xF5 := by
  have hlow : b = 0xC0 ↔ b.toNat = 0xC0 := BitVec.toNat_inj.symm
  have hnext : b = 0xC1 ↔ b.toNat = 0xC1 := BitVec.toNat_inj.symm
  rw [NeverInUtf8, hlow, hnext]
  omega

theorem inRange_iff (lo hi : Nat) (b : Byte) : inRange lo hi b = true ↔ lo ≤ b.toNat ∧ b.toNat ≤ hi := by
  simp [inRange]

/-- The table puts every byte of a sequence of one, two, three or four bytes in a range that leaves those bytes out. -/
theorem not_neverInUtf8_of_wellFormed {bytes : List Byte} (hwf : wellFormedUtf8 bytes = true) :
    ∀ b ∈ bytes, ¬ NeverInUtf8 b := by
  fun_induction wellFormedUtf8 bytes with
  | case1 => exact List.forall_mem_nil _
  | case2 b0 rest hone ih =>
    exact List.forall_mem_cons.mpr ⟨(not_neverInUtf8_iff b0).mpr (.inl (by omega)), ih hwf⟩
  | case3 | case5 | case7 => exact absurd hwf Bool.false_ne_true
  | case4 b0 _ b1 rest htwo ih =>
    simp only [isCont, Bool.and_eq_true, inRange_iff] at htwo
    simp only [List.forall_mem_cons, not_neverInUtf8_iff]
    simp only [not_neverInUtf8_iff] at ih
    exact ⟨by omega, by omega, ih hwf⟩
  | case6 b0 _ b1 _ b2 rest hthree ih =>
    simp only [isCont, Bool.and_eq_true, Bool.or_eq_true, inRange_iff] at hthree
    simp only [List.forall_mem_cons, not_neverInUtf8_iff]
    simp only [not_neverInUtf8_iff] at ih
    exact ⟨by omega, by omega, by omega, ih hwf⟩
  | case8 b0 _ b1 _ b2 _ b3 rest ih =>
    simp only [isCont, Bool.and_eq_true, Bool.or_eq_true, inRange_iff] at hwf
    obtain ⟨hfour, hrest⟩ := hwf
    simp only [List.forall_mem_cons, not_neverInUtf8_iff]
    simp only [not_neverInUtf8_iff] at ih
    exact ⟨by omega, by omega, by omega, by omega, ih hrest⟩

theorem titleNotText_eq_true {title : Vector Byte 16} :
    titleNotText title = true ↔ wellFormedUtf8 title.toList = false := by
  simp [titleNotText]

/-- Settles O17: a text of ASCII bytes is well formed, and a well-formed one holds none of the bytes named. -/
theorem asciiTitleRaisesNoWarning : Obligations.AsciiTitleRaisesNoWarning := by
  refine fun title => ⟨fun hascii => ?_, fun ⟨b, hb, hnever⟩ => ?_⟩
  · simp [titleNotText, wellFormedUtf8_of_ascii hascii]
  · rw [titleNotText_eq_true, ← Bool.not_eq_true]
    exact fun hwf => not_neverInUtf8_of_wellFormed hwf b hb hnever

/-! ### A read pass over a sequence of addresses -/

/-- What a pass issues that reads the first n of a sequence of addresses. -/
def passOps (addrAt : Nat → Addr) (n : Nat) : List BusOp := (List.range n).flatMap fun i => readOps (addrAt i)

/-- The events of such a pass that has read the bytes bs, oldest first. -/
def passEvents (addrAt : Nat → Addr) (bs : List Byte) (n : Nat) : List BusEvent :=
  (List.range n).flatMap fun i => [.setAddr (addrAt i), .read (addrAt i) (.ok (bs.getD i 0))]

/-- The addresses of the header region (40_header.md R142). -/
def headerAddr (i : Nat) : Addr := BitVec.ofNat 16 (0x0100 + i)

theorem headerOps_eq_passOps : headerOps = passOps headerAddr 80 := rfl

theorem passOps_succ (addrAt : Nat → Addr) (n : Nat) :
    passOps addrAt (n + 1) = passOps addrAt n ++ readOps (addrAt n) := by
  simp [passOps, List.range_succ]

/-- Of a longer list of bytes the events of the first n reads show the first n. -/
theorem passEvents_append (addrAt : Nat → Addr) (bs more : List Byte) :
    passEvents addrAt (bs ++ more) bs.length = passEvents addrAt bs bs.length :=
  List.flatMap_congr fun i hi => by rw [List.getD_append _ _ _ _ (List.mem_range.mp hi)]

theorem passEvents_succ (addrAt : Nat → Addr) (bs : List Byte) (v : Byte) :
    passEvents addrAt (bs ++ [v]) (bs.length + 1) =
      passEvents addrAt bs bs.length ++ [.setAddr (addrAt bs.length), .read (addrAt bs.length) (.ok v)] := by
  rw [← passEvents_append addrAt bs [v]]
  simp [passEvents, List.range_succ]

/-- What MemRead leaves when it returns (20_memory.md R69). -/
theorem memRead_ok {a : Addr} {s t : State} {v : Byte} (hread : memRead a s = .ok v t) :
    t.addr = some a ∧ t.revTrace = .read a (.ok v) :: .setAddr a :: s.revTrace := by
  rcases memRead_cases a s with ⟨_, _, _, hm⟩ | ⟨_, _, hm⟩ <;> cases hread.symm.trans hm
  exact ⟨rfl, rfl⟩

/-- A pass that returns has read one byte per address and recorded its events in order. -/
theorem play_passOps_ok {addrAt : Nat → Addr} {n : Nat} {s t : State} {bs : List Byte}
    (hplay : play (passOps addrAt n) s = .ok bs t) :
    bs.length = n ∧ t.revTrace = (passEvents addrAt bs n).reverse ++ s.revTrace := by
  induction n generalizing bs t with
  | zero => cases hplay; exact ⟨rfl, rfl⟩
  | succ n ih =>
    rw [passOps_succ] at hplay
    obtain ⟨first, u, last, hfirst, hlast, rfl⟩ := play_append_ok.mp hplay
    obtain ⟨v, hread, rfl⟩ := play_readOps.mp hlast
    obtain ⟨rfl, htrace⟩ := ih hfirst
    refine ⟨List.length_append, ?_⟩
    rw [(memRead_ok hread).2, htrace, passEvents_succ]
    simp

/-- A pass that returns leaves S.addr at its last address. -/
theorem play_passOps_addr {addrAt : Nat → Addr} {n : Nat} {s t : State} {bs : List Byte}
    (hplay : play (passOps addrAt (n + 1)) s = .ok bs t) : t.addr = some (addrAt n) := by
  rw [passOps_succ] at hplay
  obtain ⟨_, u, _, _, hlast, _⟩ := play_append_ok.mp hplay
  obtain ⟨v, hread, _⟩ := play_readOps.mp hlast
  exact (memRead_ok hread).1

/-- The header pass leaves S.addr at the last address of the region. -/
theorem play_headerOps_addr {s t : State} {bs : List Byte} (hplay : play headerOps s = .ok bs t) :
    t.addr = some 0x014F :=
  play_passOps_addr (headerOps_eq_passOps ▸ hplay)

/-- Settles O18: the header pass is a pass over the region, and a bus sequence changes the bus part of S alone. -/
theorem headerPassReadsTheRegionInOrder : Obligations.HeaderPassReadsTheRegionInOrder := by
  intro s t bs hplay
  obtain ⟨hlen, htrace⟩ := play_passOps_ok (headerOps_eq_passOps ▸ hplay)
  have hframe : t = withBus s t := (busOnly_play _).ok_frame hplay
  rw [withBus, play_headerOps_addr hplay, htrace] at hframe
  exact ⟨hlen, hframe⟩

/-! ### The header commands -/

/-- The result record of a header command that has read the header h (30_encoding.md R105). -/
def headerResult (h : Header) : Result := ⟨.ok, h.romSize, h.ramSize, decide (h.warn ≠ 0), some h⟩

theorem okResult_headerReply (h : Header) : okResult (headerReply h) = headerResult h := by
  have hflag : warnFlag h = decide (h.warn ≠ 0) := by simp [warnFlag, bne, decide_not, beq_eq_decide]
  simp only [okResult, headerReply, headerResult, hflag]

/-- The header pass fails by a BusError alone (40_header.md R148). -/
theorem play_headerOps_error {s t : State} {e : Raised} (hplay : play headerOps s = .error e t) :
    e = ⟨.busError, 0⟩ :=
  readRange_raises_busError _ ((readRange_error _).mp (headerOps_eq ▸ hplay))

/-- Taking a BusError: phase Faulted, S.fault and the result record (60_exceptions.md R272). -/
theorem takeError_busError (t : State) :
    takeError ⟨.busError, 0⟩ t = (faultedWith .busError t).respond (resultOf .busError 0) := rfl

section
variable {s t : State} (hphase : s.phase ≠ .faulted)
include hphase

/-- PARSE_HEADER when its pass is read (40_header.md R140). -/
theorem exec_parseHeader_of_ok {bs : List Byte} (hplay : play headerOps s = .ok bs t) :
    exec .parseHeader s = .next (t.respond (headerResult (decodeHeader bs))) := by
  rw [exec_eq_runCommand, ← okResult_headerReply]
  exact runCommand_of_ok <|
    (bind_of_ok (requireNotFaulted_ok hphase)).trans (bind_of_ok (readHeader_ok hplay))

/-- MAKE_ROM_READER when its pass is read (40_header.md R141). -/
theorem exec_makeRomReader_of_ok {bs : List Byte} (hplay : play headerOps s = .ok bs t) :
    exec .makeRomReader s = .next ((openSession (decodeHeader bs) t).respond (headerResult (decodeHeader bs))) := by
  rw [exec_eq_runCommand, ← okResult_headerReply]
  exact runCommand_of_ok <|
    (bind_of_ok (requireNotFaulted_ok hphase)).trans (bind_of_ok (readHeader_ok hplay))

/-- Both header commands take the error of a pass that fails (40_header.md R148). -/
theorem exec_header_of_error {i : Instr} (hi : i = .parseHeader ∨ i = .makeRomReader) {e : Raised}
    (hplay : play headerOps s = .error e t) :
    exec i s = .next ((faultedWith .busError t).respond (resultOf .busError 0)) := by
  have herror := readHeader_error hplay
  rw [play_headerOps_error hplay] at herror
  rw [exec_eq_runCommand, ← takeError_busError]
  refine runCommand_of_error ?_
  rcases hi with rfl | rfl <;>
    exact (bind_of_ok (requireNotFaulted_ok hphase)).trans (bind_of_error herror)

end

/-- Settles O19: the two outcomes of the pass are the two ends of the command. -/
theorem parseHeaderReturnsTheDecodedHeader : Obligations.ParseHeaderReturnsTheDecodedHeader :=
  ⟨rfl, fun _ hphase =>
    ⟨fun _ _ => exec_parseHeader_of_ok hphase, fun _ _ => exec_header_of_error hphase (.inl rfl)⟩⟩

/-- Settles O20: as O19, and the session opened is `openSession` on the state the pass leaves. -/
theorem makeRomReaderOpensASession : Obligations.MakeRomReaderOpensASession :=
  ⟨rfl, fun _ hphase =>
    ⟨fun _ _ => exec_makeRomReader_of_ok hphase, fun _ _ => exec_header_of_error hphase (.inr rfl)⟩⟩

/-! ### The reference cartridge -/

/-- A cartridge without failures answers a read with its byte and counts the request. -/
theorem memRead_reference {s : State} {c : RefCart} (hbus : s.bus = .reference c) (hfail : c.failures = [])
    (a : Addr) : ∃ t, memRead a s = .ok (c.load a) t ∧ t.bus = .reference c.count := by
  have hanswer (past : List BusEvent) :
      BusSide.read past a (.reference c) = (.ok (c.load a), .reference c.count) := by
    simp [BusSide.read, RefCart.failing, hfail]
  have hside : (afterSetAddr s a).bus = .reference c := hbus
  rcases memRead_cases a s with ⟨v, side, hb, hm⟩ | ⟨side, hb, _⟩ <;> rw [hside, hanswer] at hb <;> cases hb
  exact ⟨_, hm, rfl⟩

/-- The cartridge after n more requests. -/
def RefCart.countBy (c : RefCart) (n : Nat) : RefCart := { c with requests := c.requests + n }

/-- The count of requests is no part of what a read shows. -/
theorem RefCart.load_countBy (c : RefCart) (n : Nat) (a : Addr) : (c.countBy n).load a = c.load a := rfl

/-- On a cartridge without failures a pass returns the bytes the cartridge shows at its addresses. -/
theorem play_passOps_reference {s : State} {c : RefCart} (hbus : s.bus = .reference c) (hfail : c.failures = [])
    (addrAt : Nat → Addr) (n : Nat) :
    ∃ t, play (passOps addrAt n) s = .ok ((List.range n).map fun i => c.load (addrAt i)) t ∧
      t.bus = .reference (c.countBy n) := by
  induction n with
  | zero => exact ⟨s, rfl, hbus⟩
  | succ n ih =>
    obtain ⟨u, hfirst, hu⟩ := ih
    obtain ⟨t, hread, ht⟩ := memRead_reference hu hfail (addrAt n)
    refine ⟨t, ?_, ht⟩
    rw [passOps_succ, List.range_succ, List.map_append]
    exact play_append_ok.mpr ⟨_, u, _, hfirst, play_readOps.mpr ⟨_, hread, rfl⟩, rfl⟩

/-- The fixed ROM window shows the image from its start (95_test_vectors.md section 2). -/
theorem RefCart.load_of_fixedWindow (c : RefCart) {a : Addr} (ha : a.toNat ≤ 0x3FFF) :
    c.load a = c.romByte (a.toNat % c.romSize) := if_pos ha

/-- The header region lies in the fixed window, whatever the bank registers hold. -/
theorem RefCart.headerBytes_eq (c : RefCart) :
    ((List.range 80).map fun i => c.load (headerAddr i)) = c.headerBytes := by
  refine List.map_congr_left fun i hi => ?_
  have hi : i < 80 := List.mem_range.mp hi
  have haddr : (headerAddr i).toNat = 0x0100 + i := by
    rw [headerAddr, BitVec.toNat_ofNat]
    exact Nat.mod_eq_of_lt (by omega)
  rw [c.load_of_fixedWindow (by omega), haddr]

/-- On a cartridge without failures the header pass returns the header region of its ROM. -/
theorem play_headerOps_reference {s : State} {c : RefCart} (hbus : s.bus = .reference c) (hfail : c.failures = []) :
    ∃ t, play headerOps s = .ok c.headerBytes t := by
  obtain ⟨t, hplay, _⟩ := play_passOps_reference hbus hfail headerAddr 80
  rw [c.headerBytes_eq] at hplay
  exact ⟨t, hplay⟩

/-- Settles O58: the pass returns the header region, both commands reply with its header, and the pass leaves the
session as it was. -/
theorem headerCommandsReadTheCartridgeHeader : Obligations.HeaderCommandsReadTheCartridgeHeader := by
  intro s c hphase hbus hfail
  obtain ⟨t, hplay⟩ := play_headerOps_reference hbus hfail
  have hframe : t = withBus s t := (busOnly_play _).ok_frame hplay
  have hkept : t.phase = s.phase := by rw [hframe, withBus_phase]
  have hhdr : t.hdr = s.hdr := by rw [hframe, withBus_hdr]
  have haddr : t.addr = some 0x014F := play_headerOps_addr hplay
  exact ⟨_, _, headerResult (decodeHeader c.headerBytes), exec_parseHeader_of_ok hphase hplay,
    exec_makeRomReader_of_ok hphase hplay, rfl, rfl, rfl, rfl, hkept, hhdr, rfl, rfl, haddr, haddr⟩

end Sys2Proof.Machine
end

section
/-! The frame of a command from both of its ends: its word, the checks that refuse it outside a session, and the state
each of its outcomes leaves (30_encoding.md R100 to R104, 60_exceptions.md R271, R272, R283). -/

namespace Sys2Proof.Machine

/-! ### Words -/

/-- The word of a command in arithmetic: its opcode above its operand (30_encoding.md R100, R101). -/
theorem encode_eq_wordOf (i : Instr) : encode i = wordOf i.mnemonic.opcode.toNat (i.operand?.getD 0) := by
  have hop : i.mnemonic.opcode.toNat < 2 ^ 8 := i.mnemonic.opcode.isLt
  have harea : i.operandArea.toNat < 2 ^ 24 := i.operandArea.isLt
  apply BitVec.eq_of_toNat_eq
  rw [encode, BitVec.toNat_append, ← Nat.shiftLeft_add_eq_or_of_lt harea, Nat.shiftLeft_eq, wordOf, BitVec.toNat_ofNat,
    ← operandArea_toNat]
  omega

/-! ### How a command ends -/

section
variable {i : Instr} {s t : State}

theorem exec_of_ok {r : Reply} (hrun : commandProc i s = .ok r t) : exec i s = .next (t.respond (okResult r)) :=
  (exec_eq_runCommand i s).trans (runCommand_of_ok hrun)

theorem exec_of_error {e : Raised} (hrun : commandProc i s = .error e t) : exec i s = .next (takeError e t) :=
  (exec_eq_runCommand i s).trans (runCommand_of_error hrun)

/-- A command that raises an error that is not fatal, before it has done anything, leaves its result record alone
(60_exceptions.md R274). -/
theorem exec_of_refused {e : Status} (hfatal : fatalOf e = none) (hrun : commandProc i s = .error ⟨e, 0⟩ s) :
    exec i s = .next (s.respond (resultOf e 0)) := by
  rw [exec_of_error hrun, takeError, enterFaulted_of_not_fatal hfatal]
  rfl

theorem exec_of_busError (hrun : commandProc i s = .error ⟨.busError, 0⟩ t) :
    exec i s = .next ((faultedWith .busError t).respond (resultOf .busError 0)) := by
  rw [exec_of_error hrun, takeError_busError]

/-- The events of a command are those of its procedure: its end adds none. -/
theorem exec_revTrace (hexec : exec i s = .next t) : t.revTrace = (stateAfter (commandProc i) s).revTrace := by
  rw [exec_eq_runCommand] at hexec
  rcases runCommand_cases (commandProc i) s with ⟨r, u, hp, hrun⟩ | ⟨e, u, hp, hrun⟩ <;>
    cases hexec.symm.trans hrun
  · rw [stateAfter_of_ok hp, respond_revTrace]
  · rw [stateAfter_of_error hp, takeError_revTrace]

end

/-! ### The session checks -/

/-- A command that is one operation in a session, with nothing to reply (41_driver.md). -/
def sessionOp (op : Header → Proc Unit) : Proc Reply := inSession fun h => do
  op h
  pure Reply.nothing

/-- Every command but the two header commands begins with RequireSession (60_exceptions.md R271). -/
theorem commandProc_requires_session {i : Instr} (hparse : i ≠ .parseHeader) (hmake : i ≠ .makeRomReader) (s : State) :
    ∃ f : Unit → Proc Reply, commandProc i s = (requireSession >>= f) s := by
  cases i with
  | parseHeader => exact absurd rfl hparse
  | makeRomReader => exact absurd rfl hmake
  | _ => exact ⟨_, rfl⟩

/-- So each of them is refused outside a session (60_exceptions.md R276, R277). -/
theorem refusedOutOfSession {i : Instr} (hparse : i ≠ .parseHeader) (hmake : i ≠ .makeRomReader) (s : State) :
    RefusedOutOfSession i s := by
  obtain ⟨f, hf⟩ := commandProc_requires_session hparse hmake s
  exact ⟨fun hp => exec_of_refused rfl (hf.trans (bind_of_error (requireSession_noSession hp))),
    fun hp => exec_of_refused rfl (hf.trans (bind_of_error (requireSession_faulted hp)))⟩

section
variable {i : Instr} {s t : State} {h : Header} (hphase : s.phase = .ready) (hhdr : s.hdr = some h)
include hphase hhdr

/-- In a session a command runs its body on the session header. -/
theorem inSession_ready (body : Header → Proc Reply) : inSession body s = body h s :=
  (bind_of_ok (requireSession_ready hphase)).trans (bind_of_ok (sessionHeader_some hhdr))

/-! A command that is one operation in a session ends as the operation does. -/

variable {op : Header → Proc Unit} (hi : commandProc i = sessionOp op)
include hi

theorem exec_op_of_ok (hop : op h s = .ok () t) : exec i s = .next (t.respond (resultOf .ok 0)) :=
  exec_of_ok (r := Reply.nothing) (by rw [hi, sessionOp, inSession_ready hphase hhdr, bind_of_ok hop, pure_apply])

theorem exec_op_of_busError (hop : op h s = .error ⟨.busError, 0⟩ t) :
    exec i s = .next ((faultedWith .busError t).respond (resultOf .busError 0)) :=
  exec_of_busError (by rw [hi, sessionOp, inSession_ready hphase hhdr, bind_of_error hop])

theorem exec_op_of_unsupported (hop : op h = raise .unsupportedOperation) :
    exec i s = .next (s.respond (resultOf .unsupportedOperation 0)) :=
  exec_of_refused rfl (by rw [hi, sessionOp, inSession_ready hphase hhdr, hop, bind_of_error (raise_apply _ s)])

end

end Sys2Proof.Machine
end

section
/-! The driver (41_driver.md): RunSeq, the BankSwitchRule table and the limits, the exact outcomes of the driver's
commands and of the host's pass-through, and the single writer of the control registers. -/

namespace Sys2Proof.Machine

/-! ### Bus accesses whose answer is known -/

/-- MemWrite where the answer of the bus is known (20_memory.md R69). -/
theorem memWrite_of_ok {a : Addr} {v : Byte} {s : State} {side : BusSide}
    (hbus : s.bus.write (.setAddr a :: s.history) a v = (.ok, side)) :
    memWrite a v s = .ok () (afterRequest (afterSetAddr s a) (.write a v .ok) side) := by
  rcases memWrite_cases a v s with ⟨_, hb, hm⟩ | ⟨_, hb, hm⟩ <;> cases hbus.symm.trans hb
  exact hm

theorem memWrite_of_err {a : Addr} {v : Byte} {s : State} {side : BusSide}
    (hbus : s.bus.write (.setAddr a :: s.history) a v = (.err, side)) :
    memWrite a v s = .error ⟨.busError, 0⟩ (afterRequest (afterSetAddr s a) (.write a v .err) side) := by
  rcases memWrite_cases a v s with ⟨_, hb, hm⟩ | ⟨_, hb, hm⟩ <;> cases hbus.symm.trans hb
  exact hm

section
variable {s : State} {a : Addr} (haddr : s.addr = some a) {side : BusSide}
include haddr

theorem busRead_of_ok {v : Byte} (hbus : s.bus.read s.history a = (.ok v, side)) :
    busRead s = .ok v { s with bus := side, revTrace := .read a (.ok v) :: s.revTrace } := by
  rw [busRead_at haddr, hbus]
  rfl

theorem busRead_of_err (hbus : s.bus.read s.history a = (.err, side)) :
    busRead s = .error ⟨.busError, 0⟩ { s with bus := side, revTrace := .read a .err :: s.revTrace } := by
  rw [busRead_at haddr, hbus]
  rfl

theorem busWrite_of_ok {v : Byte} (hbus : s.bus.write s.history a v = (.ok, side)) :
    busWrite v s = .ok () { s with bus := side, revTrace := .write a v .ok :: s.revTrace } := by
  rw [busWrite_at haddr, hbus]
  rfl

theorem busWrite_of_err {v : Byte} (hbus : s.bus.write s.history a v = (.err, side)) :
    busWrite v s = .error ⟨.busError, 0⟩ { s with bus := side, revTrace := .write a v .err :: s.revTrace } := by
  rw [busWrite_at haddr, hbus]
  rfl

theorem settledWrite_of_ok {v : Byte} (hbus : s.bus.write (.wait :: s.history) a v = (.ok, side)) :
    settledWrite v s =
      .ok () { s with bus := side, revTrace := .wait :: .write a v .ok :: .wait :: s.revTrace } := by
  rcases settledWrite_cases haddr v with ⟨_, hb, hrun⟩ | ⟨_, hb, hrun⟩ <;> cases hbus.symm.trans hb
  exact hrun

theorem settledWrite_of_err {v : Byte} (hbus : s.bus.write (.wait :: s.history) a v = (.err, side)) :
    settledWrite v s =
      .error ⟨.busError, 0⟩ { s with bus := side, revTrace := .write a v .err :: .wait :: s.revTrace } := by
  rcases settledWrite_cases haddr v with ⟨_, hb, hrun⟩ | ⟨_, hb, hrun⟩ <;> cases hbus.symm.trans hb
  exact hrun

end

/-! ### RunSeq -/

/-- The events of register writes that succeed, oldest first (20_memory.md R66, R68). -/
def writeEvents (seq : List (Addr × Byte)) : List BusEvent :=
  seq.flatMap fun p => [.setAddr p.1, .write p.1 p.2 .ok]

theorem memWrite_ok_revTrace {a : Addr} {v : Byte} {s t : State} (hrun : memWrite a v s = .ok () t) :
    t.revTrace = .write a v .ok :: .setAddr a :: s.revTrace := by
  rcases memWrite_cases a v s with ⟨_, _, hm⟩ | ⟨_, _, hm⟩ <;> cases hrun.symm.trans hm
  rfl

theorem memWrite_error_revTrace {a : Addr} {v : Byte} {s t : State} {e : Raised} (hrun : memWrite a v s = .error e t) :
    t.revTrace = .write a v .err :: .setAddr a :: s.revTrace := by
  rcases memWrite_cases a v s with ⟨_, _, hm⟩ | ⟨_, _, hm⟩ <;> cases hrun.symm.trans hm
  rfl

/-- RunSeq leaves S.drv to the operation that calls it. -/
theorem runSeq_drv (seq : List (Addr × Byte)) : Keeps (fun s t => t.drv = s.drv) (runSeq seq) :=
  keeps_runSeq
    { steady_same State.drv with
      setAddr := fun _ _ => rfl
      request := fun _ _ _ => rfl
      wait := fun _ => rfl } seq

theorem runSeq_ok_revTrace {seq : List (Addr × Byte)} {s t : State} (hrun : runSeq seq s = .ok () t) :
    t.revTrace = (writeEvents seq).reverse ++ s.revTrace := by
  induction seq generalizing s with
  | nil => cases hrun; rfl
  | cons p seq ih =>
    obtain ⟨_, u, hwrite, hrest⟩ := bind_eq_ok.mp hrun
    rw [ih hrest, memWrite_ok_revTrace hwrite]
    simp [writeEvents]

/-- Where RunSeq fails, the pairs before the failing one are written and none after it is issued (41_driver.md
R180). -/
theorem runSeq_error_revTrace {seq : List (Addr × Byte)} {s t : State} {e : Raised} (hrun : runSeq seq s = .error e t) :
    ∃ done a v rest, seq = done ++ (a, v) :: rest ∧
      t.revTrace = .write a v .err :: .setAddr a :: ((writeEvents done).reverse ++ s.revTrace) := by
  induction seq generalizing s with
  | nil => cases hrun
  | cons p seq ih =>
    rcases bind_eq_error.mp hrun with hwrite | ⟨_, u, hwrite, hrest⟩
    · exact ⟨[], p.1, p.2, seq, rfl, memWrite_error_revTrace hwrite⟩
    · obtain ⟨done, a, v, rest, hseq, htrace⟩ := ih hrest
      refine ⟨p :: done, a, v, rest, congrArg (p :: ·) hseq, ?_⟩
      rw [htrace, memWrite_ok_revTrace hwrite]
      simp [writeEvents]

/-- Settles O12, by induction on the list of writes: each is one SetAddr and one Write event. -/
theorem runSeqStopsAtTheFirstBusError : Obligations.RunSeqStopsAtTheFirstBusError := fun seq _ _ =>
  ⟨fun hrun => ⟨(runSeq_drv seq).of_ok hrun, runSeq_ok_revTrace hrun⟩,
    fun _ hrun => ⟨runSeq_error hrun, (runSeq_drv seq).of_error hrun, runSeq_error_revTrace hrun⟩⟩

/-! ### The tables and the limits -/

/-- Settles O13, by the table in arithmetic; the family's maximum alone keeps a bank number within its fields. -/
theorem bankSwitchTableIsTheSpecs : Obligations.BankSwitchTableIsTheSpecs := fun f _ _ =>
  ⟨⟨enableSeq_eq f, disableSeq_eq f⟩, fun hfam _ => romBankSeq_eq hfam, ramBankSeq_eq⟩

theorem limRom_eq (h : Header) : limRom h = min (match family h with
    | .romOnly => 2 | .mbc1 => 128 | .mbc2 => 16 | .mbc3 => 128 | .mbc5 => 512) (h.romSize.toNat / 0x4000) := by
  unfold limRom
  cases family h <;> rfl

theorem limRam_eq (h : Header) : limRam h = min (match family h with
    | .romOnly => 0 | .mbc1 => 4 | .mbc2 => 0 | .mbc3 => 4 | .mbc5 => 16) (h.ramSize.toNat / 0x2000) := by
  unfold limRam
  cases family h <;> rfl

/-! ### SELECT_ROM_BANK and SELECT_RAM_BANK -/

/-- Running register writes in a driver operation fails by a BusError alone, and leaves S.drv as it was. -/
theorem runSeq_then_busError {seq : List (Addr × Byte)} {f : Driver → Driver} {s t : State} {e : Raised}
    (hplay : play (seqOps seq) s = .error e t) :
    (do runSeq seq; modifyDriver f : Proc Unit) s = .error ⟨.busError, 0⟩ { t with drv := s.drv } := by
  have hdrv : t.drv = s.drv := (runSeq_drv seq).of_error (play_seqOps_error hplay)
  rw [runSeq_then_error hplay, runSeq_error (play_seqOps_error hplay), ← hdrv]

section
variable {s t : State} {h : Header} {n : BitVec 16} (hphase : s.phase = .ready) (hhdr : s.hdr = some h)
include hphase hhdr

theorem exec_selectRomBank_refused (hlim : limRom h ≤ substituteBank n.toNat) :
    exec (.selectRomBank n) s = .next (s.respond (resultOf .unsupportedOperation 0)) :=
  exec_op_of_unsupported hphase hhdr (op := fun h => selectRomOp h n.toNat) rfl (selectRomOp_refused hlim)

theorem exec_selectRamBank_refused (hlim : hasRamBanking (family h) = false ∨ limRam h ≤ n.toNat) :
    exec (.selectRamBank n) s = .next (s.respond (resultOf .unsupportedOperation 0)) :=
  exec_op_of_unsupported hphase hhdr (op := fun h => selectRamOp h n.toNat) rfl (selectRamOp_refused hlim)

theorem exec_selectRomBank_of_ok {bs : List Byte} (hlim : substituteBank n.toNat < limRom h)
    (hplay : play (seqOps (romSelectWrites (family h) (substituteBank n.toNat) (romBanks h))) s = .ok bs t) :
    exec (.selectRomBank n) s = .next (State.respond (resultOf .ok 0)
      { t with drv := { s.drv with romBank := BitVec.ofNat 16 (substituteBank n.toNat) } }) :=
  exec_op_of_ok hphase hhdr (op := fun h => selectRomOp h n.toNat) rfl
    (by rw [selectRomOp_allowed hlim, runSeq_then_ok hplay])

theorem exec_selectRomBank_of_error {e : Raised} (hlim : substituteBank n.toNat < limRom h)
    (hplay : play (seqOps (romSelectWrites (family h) (substituteBank n.toNat) (romBanks h))) s = .error e t) :
    exec (.selectRomBank n) s = .next (State.respond (resultOf .busError 0)
      (faultedWith .busError { t with drv := s.drv })) :=
  exec_op_of_busError hphase hhdr (op := fun h => selectRomOp h n.toNat) rfl
    (by rw [selectRomOp_allowed hlim, runSeq_then_busError hplay])

theorem exec_selectRamBank_of_ok {bs : List Byte} (hbanking : hasRamBanking (family h) = true)
    (hlim : n.toNat < limRam h) (hplay : play (seqOps (ramSelectWrites (family h) n.toNat)) s = .ok bs t) :
    exec (.selectRamBank n) s = .next (State.respond (resultOf .ok 0)
      { t with drv := { s.drv with ramBank := n } }) :=
  exec_op_of_ok hphase hhdr (op := fun h => selectRamOp h n.toNat) rfl
    (by rw [selectRamOp_allowed hbanking hlim, runSeq_then_ok hplay, BitVec.ofNat_toNat, BitVec.setWidth_eq])

theorem exec_selectRamBank_of_error {e : Raised} (hbanking : hasRamBanking (family h) = true)
    (hlim : n.toNat < limRam h) (hplay : play (seqOps (ramSelectWrites (family h) n.toNat)) s = .error e t) :
    exec (.selectRamBank n) s = .next (State.respond (resultOf .busError 0)
      (faultedWith .busError { t with drv := s.drv })) :=
  exec_op_of_busError hphase hhdr (op := fun h => selectRamOp h n.toNat) rfl
    (by rw [selectRamOp_allowed hbanking hlim, runSeq_then_busError hplay])

end

theorem hasRamBanking_eq_false_iff {f : Family} : hasRamBanking f = false ↔ f = .romOnly ∨ f = .mbc2 := by
  cases f <;> decide

/-- Settles O14: the limits are computed, and the operations check them before their first write. -/
theorem bankLimitsAreFamilyAndHeaderMinimum : Obligations.BankLimitsAreFamilyAndHeaderMinimum := fun h =>
  ⟨limRom_eq h, limRam_eq h, fun _ _ hphase hhdr =>
    ⟨exec_selectRomBank_refused hphase hhdr, fun hlim => exec_selectRamBank_refused hphase hhdr (.inr hlim)⟩⟩

/-- Settles O23: below the limit the command is its writes played, and then the mirror. -/
theorem selectRomBankWritesTheBankRegisters : Obligations.SelectRomBankWritesTheBankRegisters := by
  refine fun s n => ⟨encode_eq_wordOf _, refusedOutOfSession (by simp) (by simp) s, ?_⟩
  rintro h b hphase hhdr rfl
  exact ⟨exec_selectRomBank_refused hphase hhdr, fun hlim =>
    ⟨fun _ _ => exec_selectRomBank_of_ok hphase hhdr hlim, fun _ _ => exec_selectRomBank_of_error hphase hhdr hlim⟩⟩

/-- Settles O24: as O23, with the family checked before the limit. -/
theorem selectRamBankWritesTheBankRegisters : Obligations.SelectRamBankWritesTheBankRegisters := by
  refine fun s n => ⟨encode_eq_wordOf _, refusedOutOfSession (by simp) (by simp) s, fun h hphase hhdr => ⟨?_, ?_⟩⟩
  · intro hrefused
    rw [← or_assoc, ← hasRamBanking_eq_false_iff] at hrefused
    exact exec_selectRamBank_refused hphase hhdr hrefused
  · intro hrom hmbc2 hlim
    have hbanking : hasRamBanking (family h) = true := by
      rw [← Bool.not_eq_false, hasRamBanking_eq_false_iff]
      exact not_or.mpr ⟨hrom, hmbc2⟩
    exact ⟨fun _ _ => exec_selectRamBank_of_ok hphase hhdr hbanking hlim,
      fun _ _ => exec_selectRamBank_of_error hphase hhdr hbanking hlim⟩

/-! ### ENABLE_RAM and DISABLE_RAM -/

theorem ramEnableWrites_of_ne {f : Family} (hf : f ≠ .romOnly) (v : Byte) : ramEnableWrites f v = [(0x0000, v)] := by
  cases f with
  | romOnly => exact absurd rfl hf
  | mbc1 | mbc2 | mbc3 | mbc5 => rfl

/-- Both commands are the write of v to the RAM enable register, and then a write b of the flag (41_driver.md R170,
R171, R181). -/
def setRamEnabledOp (v : Byte) (b : Bool) (h : Header) : Proc Unit := do
  runSeq (ramEnableWrites (family h) v)
  modifyDriver fun d => { d with ramEnabled := b }

theorem commandProc_enableRam : commandProc .enableRam = sessionOp (setRamEnabledOp 0x0A true) := by
  simp only [commandProc, enableRamOp, enableSeq_eq, sessionOp, setRamEnabledOp]

theorem commandProc_disableRam : commandProc .disableRam = sessionOp (setRamEnabledOp 0x00 false) := by
  simp only [commandProc, disableRamOp, disableSeq_eq, sessionOp, setRamEnabledOp]

section
variable {i : Instr} {v : Byte} {b : Bool} (hi : commandProc i = sessionOp (setRamEnabledOp v b))
  {s : State} {h : Header} (hphase : s.phase = .ready) (hhdr : s.hdr = some h)
include hi hphase hhdr

theorem exec_setRamEnabled_romOnly (hfam : family h = .romOnly) :
    exec i s = .next (State.respond (resultOf .ok 0) { s with drv := { s.drv with ramEnabled := b } }) :=
  exec_op_of_ok hphase hhdr hi (by rw [setRamEnabledOp, hfam]; rfl)

variable (hfam : family h ≠ .romOnly) {side : BusSide}
include hfam

theorem exec_setRamEnabled_of_ok (hbus : s.bus.write (.setAddr 0 :: s.history) 0 v = (.ok, side)) :
    exec i s = .next (State.respond (resultOf .ok 0)
      { s with
        addr := some 0, bus := side, revTrace := .write 0 v .ok :: .setAddr 0 :: s.revTrace
        drv := { s.drv with ramEnabled := b } }) := by
  refine exec_op_of_ok hphase hhdr hi ?_
  rw [setRamEnabledOp, ramEnableWrites_of_ne hfam]
  exact bind_of_ok (bind_of_ok (memWrite_of_ok hbus))

theorem exec_setRamEnabled_of_err (hbus : s.bus.write (.setAddr 0 :: s.history) 0 v = (.err, side)) :
    exec i s = .next (State.respond (resultOf .busError 0) (faultedWith .busError
      { s with addr := some 0, bus := side, revTrace := .write 0 v .err :: .setAddr 0 :: s.revTrace })) := by
  refine exec_op_of_busError hphase hhdr hi ?_
  rw [setRamEnabledOp, ramEnableWrites_of_ne hfam]
  exact bind_of_error (bind_of_error (memWrite_of_err hbus))

end

/-- Settles O21: on RomOnly there is nothing to write, and elsewhere the flag follows the one write. -/
theorem enableRamWritesTheEnableRegister : Obligations.EnableRamWritesTheEnableRegister := fun s =>
  ⟨encode_eq_wordOf _, refusedOutOfSession (by simp) (by simp) s, fun _ hphase hhdr =>
    ⟨exec_setRamEnabled_romOnly commandProc_enableRam hphase hhdr, fun hfam _ =>
      ⟨exec_setRamEnabled_of_ok commandProc_enableRam hphase hhdr hfam,
        exec_setRamEnabled_of_err commandProc_enableRam hphase hhdr hfam⟩⟩⟩

/-- Settles O22: as O21; no step of the operation looks at the flag. -/
theorem disableRamWritesTheEnableRegister : Obligations.DisableRamWritesTheEnableRegister := fun s =>
  ⟨encode_eq_wordOf _, refusedOutOfSession (by simp) (by simp) s, fun _ hphase hhdr =>
    ⟨exec_setRamEnabled_romOnly commandProc_disableRam hphase hhdr, fun hfam _ =>
      ⟨exec_setRamEnabled_of_ok commandProc_disableRam hphase hhdr hfam,
        exec_setRamEnabled_of_err commandProc_disableRam hphase hhdr hfam⟩⟩⟩

/-! ### The host's pass-through -/

/-- Settles O25: the command sets the address and nothing refuses it. -/
theorem setAddrSetsTheAddress : Obligations.SetAddrSetsTheAddress := fun s a =>
  ⟨encode_eq_wordOf _, refusedOutOfSession (by simp) (by simp) s, fun hphase =>
    exec_of_ok (i := .setAddr a) (r := Reply.nothing) (bind_of_ok (requireSession_ready hphase))⟩

theorem isControlAddr_iff (a : Addr) : isControlAddr a = true ↔ a.toNat < 0x8000 := decide_eq_true_iff

theorem isRamWindow_iff (a : Addr) : isRamWindow a = true ↔ 0xA000 ≤ a.toNat ∧ a.toNat ≤ 0xBFFF := by
  simp only [isRamWindow, Bool.and_eq_true, decide_eq_true_eq]

/-- A byte's value is not changed by the width of the record it is returned in (30_encoding.md R104). -/
theorem okResult_zext32 (v : Byte) : okResult (Reply.ofValue (zext32 v)) = resultOf .ok v.toNat := by
  simp only [okResult, Reply.ofValue, zext32, resultOf, BitVec.ofNat_toNat]

/-! The checks of READ_BYTE and WRITE_BYTE at an address, one by one (41_driver.md R177, R178). -/

section
variable {s : State} {a : Addr} (haddr : s.addr = some a)
include haddr

theorem readByteAddr_disabled (hwindow : isRamWindow a = true) (hoff : s.drv.ramEnabled = false) :
    readByteAddr s = .error ⟨.ramNotEnabled, 0⟩ s := by
  simp [readByteAddr, haddr, hwindow, hoff]

theorem readByteAddr_allowed (hallowed : ¬(isRamWindow a = true ∧ s.drv.ramEnabled = false)) :
    readByteAddr s = .ok a s := by
  simpa [readByteAddr, haddr] using hallowed

theorem writeByteAddr_control (hcontrol : isControlAddr a = true) :
    writeByteAddr s = .error ⟨.controlWriteRefused, 0⟩ s := by
  simp [writeByteAddr, haddr, hcontrol]

theorem writeByteAddr_disabled (hwindow : isRamWindow a = true) (hoff : s.drv.ramEnabled = false) :
    writeByteAddr s = .error ⟨.ramNotEnabled, 0⟩ s := by
  simp [writeByteAddr, haddr, isControlAddr_of_isRamWindow hwindow, hwindow, hoff]

theorem writeByteAddr_enabled (hwindow : isRamWindow a = true) (hon : s.drv.ramEnabled = true) :
    writeByteAddr s = .ok a s := by
  simp [writeByteAddr, haddr, isControlAddr_of_isRamWindow hwindow, hon]

theorem writeByteAddr_passes (hcontrol : isControlAddr a = false) (hwindow : isRamWindow a = false) :
    writeByteAddr s = .ok a s := by
  simp [writeByteAddr, haddr, hcontrol, hwindow]

end

theorem readByteAddr_unset {s : State} (haddr : s.addr = none) : readByteAddr s = .error ⟨.addressUnset, 0⟩ s := by
  simp [readByteAddr, haddr]

theorem writeByteAddr_unset {s : State} (haddr : s.addr = none) : writeByteAddr s = .error ⟨.addressUnset, 0⟩ s := by
  simp [writeByteAddr, haddr]

section
variable {s t : State} (hphase : s.phase = .ready) {e : Status}
include hphase

theorem exec_readByte_refused (hfatal : fatalOf e = none) (hcheck : readByteAddr s = .error ⟨e, 0⟩ s) :
    exec .readByte s = .next (s.respond (resultOf e 0)) :=
  exec_of_refused hfatal ((bind_of_ok (requireSession_ready hphase)).trans (bind_of_error hcheck))

theorem exec_writeByte_refused {v : BitVec 8} (hfatal : fatalOf e = none) (hcheck : writeByteAddr s = .error ⟨e, 0⟩ s) :
    exec (.writeByte v) s = .next (s.respond (resultOf e 0)) :=
  exec_of_refused hfatal ((bind_of_ok (requireSession_ready hphase)).trans (bind_of_error hcheck))

variable {a : Addr}

theorem exec_readByte_of_ok {v : Byte} (hcheck : readByteAddr s = .ok a s) (hread : busRead s = .ok v t) :
    exec .readByte s = .next (t.respond (resultOf .ok v.toNat)) := by
  rw [← okResult_zext32]
  exact exec_of_ok <| (bind_of_ok (requireSession_ready hphase)).trans <| (bind_of_ok hcheck).trans (bind_of_ok hread)

theorem exec_readByte_of_busError (hcheck : readByteAddr s = .ok a s) (hread : busRead s = .error ⟨.busError, 0⟩ t) :
    exec .readByte s = .next ((faultedWith .busError t).respond (resultOf .busError 0)) :=
  exec_of_busError <|
    (bind_of_ok (requireSession_ready hphase)).trans <| (bind_of_ok hcheck).trans (bind_of_error hread)

variable {v : BitVec 8} (hcheck : writeByteAddr s = .ok a s)
include hcheck

/-- WRITE_BYTE past its checks: one write, settled in the RAM window and plain elsewhere (41_driver.md R178). -/
theorem commandProc_writeByte : commandProc (.writeByte v) s =
    (do (if isRamWindow a = true then settledWrite v else busWrite v); pure Reply.nothing : Proc Reply) s := by
  refine (bind_of_ok (requireSession_ready hphase)).trans ((bind_of_ok hcheck).trans ?_)
  split <;> rfl

theorem exec_writeByte_of_ok (hwrite : (if isRamWindow a = true then settledWrite v else busWrite v) s = .ok () t) :
    exec (.writeByte v) s = .next (t.respond (resultOf .ok 0)) :=
  exec_of_ok (r := Reply.nothing) ((commandProc_writeByte hphase hcheck).trans (bind_of_ok hwrite))

theorem exec_writeByte_of_busError
    (hwrite : (if isRamWindow a = true then settledWrite v else busWrite v) s = .error ⟨.busError, 0⟩ t) :
    exec (.writeByte v) s = .next ((faultedWith .busError t).respond (resultOf .busError 0)) :=
  exec_of_busError ((commandProc_writeByte hphase hcheck).trans (bind_of_error hwrite))

end

/-- Settles O26: the checks in their order, and past them the two answers of the bus. -/
theorem readByteReturnsTheBusByte : Obligations.ReadByteReturnsTheBusByte := by
  refine fun s => ⟨encode_eq_wordOf _, refusedOutOfSession (by simp) (by simp) s, fun hphase =>
    ⟨fun hnone => exec_readByte_refused hphase rfl (readByteAddr_unset hnone), fun a haddr => ?_⟩⟩
  rw [← isRamWindow_iff]
  refine ⟨fun ⟨hwindow, hoff⟩ => exec_readByte_refused hphase rfl (readByteAddr_disabled haddr hwindow hoff),
    fun hallowed side => ?_⟩
  have hcheck := readByteAddr_allowed haddr hallowed
  exact ⟨fun _ hbus => exec_readByte_of_ok hphase hcheck (busRead_of_ok haddr hbus),
    fun hbus => exec_readByte_of_busError hphase hcheck (busRead_of_err haddr hbus)⟩

/-- Settles O27: the checks in their order, and past them the two answers of the bus to the write its address asks
for. -/
theorem writeByteWritesTheBusByte : Obligations.WriteByteWritesTheBusByte := by
  refine fun s v => ⟨encode_eq_wordOf _, refusedOutOfSession (by simp) (by simp) s, fun hphase =>
    ⟨fun hnone => exec_writeByte_refused hphase rfl (writeByteAddr_unset hnone), fun a haddr =>
      ⟨fun hcontrol => ?control, fun hlow hhigh hoff => ?disabled, fun hlow hhigh hon side => ?settled,
        fun hplain side => ?plain⟩⟩⟩
  case control =>
    exact exec_writeByte_refused hphase rfl (writeByteAddr_control haddr ((isControlAddr_iff a).mpr hcontrol))
  case disabled =>
    have hwindow := (isRamWindow_iff a).mpr ⟨hlow, hhigh⟩
    exact exec_writeByte_refused hphase rfl (writeByteAddr_disabled haddr hwindow hoff)
  case settled =>
    have hwindow := (isRamWindow_iff a).mpr ⟨hlow, hhigh⟩
    have hcheck := writeByteAddr_enabled haddr hwindow hon
    refine ⟨fun hbus => exec_writeByte_of_ok hphase hcheck ?_,
      fun hbus => exec_writeByte_of_busError hphase hcheck ?_⟩ <;> rw [if_pos hwindow]
    · exact settledWrite_of_ok haddr hbus
    · exact settledWrite_of_err haddr hbus
  case plain =>
    have hcontrol : isControlAddr a = false := by
      rw [← Bool.not_eq_true, isControlAddr_iff]
      omega
    have hwindow : ¬isRamWindow a = true := by
      rw [isRamWindow_iff]
      omega
    have hcheck := writeByteAddr_passes haddr hcontrol (Bool.eq_false_of_not_eq_true hwindow)
    refine ⟨fun hbus => exec_writeByte_of_ok hphase hcheck ?_,
      fun hbus => exec_writeByte_of_busError hphase hcheck ?_⟩ <;> rw [if_neg hwindow]
    · exact busWrite_of_ok haddr hbus
    · exact busWrite_of_err haddr hbus

/-! ### The single writer -/

/-- The header commands, the host's pass-through and the queries: they run none of the driver's operations
(41_driver.md R183). -/
abbrev IsPassThrough (i : Instr) : Prop :=
  i = .parseHeader ∨ i = .makeRomReader ∨ (∃ a, i = .setAddr a) ∨ i = .readByte ∨ (∃ v, i = .writeByte v) ∨ IsQuery i

/-- What such a command does, it could do with no session header at hand: so the registers of the header's family, which
are the driver's, are none of its targets. -/
theorem acts_passThrough {i : Instr} (hi : IsPassThrough i) (s : State) :
    Acts i none s (stateAfter (commandProc i) s) := by
  have hS := acts_steady i none
  rcases hi with rfl | rfl | ⟨a, rfl⟩ | rfl | ⟨v, rfl⟩ | rfl | rfl | ⟨o, rfl⟩ | ⟨o, rfl⟩
  · exact keeps_bind hS (keeps_requireNotFaulted hS)
      (fun _ => keeps_bind hS acts_readHeader fun _ => keeps_pure hS _) s
  · exact acts_makeRomReader s none
  · exact keeps_bind hS (keeps_requireSession hS) (fun _ => acts_then_nothing (acts_busSetAddr _)) s
  · exact keeps_bind hS (keeps_requireSession hS)
      (fun _ => keeps_bind hS (keeps_readByteAddr hS) fun _ =>
        keeps_bind hS acts_busRead fun _ => keeps_pure hS _) s
  · exact acts_writeByte v s none
  · exact keeps_inSession hS (fun _ => keeps_pure hS _) s
  · exact keeps_then_pure hS (keeps_requireSession hS) (statusReply s) s
  · exact keeps_inSession hS (fun _ => keeps_pure hS _) s
  · exact keeps_inSession hS (fun _ => keeps_pure hS _) s

/-- Without the driver's registers no target is a control register. -/
theorem WriteTarget.not_control_of_none {i : Instr} {a : Addr} (hw : WriteTarget i none a) :
    isControlAddr a = false := by
  rcases hw with ⟨_, hnone, _⟩ | ⟨_, hwindow⟩ | ⟨_, hcontrol⟩
  · cases hnone
  · exact isControlAddr_of_isRamWindow hwindow
  · exact hcontrol

/-- Settles O51: the events of the command are those of its acts, none of which is one of the driver's. -/
theorem passThroughNeverWritesAControlRegister : Obligations.PassThroughNeverWritesAControlRegister := by
  intro i s t hexec hi
  obtain ⟨evs, hevs, hof⟩ := (acts_passThrough hi s).revTrace_grows
  refine ⟨evs, (exec_revTrace hexec).trans hevs, fun e hmem => ?_⟩
  cases e with
  | write a v r => exact (hof _ hmem a v r rfl).not_control_of_none
  | setAddr | read | wait => rfl

end Sys2Proof.Machine
end

section
/-! The ROM reader (42_rom_reader.md). A turn of ROM_READ's loop delivers one byte or raises its error and leaves the
stream where it was; so whatever ends the command, S.out and the cursor have moved by the bytes its value counts. Where
the bus sequence is played to its end the exact next states are those of the loop. -/

namespace Sys2Proof.Machine

/-! ### The queries -/

/-- The fields of the state are not changed by the width of the record they are returned in (42_rom_reader.md R211). -/
theorem okResult_statusReply (s : State) : okResult (statusReply s) =
    ⟨.ok, BitVec.ofNat 32 s.rd.cursor.toNat, BitVec.ofNat 32 s.drv.romBank.toNat, s.rd.eos, none⟩ := by
  simp only [okResult, statusReply, zext32, BitVec.ofNat_toNat]

/-- Settles O28: outside a session both are refused, and in one each replies with what the state holds. -/
theorem romQueriesReportTheStateAndKeepIt : Obligations.RomQueriesReportTheStateAndKeepIt := by
  refine fun s => ⟨encode_eq_wordOf _, encode_eq_wordOf _, refusedOutOfSession (by simp) (by simp) s,
    refusedOutOfSession (by simp) (by simp) s, fun hphase => ⟨fun h hhdr => ?size, ?status⟩⟩
  case size => exact exec_of_ok (i := .romSize) (r := Reply.ofValue h.romSize) (inSession_ready hphase hhdr _)
  case status =>
    rw [← okResult_statusReply]
    exact exec_of_ok (i := .romStatus) (bind_of_ok (requireSession_ready hphase))

/-! ### What a ROM_READ has delivered -/

/-- Between s and t the bytes bs, newest first, have gone to S.out and the cursor has moved by them; S.rd.eos is as it
was (42_rom_reader.md R213). -/
structure Delivered (bs : List Byte) (s t : State) : Prop where
  out    : t.revOut = bs ++ s.revOut
  cursor : t.rd.cursor.toNat = s.rd.cursor.toNat + bs.length
  eos    : t.rd.eos = s.rd.eos

theorem Delivered.trans {bs cs : List Byte} {s t u : State} (hst : Delivered bs s t) (htu : Delivered cs t u) :
    Delivered (cs ++ bs) s u where
  out := by rw [htu.out, hst.out, List.append_assoc]
  cursor := by rw [htu.cursor, hst.cursor, List.length_append]; omega
  eos := htu.eos.trans hst.eos

/-- The stream is where it was: S.rd and S.out are the same. -/
def SameStream (s t : State) : Prop := (t.rd, t.revOut) = (s.rd, s.revOut)

theorem sameStream_driverSteady : DriverSteady SameStream where
  toSteady := steady_same fun s => (s.rd, s.revOut)
  setAddr _ _ := rfl
  request _ _ _ := rfl
  wait _ := rfl
  driver _ _ := rfl

theorem SameStream.delivered {s t : State} (hsame : SameStream s t) : Delivered [] s t := by
  obtain ⟨hrd, hout⟩ := Prod.mk.inj hsame
  exact ⟨hout, congrArg (·.cursor.toNat) hrd, congrArg Reader.eos hrd⟩

/-- An error ROM_READ may raise after it has moved k bytes (42_rom_reader.md R216, 30_encoding.md R104). -/
structure ReadError (e : Raised) (k : Nat) : Prop where
  status : e.status = .busError ∨ e.status = .unsupportedOperation
  moved  : e.moved = k

section
variable {h : Header} {s t : State} {e : Raised}

theorem selectRomOp_error {n : Nat} (hrun : selectRomOp h n s = .error e t) : ReadError e 0 := by
  refine ⟨?_, unmoved_selectRomOp h n s e t hrun⟩
  by_cases hlim : limRom h ≤ substituteBank n
  · rw [selectRomOp_refused hlim] at hrun
    cases hrun
    exact .inr rfl
  · rw [selectRomOp_allowed (Nat.lt_of_not_le hlim)] at hrun
    rcases bind_eq_error.mp hrun with hseq | ⟨_, _, _, hmirror⟩
    · exact .inl (congrArg Raised.status (runSeq_error hseq))
    · cases hmirror

/-! One byte delivered, or none. -/

theorem deliverByte_ok (hlt : s.rd.cursor.toNat + 1 < 2 ^ 24) (hrun : deliverByte s.rd.cursor s = .ok () t) :
    ∃ v, Delivered [v] s t := by
  obtain ⟨v, u, hread, hrun⟩ := bind_eq_ok.mp hrun
  obtain ⟨_, _, hemit, hrun⟩ := bind_eq_ok.mp hrun
  cases hemit
  cases hrun
  rw [(busOnly_memRead _).ok_frame hread]
  exact ⟨v, rfl, BitVec.toNat_add_of_lt hlt, rfl⟩

theorem deliverByte_error {c : Offset} (hrun : deliverByte c s = .error e t) : ReadError e 0 ∧ Delivered [] s t := by
  rcases bind_eq_error.mp hrun with hread | ⟨_, _, _, hrun⟩
  · have hsame := (keeps_memRead sameStream_driverSteady.toBusSteady _).of_error hread
    rcases memRead_cases (romBusAddr c.toNat) s with ⟨_, _, _, hm⟩ | ⟨_, _, hm⟩ <;> cases hread.symm.trans hm
    exact ⟨⟨.inl rfl, rfl⟩, hsame.delivered⟩
  · cases hrun

/-- A turn of the loop that returns has delivered one byte (42_rom_reader.md R213). -/
theorem readRomByte_delivers (hlt : s.rd.cursor.toNat + 1 < 2 ^ 24) (hrun : readRomByte h s = .ok () t) :
    ∃ v, Delivered [v] s t := by
  rw [readRomByte_eq] at hrun
  split at hrun
  · obtain ⟨_, u, hsel, hrun⟩ := bind_eq_ok.mp hrun
    have hsame := (keeps_selectRomOp sameStream_driverSteady h _).of_ok hsel
    rw [← (Prod.mk.inj hsame).1] at hrun hlt
    obtain ⟨v, hv⟩ := deliverByte_ok hlt hrun
    exact ⟨v, hsame.delivered.trans hv⟩
  · exact deliverByte_ok hlt hrun

/-- A turn of the loop that fails has delivered none (42_rom_reader.md R216). -/
theorem readRomByte_error (hrun : readRomByte h s = .error e t) : ReadError e 0 ∧ Delivered [] s t := by
  rw [readRomByte_eq] at hrun
  split at hrun
  · rcases bind_eq_error.mp hrun with hsel | ⟨_, u, hsel, hrun⟩
    · exact ⟨selectRomOp_error hsel, ((keeps_selectRomOp sameStream_driverSteady h _).of_error hsel).delivered⟩
    · obtain ⟨herr, hnone⟩ := deliverByte_error hrun
      exact ⟨herr, ((keeps_selectRomOp sameStream_driverSteady h _).of_ok hsel).delivered.trans hnone⟩
  · exact deliverByte_error hrun

end

/-- The loop over n bytes delivers n, or raises its error with the count of those it has delivered. -/
theorem readRomBytes_delivers {h : Header} (n : Nat) : ∀ {s : State} {first moved : Nat},
    s.rd.cursor.toNat + n < 2 ^ 24 →
    (∀ t, forBytes (fun _ => readRomByte h) n first moved s = .ok () t → ∃ bs, bs.length = n ∧ Delivered bs s t) ∧
    (∀ e t, forBytes (fun _ => readRomByte h) n first moved s = .error e t →
      ∃ bs, ReadError e (moved + bs.length) ∧ Delivered bs s t) := by
  induction n with
  | zero =>
    refine fun _ => ⟨fun t hrun => ?_, fun e t hrun => ?_⟩ <;> cases hrun
    exact ⟨[], rfl, SameStream.delivered rfl⟩
  | succ n ih =>
    intro s first moved hlt
    have hnext {u : State} {v : Byte} (hv : Delivered [v] s u) : u.rd.cursor.toNat + n < 2 ^ 24 := by
      rw [hv.cursor, List.length_singleton]
      omega
    constructor
    · intro t hrun
      obtain ⟨_, u, hturn, hrest⟩ := bind_eq_ok.mp hrun
      obtain ⟨v, hv⟩ := readRomByte_delivers (by omega) (withMoved_eq_ok.mp hturn)
      obtain ⟨bs, rfl, hbs⟩ := (ih (hnext hv)).1 t hrest
      exact ⟨bs ++ [v], List.length_append, hv.trans hbs⟩
    · intro e t hrun
      rcases bind_eq_error.mp hrun with hturn | ⟨_, u, hturn, hrest⟩
      · obtain ⟨e₀, hfail, rfl⟩ := withMoved_eq_error.mp hturn
        obtain ⟨herr, hnone⟩ := readRomByte_error hfail
        exact ⟨[], ⟨herr.status, congrArg (moved + ·) herr.moved⟩, hnone⟩
      · obtain ⟨v, hv⟩ := readRomByte_delivers (by omega) (withMoved_eq_ok.mp hturn)
        obtain ⟨bs, herr, hbs⟩ := (ih (hnext hv)).2 e t hrest
        refine ⟨bs ++ [v], ⟨herr.status, ?_⟩, hv.trans hbs⟩
        rw [herr.moved, List.length_append, List.length_singleton]
        omega

/-! ### The command in a session -/

/-- No image is as long as the cursor is wide (30_encoding.md R112). -/
theorem romSize_lt {h : Header} (hwf : h.wf) : h.romSize.toNat < 2 ^ 24 := by
  have hmax : ∀ n ∈ romSizes, n < 2 ^ 24 := by decide
  exact hmax _ hwf.1

section
variable {s : State} {h : Header} {cap : BitVec 24}

/-- A ROM_READ in a session is its body on the session header. -/
theorem commandProc_romRead (hphase : s.phase = .ready) (hhdr : s.hdr = some h) :
    commandProc (.romRead cap) s = romReadOp h cap.toNat s := inSession_ready hphase hhdr _

/-- Before the end, and with bytes asked for, the body is the loop (42_rom_reader.md R213). -/
theorem romReadOp_before_end {n k : Nat} (hcap : n ≠ 0) (hend : s.rd.cursor.toNat ≠ h.romSize.toNat)
    (hk : k = min n (h.romSize.toNat - s.rd.cursor.toNat)) : romReadOp h n s =
      (do
        forBytes (fun _ => readRomByte h) k 0 0
        pure (Reply.ofValue (BitVec.ofNat 32 k)) : Proc Reply) s := by
  subst hk
  simp only [romReadOp, if_neg hcap, if_neg hend]

theorem toNat_ne_zero (hcap : cap ≠ 0) : cap.toNat ≠ 0 := fun hzero => hcap (BitVec.eq_of_toNat_eq hzero)

variable (hphase : s.phase = .ready) (hhdr : s.hdr = some h)
include hphase hhdr

theorem exec_romRead_zero : exec (.romRead 0) s = .next (s.respond (resultOf .ok 0)) :=
  exec_of_ok (r := Reply.nothing) (commandProc_romRead hphase hhdr)

theorem exec_romRead_at_end (hcap : cap ≠ 0) (hend : s.rd.cursor.toNat = h.romSize.toNat) :
    exec (.romRead cap) s = .next (State.respond (resultOf .ok 0) { s with rd := { s.rd with eos := true } }) := by
  refine exec_of_ok (r := Reply.nothing) ((commandProc_romRead hphase hhdr).trans ?_)
  simp only [romReadOp, if_neg (toNat_ne_zero hcap), if_pos hend]

theorem commandProc_romRead_before_end {k : Nat} (hcap : cap ≠ 0) (hend : s.rd.cursor.toNat ≠ h.romSize.toNat)
    (hk : k = min cap.toNat (h.romSize.toNat - s.rd.cursor.toNat)) : commandProc (.romRead cap) s =
      (do
        forBytes (fun _ => readRomByte h) k 0 0
        pure (Reply.ofValue (BitVec.ofNat 32 k)) : Proc Reply) s :=
  (commandProc_romRead hphase hhdr).trans (romReadOp_before_end (toNat_ne_zero hcap) hend hk)

/-- What a ROM_READ before the end can do: deliver what it was asked for, at least one byte, or raise its error with the
count of the bytes it has delivered (42_rom_reader.md R213, R216). -/
theorem exec_romRead_cases (hinv : s.Inv) (hcap : cap ≠ 0) (hend : s.rd.cursor.toNat ≠ h.romSize.toNat) :
    ∃ bs u, Delivered bs s u ∧
      ((exec (.romRead cap) s = .next (u.respond (resultOf .ok bs.length)) ∧ bs ≠ []) ∨
        ∃ e, exec (.romRead cap) s = .next (takeError e u) ∧ ReadError e bs.length) := by
  have hcursor := (hinv.session h hhdr).cursor
  have hsize := romSize_lt (hinv.session h hhdr).header
  have hpos := toNat_ne_zero hcap
  obtain ⟨k, hk⟩ : ∃ k, k = min cap.toNat (h.romSize.toNat - s.rd.cursor.toNat) := ⟨_, rfl⟩
  have hproc := commandProc_romRead_before_end hphase hhdr hcap hend hk
  obtain ⟨hok, herror⟩ := readRomBytes_delivers (h := h) k (s := s) (first := 0) (moved := 0) (by omega)
  cases hloop : forBytes (fun _ => readRomByte h) k 0 0 s with
  | ok _ u =>
    obtain ⟨bs, rfl, hbs⟩ := hok u hloop
    refine ⟨bs, u, hbs, .inl ⟨exec_of_ok (hproc.trans (bind_of_ok hloop)), ?_⟩⟩
    rw [← List.length_pos_iff]
    omega
  | error e u =>
    obtain ⟨bs, herr, hbs⟩ := herror e u hloop
    rw [Nat.zero_add] at herr
    exact ⟨bs, u, hbs, .inr ⟨e, exec_of_error (hproc.trans (bind_of_error hloop)), herr⟩⟩

end

/-- A count of delivered bytes fits the value of the result record. -/
theorem Delivered.length_lt {bs : List Byte} {s t : State} (hbs : Delivered bs s t) : bs.length < 2 ^ 32 := by
  have hmax := t.rd.cursor.isLt
  rw [hbs.cursor] at hmax
  omega

theorem Delivered.value_toNat {bs : List Byte} {s t : State} (hbs : Delivered bs s t) :
    (BitVec.ofNat 32 bs.length).toNat = bs.length := Nat.mod_eq_of_lt hbs.length_lt

theorem ReadError.not_ok {e : Raised} {k : Nat} (herr : ReadError e k) : e.status ≠ .ok := by
  rcases herr.status with hs | hs <;> simp [hs]

/-- Settles O30: the three branches of the body; before the end an OK one has delivered a byte. -/
theorem romReadReturnsZeroExactlyAtTheEnd : Obligations.RomReadReturnsZeroExactlyAtTheEnd := by
  intro s h cap hinv hphase hhdr
  refine ⟨?_, exec_romRead_at_end hphase hhdr, fun hcap hend t r hexec hlast hok => ?_⟩
  · rintro rfl
    exact exec_romRead_zero hphase hhdr
  obtain ⟨bs, u, hbs, ⟨hrun, hne⟩ | ⟨e, hrun, herr⟩⟩ := exec_romRead_cases hphase hhdr hinv hcap hend <;>
    cases hexec.symm.trans hrun <;> cases hlast
  · refine ⟨fun hzero => hne (List.length_eq_zero_iff.mp ?_), hbs.eos⟩
    rw [← hbs.value_toNat]
    exact congrArg BitVec.toNat hzero
  · exact absurd hok herr.not_ok

/-- Settles O31: on every end the record counts the bytes delivered. -/
theorem romReadAccountsForEveryByte : Obligations.RomReadAccountsForEveryByte := by
  intro s t h cap r hinv hphase hhdr hexec hlast
  by_cases hcap : cap = 0
  · subst hcap
    cases hexec.symm.trans (exec_romRead_zero hphase hhdr)
    cases hlast
    exact ⟨.inl rfl, [], rfl, rfl, rfl⟩
  by_cases hend : s.rd.cursor.toNat = h.romSize.toNat
  · cases hexec.symm.trans (exec_romRead_at_end hphase hhdr hcap hend)
    cases hlast
    exact ⟨.inl rfl, [], rfl, rfl, rfl⟩
  obtain ⟨bs, u, hbs, ⟨hrun, -⟩ | ⟨e, hrun, herr⟩⟩ := exec_romRead_cases hphase hhdr hinv hcap hend <;>
    cases hexec.symm.trans hrun <;> cases hlast
  · exact ⟨.inl rfl, bs, hbs.out, hbs.value_toNat, hbs.cursor⟩
  · have hvalue : (errorResult e).value.toNat = bs.length := by
      rw [errorResult, herr.moved, hbs.value_toNat]
    refine ⟨.inr herr.status, bs, ?_, hvalue, ?_⟩
    · rw [takeError_revOut, hbs.out]
    · rw [takeError_rd, hbs.cursor]

/-! ### The bus sequence played to its end -/

/-- The state a ROM_READ leaves that has read the bytes bs, oldest first, from the state s, where t is the state its bus
sequence leaves. -/
def readState (s t : State) (bs : List Byte) (k : Nat) : State :=
  { t with
    drv := { s.drv with romBank := romBankAfter s.drv.romBank s.rd.cursor.toNat k }
    rd := { s.rd with cursor := BitVec.ofNat 24 (s.rd.cursor.toNat + k) }
    revOut := bs.reverse ++ s.revOut }

section
variable {s t : State} {h : Header} {cap : BitVec 24} {k : Nat} {bs : List Byte}
  (hphase : s.phase = .ready) (hhdr : s.hdr = some h) (hinv : s.Inv)
  (hlim : ∀ j < k, selectsAt (s.rd.cursor.toNat + j) → (s.rd.cursor.toNat + j) / 0x4000 < limRom h)
  (hplay : play (romReadOps h s.rd.cursor.toNat k) s = .ok bs t)
include hphase hhdr hinv hlim hplay

theorem exec_romRead_of_play (hcap : cap ≠ 0) (hend : s.rd.cursor.toNat ≠ h.romSize.toNat)
    (hk : k = min cap.toNat (h.romSize.toNat - s.rd.cursor.toNat)) :
    bs.length = k ∧ exec (.romRead cap) s = .next ((readState s t bs k).respond (resultOf .ok k)) := by
  have hcursor := (hinv.session h hhdr).cursor
  have hsize := romSize_lt (hinv.session h hhdr).header
  obtain ⟨hlen, hloop⟩ := readRomBytes_ok (first := 0) (moved := 0) k (by omega) hlim hplay
  exact ⟨hlen, exec_of_ok ((commandProc_romRead_before_end hphase hhdr hcap hend hk).trans (bind_of_ok hloop))⟩

end

/-- Settles O29: the loop delivers what its bus sequence reads. -/
theorem romReadDeliversTheStream : Obligations.RomReadDeliversTheStream :=
  ⟨fun _ => encode_eq_wordOf _, fun _ _ _ _ hinv hphase hhdr hcap hend hk hlim _ _ hplay =>
    exec_romRead_of_play hphase hhdr hinv hlim hplay hcap hend hk⟩

/-! ### A bank that cannot be selected -/

/-- A loop goes on where its first turns have left it. -/
theorem forBytes_add_of_ok {body : Nat → Proc Unit} {m : Nat} (n : Nat) : ∀ {first moved : Nat} {s t : State},
    forBytes body m first moved s = .ok () t →
    forBytes body (m + n) first moved s = forBytes body n (first + m) (moved + m) t := by
  induction m with
  | zero =>
    intro first moved s t hrun
    cases hrun
    rw [Nat.zero_add, Nat.add_zero, Nat.add_zero]
  | succ m ih =>
    intro first moved s t hrun
    obtain ⟨_, u, hturn, hrest⟩ := bind_eq_ok.mp hrun
    have hgo : forBytes body (m + 1 + n) first moved s = forBytes body (m + n) (first + 1) (moved + 1) u := by
      rw [Nat.add_right_comm]
      exact bind_of_ok hturn
    rw [hgo, ih hrest, Nat.add_assoc first, Nat.add_assoc moved, Nat.add_comm 1]

/-- At a boundary whose bank is at or above the limit a turn of the loop is refused before it has done anything
(42_rom_reader.md R213, 41_driver.md R179). -/
theorem readRomByte_refused {h : Header} {s : State} (hsel : selectsAt s.rd.cursor.toNat)
    (hlim : limRom h ≤ s.rd.cursor.toNat / 0x4000) : readRomByte h s = .error ⟨.unsupportedOperation, 0⟩ s := by
  have hbank : substituteBank (romBankOf s.rd.cursor.toNat) = s.rd.cursor.toNat / 0x4000 :=
    substituteBank_pos (by show 1 ≤ s.rd.cursor.toNat / 0x4000; omega)
  rw [readRomByte_eq, if_pos ((atRomBoundary_iff _).mpr hsel), selectRomOp_refused (hbank ▸ hlim)]
  rfl

/-- A loop that meets such a boundary after k bytes raises the refusal with their count. -/
theorem readRomBytes_refused {h : Header} {k n : Nat} {s t : State}
    (hloop : forBytes (fun _ => readRomByte h) k 0 0 s = .ok () t) (hn : k < n) (hsel : selectsAt t.rd.cursor.toNat)
    (hlim : limRom h ≤ t.rd.cursor.toNat / 0x4000) :
    forBytes (fun _ => readRomByte h) n 0 0 s = .error ⟨.unsupportedOperation, k⟩ t := by
  obtain ⟨m, rfl⟩ : ∃ m, n = k + (m + 1) := ⟨n - k - 1, by omega⟩
  rw [forBytes_add_of_ok (m + 1) hloop]
  refine bind_of_error (withMoved_eq_error.mpr ⟨_, readRomByte_refused hsel hlim, ?_⟩)
  rw [Nat.zero_add, Nat.add_zero]

/-- A ROM_READ whose loop is refused after k bytes (60_exceptions.md R274). -/
theorem exec_romRead_refused {s t : State} {h : Header} {cap : BitVec 24} {k : Nat} (hphase : s.phase = .ready)
    (hhdr : s.hdr = some h) (hk : k < cap.toNat) (hend : s.rd.cursor.toNat + k < h.romSize.toNat)
    (hloop : forBytes (fun _ => readRomByte h) k 0 0 s = .ok () t) (hsel : selectsAt t.rd.cursor.toNat)
    (hlim : limRom h ≤ t.rd.cursor.toNat / 0x4000) :
    exec (.romRead cap) s = .next (t.respond (resultOf .unsupportedOperation k)) := by
  have hcap : cap ≠ 0 := by
    rintro rfl
    exact Nat.not_lt_zero k hk
  have hproc := commandProc_romRead_before_end hphase hhdr hcap (by omega) rfl
  have hrefused := readRomBytes_refused hloop
    (show k < min cap.toNat (h.romSize.toNat - s.rd.cursor.toNat) by omega) hsel hlim
  rw [exec_of_error (hproc.trans (bind_of_error hrefused)), takeError, enterFaulted_of_not_fatal rfl]
  rfl

/-- Settles O32: the first clause is a refusal after no byte, the second one after the k bytes its sequence reads. -/
theorem romReadStopsAtABankItCannotSelect : Obligations.RomReadStopsAtABankItCannotSelect := by
  constructor
  · intro s h cap hphase hhdr hcap hlt hsel hlim
    exact exec_romRead_refused hphase hhdr (Nat.pos_of_ne_zero (toNat_ne_zero hcap)) hlt rfl hsel hlim
  · intro s h cap k hinv hphase hhdr hk hlt hsel hlim hbelow bs t hplay
    have hsize := romSize_lt (hinv.session h hhdr).header
    obtain ⟨hlen, hloop⟩ := readRomBytes_ok (first := 0) (moved := 0) k (by omega) hbelow hplay
    have hcursor : (BitVec.ofNat 24 (s.rd.cursor.toNat + k)).toNat = s.rd.cursor.toNat + k :=
      Nat.mod_eq_of_lt (by omega)
    rw [← hcursor] at hsel hlim
    exact ⟨hlen, exec_romRead_refused hphase hhdr hk hlt hloop hsel hlim⟩

/-! ### The stream goes forward -/

/-- The cursor is where it was or further on, and eos is kept once set (42_rom_reader.md R212). -/
def StreamForward (s t : State) : Prop :=
  s.rd.cursor.toNat ≤ t.rd.cursor.toNat ∧ (s.rd.eos = true → t.rd.eos = true)

theorem streamForward_steady : Steady StreamForward where
  refl _ := ⟨Nat.le_refl _, id⟩
  trans := fun ⟨hle₁, heos₁⟩ ⟨hle₂, heos₂⟩ => ⟨hle₁.trans hle₂, heos₂ ∘ heos₁⟩

/-- Only two acts write S.rd inside a session, and both move it forward: a cursor inside an image does not wrap. -/
theorem Acts.streamForward {i : Instr} {o : Option Header} {s t : State} (hi : i ≠ .makeRomReader)
    (hwf : ∀ h, o = some h → h.wf) (h : Acts i o s t) : StreamForward s t :=
  h.rel streamForward_steady fun s _ act => by
    cases act with
    | openSession hopen => exact absurd hopen hi
    | @advance _ h ho _ hlt =>
      have hsize := romSize_lt (hwf h ho)
      have hnext : (s.rd.cursor + 1).toNat = s.rd.cursor.toNat + 1 :=
        BitVec.toNat_add_of_lt (Nat.lt_of_le_of_lt hlt hsize)
      exact ⟨Nat.le_of_lt (hnext ▸ Nat.lt_succ_self _), id⟩
    | endOfStream => exact ⟨Nat.le_refl _, fun _ => rfl⟩
    | _ => exact streamForward_steady.refl _

/-- A MAKE_ROM_READER that returns OK has opened a session. -/
theorem exec_makeRomReader_rd {s t : State} (hexec : exec .makeRomReader s = .next t) (hok : lastStatusIs .ok t) :
    t.rd = { cursor := 0, eos := false } := by
  obtain ⟨r, hlast, hstatus⟩ := hok
  by_cases hphase : s.phase = .faulted
  · have hrefused := exec_of_refused (i := .makeRomReader) rfl (bind_of_error (requireNotFaulted_faulted hphase))
    cases hexec.symm.trans hrefused
    cases hlast
    cases hstatus
  rcases readHeader_cases s with ⟨bs, u, hplay, -⟩ | ⟨e, u, hplay, -⟩
  · cases hexec.symm.trans (exec_makeRomReader_of_ok hphase hplay)
    rfl
  · cases hexec.symm.trans (exec_header_of_error hphase (.inr rfl) hplay)
    cases hlast
    cases hstatus

/-- Settles O33, by the acts of the commands; a MAKE_ROM_READER opens its session or does not return OK. -/
theorem streamIsNotRestartable : Obligations.StreamIsNotRestartable := by
  intro i s t hinv hexec
  refine ⟨fun hi => ?_, ?_⟩
  · obtain ⟨u, hacts, hend⟩ := exec_acts hexec
    rw [hend.same State.rd fun _ _ _ => rfl]
    exact hacts.streamForward hi fun h hh => (hinv.session h hh).header
  · rintro rfl hok
    exact exec_makeRomReader_rd hexec hok

end Sys2Proof.Machine
end

section
/-! The stream of the reference cartridge (42_rom_reader.md R215, 95_test_vectors.md section 2). The register writes of a
bank select make the switchable window show that bank, on MBC1 with its aliasing (70_reset_and_hazards.md R315) and
whatever the registers held before; so each byte ROM_READ reads is the stream's. -/

namespace Sys2Proof.Machine

/-! ### Bus sequences on the reference cartridge -/

theorem RefCart.countBy_countBy (c : RefCart) (m n : Nat) : (c.countBy m).countBy n = c.countBy (m + n) := by
  simp only [RefCart.countBy, Nat.add_assoc]

/-- What a write stores does not depend on the count of requests. -/
theorem RefCart.store_countBy (c : RefCart) (n : Nat) (a : Addr) (v : Byte) :
    (c.countBy n).store a v = (c.store a v).countBy n := by
  have hcontrol : (c.countBy n).writeControl a v = (c.writeControl a v).countBy n := by
    rcases c with ⟨f⟩
    cases f with
    | romOnly => rfl
    | mbc1 | mbc2 | mbc3 | mbc5 => dsimp only [writeControl, countBy]; split_ifs <;> rfl
  have hvisible : (c.countBy n).ramVisible a = c.ramVisible a := rfl
  unfold RefCart.store
  rw [hcontrol, hvisible]
  split_ifs <;> rfl

theorem RefCart.storeAll_countBy (c : RefCart) (n : Nat) (seq : List (Addr × Byte)) :
    (c.countBy n).storeAll seq = (c.storeAll seq).countBy n := by
  induction seq generalizing c with
  | nil => rfl
  | cons p seq ih => rw [storeAll_cons, storeAll_cons, store_countBy, ih]

@[simp] theorem RefCart.storeAll_rom (c : RefCart) (seq : List (Addr × Byte)) : (c.storeAll seq).rom = c.rom := by
  induction seq generalizing c with
  | nil => rfl
  | cons p seq ih => rw [storeAll_cons, ih, store_rom]

/-- A cartridge that fits its header still fits it after register writes. -/
theorem CartFits.storeAll {c : RefCart} {h : Header} (hfit : CartFits c h) (seq : List (Addr × Byte)) :
    CartFits (c.storeAll seq) h := by
  induction seq generalizing c with
  | nil => exact hfit
  | cons p seq ih =>
    exact ih
      { family := (c.store_family _ _).trans hfit.family
        romSize := (c.store_romSize _ _).trans hfit.romSize
        ramSize := (c.store_ramSize _ _).trans hfit.ramSize
        failures := (c.store_failures _ _).trans hfit.failures }

theorem CartFits.countBy {c : RefCart} {h : Header} (hfit : CartFits c h) (n : Nat) : CartFits (c.countBy n) h :=
  ⟨hfit.family, hfit.romSize, hfit.ramSize, hfit.failures⟩

/-- A cartridge without failures stores a write and counts the request. -/
theorem memWrite_reference {s : State} {c : RefCart} (hbus : s.bus = .reference c) (hfail : c.failures = [])
    (a : Addr) (v : Byte) : ∃ t, memWrite a v s = .ok () t ∧ t.bus = .reference ((c.store a v).countBy 1) := by
  refine ⟨_, memWrite_of_ok (side := .reference ((c.store a v).countBy 1)) ?_, rfl⟩
  rw [hbus]
  simp [BusSide.write, RefCart.failing, hfail, RefCart.count, RefCart.countBy]

theorem play_writeOps {a : Addr} {v : Byte} {s t : State} (hrun : memWrite a v s = .ok () t) :
    play (writeOps a v) s = .ok [] t := by
  obtain ⟨_, u, hset, hwrite⟩ := bind_eq_ok.mp hrun
  exact (bind_of_ok hset).trans (bind_of_ok hwrite)

/-- On a cartridge without failures register writes are played to their end. -/
theorem play_seqOps_reference {seq : List (Addr × Byte)} : ∀ {s : State} {c : RefCart}, s.bus = .reference c →
    c.failures = [] → ∃ t n, play (seqOps seq) s = .ok [] t ∧ t.bus = .reference ((c.storeAll seq).countBy n) := by
  induction seq with
  | nil => exact fun {s c} hbus _ => ⟨s, 0, rfl, hbus⟩
  | cons p seq ih =>
    intro s c hbus hfail
    obtain ⟨u, hwrite, hu⟩ := memWrite_reference hbus hfail p.1 p.2
    obtain ⟨t, n, hrest, ht⟩ := ih hu ((c.store_failures _ _).trans hfail)
    refine ⟨t, 1 + n, play_append_ok.mpr ⟨[], u, [], play_writeOps hwrite, hrest, rfl⟩, ?_⟩
    rw [ht, RefCart.storeAll_countBy, RefCart.countBy_countBy, RefCart.storeAll_cons]

/-! ### The bank the window shows -/

/-- A register of m bits holds the low m bits of what is written. -/
theorem maskedField_toNat {m : Nat} (hm : m ≤ 8) (n : Nat) :
    (BitVec.ofNat 8 (n % 2 ^ m) &&& BitVec.ofNat 8 (2 ^ m - 1)).toNat = n % 2 ^ m := by
  have hfield : n % 2 ^ m < 2 ^ m := Nat.mod_lt _ (Nat.two_pow_pos m)
  have hmax : 2 ^ m ≤ 2 ^ 8 := Nat.pow_le_pow_right (by decide) hm
  rw [BitVec.toNat_and, BitVec.toNat_ofNat, BitVec.toNat_ofNat, Nat.mod_eq_of_lt (by omega : n % 2 ^ m < 2 ^ 8),
    Nat.mod_eq_of_lt (by omega : 2 ^ m - 1 < 2 ^ 8), Nat.and_two_pow_sub_one_eq_mod, Nat.mod_mod]

/-- What a bank register that reads a zero as one stands for. -/
theorem zeroReadsOne {r : Byte} {k : Nat} (hr : r.toNat = k) :
    (if r = 0 then 1 else r.toNat) = if k = 0 then 1 else k := by
  subst hr
  simp only [← BitVec.toNat_inj]
  rfl

theorem or_shiftLeft {low k : Nat} (high : Nat) (hlow : low < 2 ^ k) : low ||| high <<< k = high * 2 ^ k + low := by
  rw [Nat.or_comm, ← Nat.shiftLeft_add_eq_or_of_lt hlow, Nat.shiftLeft_eq]

section
variable {c : RefCart} {n : Nat}

/-- MBC1 holds the low five bits, a zero read as one, and the two upper bits where the select writes them (10_state.md
R34, 70_reset_and_hazards.md R315). -/
theorem romBank_select_mbc1 (hfam : c.family = .mbc1) (banks : Nat) (hn : n < 128) :
    (c.storeAll (romSelectWrites .mbc1 n banks)).romBank =
      (if 32 < banks then n / 32 else c.r2.toNat) * 32 + (if n % 32 = 0 then 1 else n % 32) := by
  have hlow := zeroReadsOne (maskedField_toNat (m := 5) (by decide) n)
  have hhigh := maskedField_toNat (m := 2) (by decide) (n / 32)
  have hlt : (if n % 2 ^ 5 = 0 then 1 else n % 2 ^ 5) < 2 ^ 5 := by split <;> omega
  have hfits : n / 32 % 2 ^ 2 = n / 32 := by omega
  have hbank {low high k : Nat} (heq : low = if n % 2 ^ 5 = 0 then 1 else n % 2 ^ 5) (hk : high = k) :
      low ||| high <<< 5 = k * 32 + if n % 32 = 0 then 1 else n % 32 := by
    subst heq hk
    exact or_shiftLeft high hlt
  rcases c with ⟨f⟩
  cases hfam
  by_cases hbanks : 32 < banks
  · rw [romSelectWrites, if_pos hbanks, if_pos hbanks]
    exact hbank hlow (hhigh.trans hfits)
  · rw [romSelectWrites, if_neg hbanks, if_neg hbanks]
    exact hbank hlow rfl

theorem romBank_select_mbc2 (hfam : c.family = .mbc2) (banks : Nat) (hpos : 1 ≤ n) (hn : n < 16) :
    (c.storeAll (romSelectWrites .mbc2 n banks)).romBank = n := by
  have hlow := zeroReadsOne (maskedField_toNat (m := 4) (by decide) n)
  have hvalue : (if n % 2 ^ 4 = 0 then 1 else n % 2 ^ 4) = n := by split <;> omega
  have hstore : c.storeAll (romSelectWrites .mbc2 n banks) = { c with r1 := BitVec.ofNat 8 (n % 16) &&& 0x0F } := by
    simp [romSelectWrites, RefCart.store, isControlAddr, RefCart.writeControl, hfam]
  rw [hstore]
  rcases c with ⟨f⟩
  cases hfam
  exact hlow.trans hvalue

theorem romBank_select_mbc3 (hfam : c.family = .mbc3) (banks : Nat) (hpos : 1 ≤ n) (hn : n < 128) :
    (c.storeAll (romSelectWrites .mbc3 n banks)).romBank = n := by
  have hlow := zeroReadsOne (maskedField_toNat (m := 7) (by decide) n)
  have hvalue : (if n % 2 ^ 7 = 0 then 1 else n % 2 ^ 7) = n := by split <;> omega
  rcases c with ⟨f⟩
  cases hfam
  exact hlow.trans hvalue

theorem romBank_select_mbc5 (hfam : c.family = .mbc5) (banks : Nat) (hn : n < 512) :
    (c.storeAll (romSelectWrites .mbc5 n banks)).romBank = n := by
  have hbit : ((BitVec.ofNat 8 (n / 256 % 2)).getLsbD 0).toNat = n / 256 := by
    rcases (by omega : n / 256 = 0 ∨ n / 256 = 1) with hhigh | hhigh <;> rw [hhigh] <;> rfl
  have hlow : (BitVec.ofNat 8 (n % 256)).toNat = n % 256 := Nat.mod_mod n 256
  rcases c with ⟨f⟩
  cases hfam
  have hsum : n % 2 ^ 8 ||| (n / 256) <<< 8 = n := by
    rw [or_shiftLeft (n / 256) (Nat.mod_lt n (by decide))]
    omega
  exact (congrArg₂ (fun low high : Nat => low ||| high <<< 8) hlow hbit).trans hsum

end

/-- The bank the window shows after a select of bank n (70_reset_and_hazards.md R315). -/
def shownBank (h : Header) (n : Nat) : Nat :=
  if family h = .mbc1 ∧ 32 < romBanks h ∧ n % 32 = 0 then n + 1 else n

theorem shownBank_of_ne {h : Header} (hfam : family h ≠ .mbc1) (n : Nat) : shownBank h n = n :=
  if_neg fun ⟨hmbc1, _⟩ => hfam hmbc1

section
variable {h : Header} (hwf : h.wf)
include hwf

/-- The images are whole banks (30_encoding.md R112). -/
theorem romBanks_mul : romBanks h * 0x4000 = h.romSize.toNat := by
  have hwhole : ∀ size ∈ romSizes, size / 0x4000 * 0x4000 = size := by decide
  exact hwhole _ hwf.1

/-- A power of two: it divides 32, or 64 divides it (30_encoding.md R112). -/
theorem romBanks_dvd (hpos : 0 < romBanks h) : romBanks h ∣ 32 ∨ 64 ∣ romBanks h := by
  have hpow : ∀ size ∈ romSizes, 0 < size / 0x4000 → size / 0x4000 ∣ 32 ∨ 64 ∣ size / 0x4000 := by decide
  exact hpow _ hwf.1 hpos

/-- On MBC1 the bank the registers stand for, as the image's length cuts it: where the upper bits are not written they
are cut off, and where they are, the bank above one whose low bits are zero is in the image (70_reset_and_hazards.md
R315). -/
theorem shownBank_mbc1 (hfam : family h = .mbc1) {n : Nat} (hpos : 1 ≤ n) (hn : n < romBanks h) (r2 : Nat) :
    ((if 32 < romBanks h then n / 32 else r2) * 32 + (if n % 32 = 0 then 1 else n % 32)) % romBanks h =
      shownBank h n := by
  have hdvd := romBanks_dvd hwf (by omega)
  by_cases hbanks : 32 < romBanks h
  · have hdouble : 64 ∣ romBanks h := hdvd.resolve_left fun hsmall => by
      have := Nat.le_of_dvd (by decide) hsmall
      omega
    have hshown : shownBank h n = if n % 32 = 0 then n + 1 else n := by simp only [shownBank, hfam, hbanks, true_and]
    rw [if_pos hbanks, hshown]
    split <;> rw [Nat.mod_eq_of_lt (by omega)] <;> omega
  · have hsmall : romBanks h ∣ 32 := hdvd.resolve_right fun hdouble => by
      have := Nat.le_of_dvd (by omega) hdouble
      omega
    have hshown : shownBank h n = n := if_neg fun ⟨_, hmany, _⟩ => hbanks hmany
    rw [if_neg hbanks, if_neg (by omega), hshown, Nat.add_mod, Nat.mod_eq_zero_of_dvd (hsmall.mul_left r2), Nat.zero_add,
      Nat.mod_mod, Nat.mod_eq_of_lt (by omega), Nat.mod_eq_of_lt (by omega)]

/-- After a bank select the window shows the bank, whatever the registers held. -/
theorem romBank_select {c : RefCart} {n : Nat} (hfam : c.family = family h) (hpos : 1 ≤ n) (hn : n < romBanks h)
    (hmax : romBanks h ≤ params.famMaxRomBanks (family h)) :
    (c.storeAll (romSelectWrites (family h) n (romBanks h))).romBank % romBanks h = shownBank h n := by
  have hlt := hn.trans_le hmax
  have hplain {bank : Nat} (hbank : bank = n) (hne : family h ≠ .mbc1) : bank % romBanks h = shownBank h n := by
    rw [hbank, shownBank_of_ne hne, Nat.mod_eq_of_lt hn]
  cases hf : family h <;> rw [hf] at hfam hlt
  case mbc1 =>
    rw [romBank_select_mbc1 hfam _ hlt]
    exact shownBank_mbc1 hwf hf hpos hn _
  case mbc2 => exact hplain (romBank_select_mbc2 hfam _ hpos hlt) (by simp [hf])
  case mbc3 => exact hplain (romBank_select_mbc3 hfam _ hpos hlt) (by simp [hf])
  case mbc5 => exact hplain (romBank_select_mbc5 hfam _ hlt) (by simp [hf])
  case romOnly =>
    have hone : n < 2 := hlt
    have hbank : c.romBank = n := by
      simp only [RefCart.romBank, hfam]
      omega
    exact hplain hbank (by simp [hf])

end

/-! ### The bytes of the stream -/

theorem streamByte_low (c : RefCart) (h : Header) {o : Nat} (ho : o < 0x4000) : streamByte c h o = c.romByte o := by
  have hbank : ¬1 ≤ romBankOf o := by
    show ¬1 ≤ o / 0x4000
    omega
  exact if_neg fun ⟨_, _, hpos, _⟩ => hbank hpos

/-- Above the first bank the stream's byte is that of the bank the window shows. -/
theorem streamByte_high (c : RefCart) (h : Header) {o : Nat} (ho : 0x4000 ≤ o) :
    streamByte c h o = c.romByte (shownBank h (o / 0x4000) * 0x4000 + o % 0x4000) := by
  have hpos : 1 ≤ romBankOf o := by
    show 1 ≤ o / 0x4000
    omega
  by_cases halias : family h = .mbc1 ∧ 32 < romBanks h ∧ o / 0x4000 % 32 = 0
  · obtain ⟨hfam, hmany, hbank⟩ := halias
    have hnext : (o / 0x4000 + 1) * 0x4000 + o % 0x4000 = o + 0x4000 := by omega
    rw [shownBank, if_pos ⟨hfam, hmany, hbank⟩, hnext]
    exact if_pos ⟨hfam, hmany, hpos, hbank⟩
  · rw [shownBank, if_neg halias, Nat.div_add_mod']
    exact if_neg fun ⟨hfam, hmany, _, hbank⟩ => halias ⟨hfam, hmany, hbank⟩

/-- What the reference cartridge is while the stream stands at offset o: it fits its header, holds the ROM of c, and
shows the bank of the byte before. -/
structure StreamedTo (c : RefCart) (h : Header) (o : Nat) (d : RefCart) : Prop where
  fits : CartFits d h
  rom  : d.rom = c.rom
  bank : 0x4000 < o → d.romBank % romBanks h = shownBank h ((o - 1) / 0x4000)

theorem romByte_eq_of_rom {c d : RefCart} (hrom : d.rom = c.rom) (o : Nat) : d.romByte o = c.romByte o := by
  rw [RefCart.romByte, hrom]
  rfl

/-- The switchable window shows the bank the registers stand for (95_test_vectors.md section 2). -/
theorem RefCart.load_of_switchedWindow (c : RefCart) {a : Addr} (hlow : 0x4000 ≤ a.toNat) (hhigh : a.toNat ≤ 0x7FFF) :
    c.load a = c.romByte ((c.romBank * 0x4000 + (a.toNat - 0x4000)) % c.romSize) :=
  (if_neg (by omega)).trans (if_pos hhigh)

/-- An offset into whole banks, cut to an image of whole banks. -/
theorem bankOffset_mod (bank banks : Nat) {i : Nat} (hi : i < 0x4000) :
    (bank * 0x4000 + i) % (banks * 0x4000) = bank % banks * 0x4000 + i := by
  rw [Nat.mul_comm banks, Nat.mod_mul, (by omega : (bank * 0x4000 + i) % 0x4000 = i),
    (by omega : (bank * 0x4000 + i) / 0x4000 = bank), Nat.add_comm, Nat.mul_comm]

section
variable {c d : RefCart} {h : Header} {o : Nat} (hwf : h.wf) (hfits : CartFits d h) (hrom : d.rom = c.rom)
  (ho : o < h.romSize.toNat)
include hwf hfits hrom ho

/-- A byte of the stream, where the window shows its bank. -/
theorem load_romBusAddr (hbank : 0x4000 ≤ o → d.romBank % romBanks h = shownBank h (o / 0x4000)) :
    d.load (romBusAddr o) = streamByte c h o := by
  rw [romBusAddr_eq]
  by_cases hlow : o < 0x4000
  · have haddr : (BitVec.ofNat 16 o).toNat = o := Nat.mod_eq_of_lt (by omega)
    rw [if_pos hlow, d.load_of_fixedWindow (by omega), haddr, hfits.romSize, Nat.mod_eq_of_lt ho,
      romByte_eq_of_rom hrom, streamByte_low c h hlow]
  · have haddr : (BitVec.ofNat 16 (0x4000 + o % 0x4000)).toNat = 0x4000 + o % 0x4000 := Nat.mod_eq_of_lt (by omega)
    rw [if_neg hlow, d.load_of_switchedWindow (by omega) (by omega), haddr, Nat.add_sub_cancel_left, hfits.romSize,
      ← romBanks_mul hwf, bankOffset_mod _ _ (Nat.mod_lt o (by decide)), hbank (by omega), romByte_eq_of_rom hrom,
      streamByte_high c h (by omega)]

end

theorem romReadOps_zero_succ (h : Header) (k : Nat) :
    romReadOps h 0 (k + 1) = romReadOps h 0 k ++ romByteOps h k := by
  simp [romReadOps, List.range_succ]

section
variable {c : RefCart} {h : Header} (hwf : h.wf) (hmax : romBanks h ≤ params.famMaxRomBanks (family h))
include hwf hmax

/-- What ROM_READ issues before it reads the byte at offset o makes the window show that byte's bank. -/
theorem play_select_reference {s : State} {d : RefCart} {o : Nat} (hbus : s.bus = .reference d)
    (hd : StreamedTo c h o d) (ho : o < h.romSize.toNat) :
    ∃ t d', play (if selectsAt o then seqOps (romSelectWrites (family h) (o / 0x4000) (romBanks h)) else []) s =
        .ok [] t ∧ t.bus = .reference d' ∧ CartFits d' h ∧ d'.rom = c.rom ∧
      (0x4000 ≤ o → d'.romBank % romBanks h = shownBank h (o / 0x4000)) := by
  by_cases hsel : selectsAt o
  · rw [if_pos hsel]
    have hbanks := romBanks_mul hwf
    obtain ⟨t, n, hplay, ht⟩ := play_seqOps_reference hbus hd.fits.failures
    exact ⟨t, _, hplay, ht, (hd.fits.storeAll _).countBy n, (d.storeAll_rom _).trans hd.rom,
      fun _ => romBank_select hwf hd.fits.family (by omega) (by omega) hmax⟩
  · rw [if_neg hsel]
    refine ⟨s, d, rfl, hbus, hd.fits, hd.rom, fun hhigh => ?_⟩
    have hinside : ¬o % 0x4000 = 0 := fun hboundary => hsel ⟨hhigh, hboundary⟩
    rw [hd.bank (by omega), (by omega : (o - 1) / 0x4000 = o / 0x4000)]

/-- One byte of the stream. -/
theorem play_romByteOps_reference {s : State} {d : RefCart} {o : Nat} (hbus : s.bus = .reference d)
    (hd : StreamedTo c h o d) (ho : o < h.romSize.toNat) :
    ∃ t d', play (romByteOps h o) s = .ok [streamByte c h o] t ∧ t.bus = .reference d' ∧ StreamedTo c h (o + 1) d' := by
  obtain ⟨u, d', hsel, hu, hfits, hrom, hbank⟩ := play_select_reference hwf hmax hbus hd ho
  obtain ⟨t, hread, ht⟩ := memRead_reference hu hfits.failures (romBusAddr o)
  rw [load_romBusAddr hwf hfits hrom ho hbank, romBusAddr_eq] at hread
  exact ⟨t, _, play_append_ok.mpr ⟨[], u, _, hsel, play_readOps.mpr ⟨_, hread, rfl⟩, rfl⟩, ht, hfits.countBy 1, hrom,
    fun hhigh => hbank (by omega)⟩

/-- The first k bytes of the stream. -/
theorem play_romReadOps_reference {s : State} (hbus : s.bus = .reference c) (hfits : CartFits c h) {k : Nat}
    (hk : k ≤ h.romSize.toNat) :
    ∃ t d, play (romReadOps h 0 k) s = .ok ((List.range k).map (streamByte c h)) t ∧ t.bus = .reference d ∧
      StreamedTo c h k d := by
  induction k with
  | zero => exact ⟨s, c, rfl, hbus, hfits, rfl, fun hhigh => absurd hhigh (by decide)⟩
  | succ k ih =>
    obtain ⟨u, d, hfirst, hu, hd⟩ := ih (by omega)
    obtain ⟨t, d', hlast, ht, hd'⟩ := play_romByteOps_reference hwf hmax hu hd (by omega)
    refine ⟨t, d', ?_, ht, hd'⟩
    rw [romReadOps_zero_succ, List.range_succ, List.map_append]
    exact play_append_ok.mpr ⟨_, u, _, hfirst, hlast, rfl⟩

end

/-- Within the family's maximum every bank of the image can be selected (41_driver.md R182). -/
theorem bank_lt_limRom {h : Header} (hwf : h.wf) (hmax : romBanks h ≤ params.famMaxRomBanks (family h)) {o : Nat}
    (ho : o < h.romSize.toNat) : o / 0x4000 < limRom h := by
  have hbanks := romBanks_mul hwf
  rw [limRom, Nat.min_eq_right hmax]
  omega

/-- Settles O59: nothing is asked for, or the image is empty, or the bus sequence of the bytes is played to its end and
reads the stream. -/
theorem freshStreamDeliversTheRomImage : Obligations.FreshStreamDeliversTheRomImage := by
  intro s h c cap hinv hphase hhdr hbus hfits hfresh hmax
  have hwf := (hinv.session h hhdr).header
  have hcursor : s.rd.cursor.toNat = 0 := by rw [hfresh]; rfl
  by_cases hcap : cap = 0
  · subst hcap
    exact ⟨_, exec_romRead_zero hphase hhdr, ⟨_, rfl, rfl⟩, by simp⟩
  by_cases hempty : s.rd.cursor.toNat = h.romSize.toNat
  · refine ⟨_, exec_romRead_at_end hphase hhdr hcap hempty, ⟨_, rfl, rfl⟩, ?_⟩
    rw [← hempty, hcursor, Nat.min_zero]
    exact (List.append_nil _).symm
  obtain ⟨k, hk⟩ : ∃ k, k = min cap.toNat h.romSize.toNat := ⟨_, rfl⟩
  obtain ⟨t, _, hplay, -⟩ := play_romReadOps_reference hwf hmax hbus hfits (k := k) (by omega)
  have hdone := (exec_romRead_of_play hphase hhdr hinv (fun j hj _ => bank_lt_limRom hwf hmax (by omega))
    (hcursor.symm ▸ hplay) hcap hempty (by omega)).2
  refine ⟨_, hdone, ⟨_, rfl, rfl⟩, ?_⟩
  rw [← hk, respond_out, State.out, State.out, readState, List.reverse_append, List.reverse_reverse]

end Sys2Proof.Machine
end

section
/-! The accessor commands (43_ram_accessor.md). Both are one procedure: a fix, the enable, a loop over the banks and
the disable (`accessOp`). Its exact outcomes are read off the bus sequence it plays; every step of it starts from the
bus part of one state and the session part of another (`withBus`), so the steps compose without naming the states
between. -/

namespace Sys2Proof.Machine

/-! ### The shape of an accessor command -/

/-- What RAM_DUMP and RAM_RESTORE do after their checks: a fix, the enable, the banks, the disable, and the reply with
the size of the image (43_ram_accessor.md R232, R237). -/
def accessOp (h : Header) (fix : Proc Unit) (bank : Nat → Proc Unit) : Proc Reply := do
  fix
  enableRamOp (family h)
  forBanks ramBankSize bank (ramBanks h) 0
  withMoved (ramImageSize h) (disableRamOp (family h))
  pure (Reply.ofValue (BitVec.ofNat 32 (ramImageSize h)))

section
variable {h : Header}

theorem ramDumpOp_eq_accessOp (hlimit : bankLimitOk h) : ramDumpOp h = accessOp h (pure ()) (dumpBank h) := by
  rw [ramDumpOp, bankLimitCheck_ok hlimit]
  rfl

theorem ramRestoreOp_eq_accessOp (hlimit : bankLimitOk h) (hsize : h.ramSize ≠ 0) :
    ramRestoreOp h = accessOp h (preWriteFix (family h)) (restoreBank h) := by
  rw [ramRestoreOp, if_neg hsize, bankLimitCheck_ok hlimit]
  rfl

variable {fix : Proc Unit} {bank : Nat → Proc Unit} {s u v w t : State}

theorem accessOp_of_ok (hfix : fix s = .ok () u) (henable : enableRamOp (family h) u = .ok () v)
    (hbanks : forBanks ramBankSize bank (ramBanks h) 0 v = .ok () w) (hdisable : disableRamOp (family h) w = .ok () t) :
    accessOp h fix bank s = .ok (Reply.ofValue (BitVec.ofNat 32 (ramImageSize h))) t :=
  (bind_of_ok hfix).trans <| (bind_of_ok henable).trans <| (bind_of_ok hbanks).trans <|
    bind_of_ok (withMoved_eq_ok.mpr hdisable)

theorem accessOp_of_bank_error {e : Raised} (hfix : fix s = .ok () u) (henable : enableRamOp (family h) u = .ok () v)
    (hbanks : forBanks ramBankSize bank (ramBanks h) 0 v = .error e t) : accessOp h fix bank s = .error e t :=
  (bind_of_ok hfix).trans <| (bind_of_ok henable).trans <| bind_of_error hbanks

end

/-! ### The steps, from the bus part of one state and the session part of another -/

section
variable {s u v : State} {bs : List Byte} {h : Header}

/-- A bus sequence leaves the events before the last reset as they were. -/
theorem play_revPast {ops : List BusOp} (hplay : play ops s = .ok bs u) : u.revPast = s.revPast := by
  rw [(busOnly_play ops).ok_frame hplay]
  rfl

variable (hpast : u.revPast = s.revPast)
include hpast

theorem play_withBus {ops : List BusOp} (hplay : play ops u = .ok bs v) :
    play ops (withBus s u) = .ok bs (withBus s v) :=
  (busOnly_play ops).ok_transfer (sameBus_withBus hpast) hplay

theorem preWriteFix_withBus {f : Family} (hplay : play (fixOps f) u = .ok bs v) :
    preWriteFix f (withBus s u) = .ok () (withBus s v) :=
  preWriteFix_ok (play_withBus hpast hplay)

theorem enableRamOp_withBus {f : Family} (hplay : play (seqOps (ramEnableWrites f 0x0A)) u = .ok bs v) :
    enableRamOp f (withBus s u) = .ok () (withBus { s with drv := { s.drv with ramEnabled := true } } v) :=
  (enableRamOp_ok (play_withBus hpast hplay)).2

theorem disableRamOp_withBus {f : Family} (hplay : play (seqOps (ramEnableWrites f 0x00)) u = .ok bs v) :
    disableRamOp f (withBus s u) = .ok () (withBus { s with drv := { s.drv with ramEnabled := false } } v) :=
  (disableRamOp_ok (play_withBus hpast hplay)).2

theorem selectForAccess_withBus {b : Nat} (hlim : needSelect h = true → b < limRam h)
    (hplay : play (accessSelectOps h b) u = .ok bs v) :
    selectForAccess h b (withBus s u) = .ok () (withBus
      { s with drv := { s.drv with ramBank := if needSelect h then BitVec.ofNat 16 b else s.drv.ramBank } } v) :=
  (selectForAccess_ok hlim (play_withBus hpast hplay)).2

/-- The banks of a dump (43_ram_accessor.md R232). -/
theorem dumpBanks_withBus {n : Nat} (hlim : needSelect h = true → n ≤ limRam h)
    (hplay : play ((List.range n).flatMap (dumpBankOps h)) u = .ok bs v) :
    bs.length = n * 0x2000 ∧ forBanks ramBankSize (dumpBank h) n 0 (withBus s u) = .ok () (withBus
      { s with
        drv := { s.drv with ramBank := ramBankAfter h s.drv.ramBank n }
        revOut := bs.reverse ++ s.revOut } v) := by
  have hbanks := dumpBanks_ok (h := h) (first := 0) n (by simpa only [Nat.zero_add] using hlim)
    (by simpa only [Nat.zero_add] using play_withBus hpast hplay)
  rw [mirrorAfter_zero] at hbanks
  exact hbanks

/-- The first banks of a restore, where its input is long enough for them or only ends (43_ram_accessor.md R237). -/
theorem restoreBanks_withBus {n : Nat} (hlim : needSelect h = true → n ≤ limRam h)
    (hinput : n * 0x2000 ≤ s.input.bytes.length ∨ s.input.fails = false)
    (hplay : play ((List.range n).flatMap (restoreBankOps h s.input.bytes)) u = .ok bs v) :
    forBanks ramBankSize (restoreBank h) n 0 (withBus s u) = .ok () (withBus
      { s with
        drv := { s.drv with ramBank := ramBankAfter h s.drv.ramBank n }
        input := { s.input with bytes := s.input.bytes.drop (n * 0x2000) } } v) := by
  have hbanks := restoreBanks_ok (h := h) (input := s.input.bytes) (first := 0) (s := withBus s u) n
    (by simpa only [Nat.zero_add] using hlim) rfl
    (by simpa only [Nat.zero_add, withBus_input] using hinput)
    (by simpa only [Nat.zero_add] using play_withBus hpast hplay)
  rw [mirrorAfter_zero, Nat.zero_add] at hbanks
  exact hbanks.2

end

/-! ### The bodies, played to their ends -/

/-- The session part of the state after the first n banks of a dump that has read the bytes bs (43_ram_accessor.md
R232). -/
def afterDump (h : Header) (s : State) (n : Nat) (bs : List Byte) (ramEnabled : Bool) : State :=
  { s with
    drv := { s.drv with ramBank := ramBankAfter h s.drv.ramBank n, ramEnabled := ramEnabled }
    revOut := bs.reverse ++ s.revOut }

/-- The session part of the state after the first n banks of a restore (43_ram_accessor.md R236, R237). -/
def afterRestore (h : Header) (s : State) (n : Nat) (ramEnabled : Bool) : State :=
  { s with
    drv := { s.drv with ramBank := ramBankAfter h s.drv.ramBank n, ramEnabled := ramEnabled }
    input := { s.input with bytes := s.input.bytes.drop (n * 0x2000) } }

section
variable {s t : State} {h : Header} {bs : List Byte} (hlimit : bankLimitOk h)
include hlimit

theorem le_limRam : needSelect h = true → ramBanks h ≤ limRam h := by
  simpa only [Nat.zero_add] using ramBanks_le_limRam hlimit

/-- RAM_DUMP's body (43_ram_accessor.md R232). -/
theorem ramDumpOp_of_play (hplay : play (dumpOps h) s = .ok bs t) :
    bs.length = ramBanks h * 0x2000 ∧
    ramDumpOp h s =
      .ok (Reply.ofValue (BitVec.ofNat 32 (ramImageSize h))) (withBus (afterDump h s (ramBanks h) bs false) t) := by
  obtain ⟨_, v, _, hfirst, hlast, rfl⟩ := play_append_ok.mp hplay
  obtain ⟨_, u, bs, hopen, hbanks, rfl⟩ := play_append_ok.mp hfirst
  obtain rfl := (play_seqOps_ok hopen).1
  obtain rfl := (play_seqOps_ok hlast).1
  obtain ⟨hlen, hloop⟩ := dumpBanks_withBus (s := { s with drv := { s.drv with ramEnabled := true } })
    (play_revPast hopen :) (le_limRam hlimit) hbanks
  have hclose := disableRamOp_withBus (s := afterDump h s (ramBanks h) bs true) (play_revPast hfirst :) hlast
  rw [List.nil_append, List.append_nil, ramDumpOp_eq_accessOp hlimit]
  exact ⟨hlen, accessOp_of_ok rfl (enableRamOp_withBus rfl hopen) hloop hclose⟩

variable {n : Nat} (hn : n ≤ ramBanks h) (hinput : n * 0x2000 ≤ s.input.bytes.length ∨ s.input.fails = false)
  (hplay : play (restorePrefixOps h s.input.bytes n) s = .ok bs t)
include hn hinput hplay

/-- RAM_RESTORE through its first n banks: the fix, the enable and the loop (43_ram_accessor.md R237). -/
theorem restoreBanks_of_play : ∃ u v, preWriteFix (family h) s = .ok () u ∧ enableRamOp (family h) u = .ok () v ∧
    forBanks ramBankSize (restoreBank h) n 0 v = .ok () (withBus (afterRestore h s n true) t) := by
  obtain ⟨_, v, _, hfirst, hbanks, rfl⟩ := play_append_ok.mp hplay
  obtain ⟨_, u, _, hfix, hopen, rfl⟩ := play_append_ok.mp hfirst
  exact ⟨withBus s u, _, preWriteFix_withBus rfl hfix, enableRamOp_withBus (play_revPast hfix) hopen,
    restoreBanks_withBus (s := { s with drv := { s.drv with ramEnabled := true } }) (play_revPast hfirst :)
      (fun hneed => hn.trans (le_limRam hlimit hneed)) hinput hbanks⟩

end

/-! ### The commands in a session -/

section
variable {s t : State} {h : Header} (hphase : s.phase = .ready) (hhdr : s.hdr = some h)
include hphase hhdr

theorem commandProc_ramDump : commandProc .ramDump s = ramDumpOp h s := inSession_ready hphase hhdr _

theorem commandProc_ramRestore : commandProc .ramRestore s = ramRestoreOp h s := inSession_ready hphase hhdr _

/-- RAM_RESTORE of a cartridge with no RAM (43_ram_accessor.md R235). -/
theorem exec_ramRestore_of_no_ram (hsize : h.ramSize = 0) :
    exec .ramRestore s = .next (s.respond (resultOf .ok 0)) := by
  refine exec_of_ok (r := Reply.nothing) ((commandProc_ramRestore hphase hhdr).trans ?_)
  rw [ramRestoreOp, if_pos hsize]
  rfl

/-- Beyond the family's limit both accessors are refused before they do anything (43_ram_accessor.md R231). -/
theorem exec_accessor_refused {i : Instr} (hi : i = .ramDump ∨ i = .ramRestore) (hneed : needSelect h = true)
    (hmany : params.famMaxRamBanks (family h) < ramBanks h) :
    exec i s = .next (s.respond (resultOf .unsupportedOperation 0)) := by
  have hrefused : bankLimitCheck h s = .error ⟨.unsupportedOperation, 0⟩ s := by
    rw [bankLimitCheck_refused hneed hmany, raise_apply]
  have hsize : h.ramSize ≠ 0 := by
    intro hzero
    simp [ramBanks, hzero] at hmany
  refine exec_of_refused rfl ?_
  rcases hi with rfl | rfl
  · rw [commandProc_ramDump hphase hhdr]
    exact bind_of_error hrefused
  · rw [commandProc_ramRestore hphase hhdr, ramRestoreOp, if_neg hsize]
    exact bind_of_error hrefused

end

/-- Taking a FileIoError: phase Faulted, S.fault and the result record (60_exceptions.md R273). -/
theorem takeError_fileIoError (k : Nat) (t : State) :
    takeError ⟨.fileIoError, k⟩ t = (faultedWith .fileIoError t).respond (resultOf .fileIoError k) := rfl

/-- TakeInput where the source fails before its chunk is full (43_ram_accessor.md R236). -/
theorem takeInput_of_failing {k : Nat} {s : State} (hfails : s.input.fails = true)
    (hshort : s.input.bytes.length < k) : takeInput k s = .error ⟨.fileIoError, 0⟩ s := by
  simp only [takeInput, if_neg (Nat.not_le.mpr hshort), hfails, if_true, raise_apply]

/-- A bank of a restore that finds no chunk after its select (43_ram_accessor.md R237). -/
theorem restoreBank_of_failing {h : Header} {b : Nat} {s u : State} (hselect : selectForAccess h b s = .ok () u)
    (hfails : u.input.fails = true) (hshort : u.input.bytes.length < ramBankSize) :
    restoreBank h b s = .error ⟨.fileIoError, 0⟩ u :=
  (bind_of_ok hselect).trans (bind_of_error (takeInput_of_failing hfails hshort))

/-- A loop over banks goes on where its first turns have left it. -/
theorem forBanks_add_of_ok {size : Nat} {body : Nat → Proc Unit} {m : Nat} (n : Nat) : ∀ {first : Nat} {s t : State},
    forBanks size body m first s = .ok () t →
    forBanks size body (m + n) first s = forBanks size body n (first + m) t := by
  induction m with
  | zero =>
    intro first s t hrun
    cases hrun
    rw [Nat.zero_add, Nat.add_zero]
  | succ m ih =>
    intro first s t hrun
    obtain ⟨_, u, hturn, hrest⟩ := bind_eq_ok.mp hrun
    have hgo : forBanks size body (m + 1 + n) first s = forBanks size body (m + n) (first + 1) u := by
      rw [Nat.add_right_comm]
      exact bind_of_ok hturn
    rw [hgo, ih hrest, Nat.add_assoc, Nat.add_comm 1]

/-- A loop over banks whose first turns return, and whose next turn fails before it has moved a byte. -/
theorem forBanks_of_error {size m n : Nat} {body : Nat → Proc Unit} {s u t : State} {e : Status} (hn : m < n)
    (hrun : forBanks size body m 0 s = .ok () u) (herror : body m u = .error ⟨e, 0⟩ t) :
    forBanks size body n 0 s = .error ⟨e, m * size⟩ t := by
  obtain ⟨k, rfl⟩ : ∃ k, n = m + (k + 1) := ⟨n - m - 1, by omega⟩
  rw [forBanks_add_of_ok (k + 1) hrun, Nat.zero_add]
  exact bind_of_error (withMoved_eq_error.mpr ⟨_, herror, rfl⟩)

/-- The mirror after a select that follows n banks. -/
theorem ramBankAfter_succ (h : Header) (b : Bank) (n : Nat) :
    (if needSelect h then BitVec.ofNat 16 n else ramBankAfter h b n) = ramBankAfter h b (n + 1) := by
  unfold ramBankAfter
  by_cases hneed : needSelect h = true <;> simp [hneed]

/-- Settles O39. -/
theorem zeroRamRestoreDoesNothing : Obligations.ZeroRamRestoreDoesNothing :=
  fun _ _ hphase hhdr hsize => exec_ramRestore_of_no_ram hphase hhdr hsize

/-- Settles O35: the command is its body, and the state its bus sequence leaves differs from s in the bus part alone. -/
theorem ramDumpEmitsTheRamImage : Obligations.RamDumpEmitsTheRamImage := by
  refine ⟨encode_eq_wordOf _, fun s h hphase hhdr hlimit bs t hplay => ?_⟩
  obtain ⟨hlen, hrun⟩ := ramDumpOp_of_play hlimit hplay
  refine ⟨hlen, (exec_of_ok ((commandProc_ramDump hphase hhdr).trans hrun)).trans ?_⟩
  rw [(busOnly_play _).ok_frame hplay]
  rfl

/-- Settles O36: as O35, and the input is read by the banks. -/
theorem ramRestoreWritesThePaddedInput : Obligations.RamRestoreWritesThePaddedInput := by
  refine ⟨encode_eq_wordOf _, fun s h hphase hhdr hsize hlimit hinput bs t hplay => ?_⟩
  obtain ⟨_, v, _, hfirst, hlast, _⟩ := play_append_ok.mp hplay
  obtain ⟨_, _, hfix, henable, hbanks⟩ := restoreBanks_of_play hlimit le_rfl hinput hfirst
  have hclose := disableRamOp_withBus (s := afterRestore h s (ramBanks h) true) (play_revPast hfirst :) hlast
  have hrun := accessOp_of_ok hfix henable hbanks hclose
  rw [← ramRestoreOp_eq_accessOp hlimit hsize, ← commandProc_ramRestore hphase hhdr] at hrun
  refine (exec_of_ok hrun).trans ?_
  rw [(busOnly_play _).ok_frame hplay]
  rfl

/-- Settles O38: the loop returns through the q whole banks, and the next bank selects and finds no chunk. -/
theorem ramRestoreFailsWhereItsInputFails : Obligations.RamRestoreFailsWhereItsInputFails := by
  intro s h q hphase hhdr hlimit hfails hshort hq bs t hplay
  have hbank : q < ramBanks h := by omega
  have hsize : h.ramSize ≠ 0 := by
    intro hzero
    simp [ramBanks, hzero] at hshort
  obtain ⟨_, v, _, hfirst, hlast, _⟩ := play_append_ok.mp hplay
  obtain ⟨_, _, hfix, henable, hbanks⟩ := restoreBanks_of_play hlimit hbank.le (.inl (by omega)) hfirst
  have hselect := selectForAccess_withBus (s := afterRestore h s q true) (play_revPast hfirst :)
    (fun hneed => hbank.trans_le (le_limRam hlimit hneed)) hlast
  have hrest : (s.input.bytes.drop (q * 0x2000)).length < ramBankSize := by
    rw [List.length_drop, ramBankSize]
    omega
  have hfailing := forBanks_of_error hbank hbanks (restoreBank_of_failing hselect hfails hrest)
  have hrun := accessOp_of_bank_error hfix henable hfailing
  rw [← ramRestoreOp_eq_accessOp hlimit hsize, ← commandProc_ramRestore hphase hhdr] at hrun
  rw [exec_of_error hrun, takeError_fileIoError, ← ramBankAfter_succ, (busOnly_play _).ok_frame hplay]
  rfl

end Sys2Proof.Machine
end

section
/-! What an accessor command moves, whatever ends it (43_ram_accessor.md R232, R236, R237, R240; 30_encoding.md R104).
Every procedure inside one counts the bytes it moves and raises a fatal error alone (`Counts`); so the command ends in
one of five ways (`AccessEnd`), and its value, its status, ram_enabled and the writes to the RAM enable register are
read off them. -/

namespace Sys2Proof.Machine

variable {α β : Type}

/-! ### Bytes moved -/

/-- Between s and t accessor command i has moved k bytes: RAM_DUMP into S.out, and RAM_RESTORE by data writes to the RAM
window that succeeded (30_encoding.md R104). -/
structure Moved (i : Instr) (k : Nat) (s t : State) : Prop where
  out  : i = .ramDump → ∃ bs, t.revOut = bs ++ s.revOut ∧ bs.length = k
  data : i = .ramRestore → ∃ evs, t.revTrace = evs ++ s.revTrace ∧ evs.countP isRamWriteOk = k

/-- An event that writes no RAM enable register. -/
def SparesEnable (e : BusEvent) : Prop := ∀ v r, e ≠ .write 0x0000 v r

/-- What a part of accessor command i between its enable and its disable may do: move k bytes, and leave the RAM enable
register and ram_enabled alone. -/
structure Accessed (i : Instr) (k : Nat) (s t : State) : Prop extends Moved i k s t where
  spares     : ∃ evs, t.revTrace = evs ++ s.revTrace ∧ ∀ e ∈ evs, SparesEnable e
  ramEnabled : t.drv.ramEnabled = s.drv.ramEnabled

section
variable {i : Instr} {j k : Nat} {s t u : State}

theorem Moved.trans (hst : Moved i j s t) (htu : Moved i k t u) : Moved i (j + k) s u where
  out hi := by
    obtain ⟨xs, hxs, rfl⟩ := hst.out hi
    obtain ⟨ys, hys, rfl⟩ := htu.out hi
    exact ⟨ys ++ xs, by rw [hys, hxs, List.append_assoc], by rw [List.length_append, Nat.add_comm]⟩
  data hi := by
    obtain ⟨xs, hxs, rfl⟩ := hst.data hi
    obtain ⟨ys, hys, rfl⟩ := htu.data hi
    exact ⟨ys ++ xs, by rw [hys, hxs, List.append_assoc], by rw [List.countP_append, Nat.add_comm]⟩

/-- What has moved before is all there is where nothing moves after it, and the other way round. -/
theorem Moved.then_none (hst : Moved i k s t) (htu : Moved i 0 t u) : Moved i k s u := hst.trans htu

theorem Moved.after_none (hst : Moved i 0 s t) (htu : Moved i k t u) : Moved i k s u :=
  Nat.zero_add k ▸ hst.trans htu

theorem Accessed.trans (hst : Accessed i j s t) (htu : Accessed i k t u) : Accessed i (j + k) s u where
  toMoved := hst.toMoved.trans htu.toMoved
  spares := (steady_grows State.revTrace SparesEnable).trans hst.spares htu.spares
  ramEnabled := htu.ramEnabled.trans hst.ramEnabled

/-- Events none of which is a data write that succeeded move no byte. -/
theorem Moved.of_events {evs : List BusEvent} (hout : t.revOut = s.revOut) (htrace : t.revTrace = evs ++ s.revTrace)
    (hcount : evs.countP isRamWriteOk = 0) : Moved i 0 s t where
  out _ := ⟨[], hout, rfl⟩
  data _ := ⟨evs, htrace, hcount⟩

theorem Moved.of_same (hst : Moved i k s t) (hout : u.revOut = t.revOut) (htrace : u.revTrace = t.revTrace) :
    Moved i k s u where
  out hi := hout ▸ hst.out hi
  data hi := htrace ▸ hst.data hi

/-- Where S.out, the trace and ram_enabled are as they were, nothing has moved. -/
theorem Accessed.of_same (hout : t.revOut = s.revOut) (htrace : t.revTrace = s.revTrace)
    (hflag : t.drv.ramEnabled = s.drv.ramEnabled) : Accessed i 0 s t where
  toMoved := .of_events (evs := []) hout htrace rfl
  spares := ⟨[], htrace, by simp⟩
  ramEnabled := hflag

/-- One event that is neither a data write that succeeded nor a write to the RAM enable register. -/
theorem Accessed.of_event {e : BusEvent} (hout : t.revOut = s.revOut) (htrace : t.revTrace = e :: s.revTrace)
    (hflag : t.drv.ramEnabled = s.drv.ramEnabled) (hdata : isRamWriteOk e = false) (he : SparesEnable e) :
    Accessed i 0 s t where
  toMoved := .of_events (evs := [e]) hout htrace (by simp [hdata])
  spares := ⟨[e], htrace, by simpa using he⟩
  ramEnabled := hflag

theorem accessed_setAddr (s : State) (a : Addr) : Accessed i 0 s (afterSetAddr s a) :=
  .of_event rfl rfl rfl rfl fun _ _ => nofun

theorem accessed_wait (s : State) : Accessed i 0 s (s.record .wait) :=
  .of_event rfl rfl rfl rfl fun _ _ => nofun

theorem accessed_read (s : State) (a : Addr) (r : ReadAnswer) (side : BusSide) :
    Accessed i 0 s (afterRequest s (.read a r) side) :=
  .of_event rfl rfl rfl rfl fun _ _ => nofun

/-- A write to a register but the RAM enable register. -/
theorem accessed_write_register {a : Addr} (ha : isControlAddr a = true) (hne : a ≠ 0x0000) (s : State) (v : Byte)
    (r : WriteAnswer) (side : BusSide) : Accessed i 0 s (afterRequest s (.write a v r) side) := by
  have hwindow : isRamWindow a = false := by
    rw [← Bool.not_eq_true]
    intro hw
    rw [isControlAddr_of_isRamWindow hw] at ha
    cases ha
  refine .of_event rfl rfl rfl (by cases r <;> simp [isRamWriteOk, hwindow]) fun v' r' heq => ?_
  cases heq
  exact hne rfl

theorem sparesEnable_write_window {a : Addr} (ha : isRamWindow a = true) (v : Byte) (r : WriteAnswer) :
    SparesEnable (.write a v r) := by
  intro v' r' heq
  cases heq
  exact absurd ha (by decide)

/-- A data write that fails has moved no byte. -/
theorem accessed_write_failed {a : Addr} (ha : isRamWindow a = true) (s : State) (v : Byte) (side : BusSide) :
    Accessed i 0 s (afterRequest s (.write a v .err) side) :=
  .of_event rfl rfl rfl rfl (sparesEnable_write_window ha v _)

/-- A data write of RAM_RESTORE that succeeds has moved one. -/
theorem accessed_write_data {a : Addr} (ha : isRamWindow a = true) (s : State) (v : Byte) (side : BusSide) :
    Accessed .ramRestore 1 s (afterRequest s (.write a v .ok) side) where
  out := nofun
  data _ := ⟨[.write a v .ok], rfl, by simp [isRamWriteOk, ha]⟩
  spares := ⟨[.write a v .ok], rfl, by simpa using sparesEnable_write_window ha v _⟩
  ramEnabled := rfl

theorem accessed_emit (s : State) (v : Byte) : Accessed .ramDump 1 s { s with revOut := v :: s.revOut } where
  out _ := ⟨[v], rfl, rfl⟩
  data := nofun
  spares := ⟨[], rfl, by simp⟩
  ramEnabled := rfl

end

/-! ### Procedures that count the bytes they move -/

/-- The fatal statuses (60_exceptions.md R272, R273). -/
abbrev IsFatal (e : Status) : Prop := e = .busError ∨ e = .fileIoError

/-- Where the command has moved `base` bytes before, the procedure moves n more and returns, or it raises a fatal error
that counts the bytes moved so far (30_encoding.md R104). -/
structure Counts (i : Instr) (base n : Nat) (p : Proc α) : Prop where
  ok    : ∀ {s t a}, p s = .ok a t → Accessed i n s t
  error : ∀ {s t e}, p s = .error e t → IsFatal e.status ∧ ∃ k ≤ n, e.moved = base + k ∧ Accessed i k s t

section
variable {i : Instr} {base : Nat} {h : Header}

theorem counts_pure (a : α) : Counts i base 0 (pure a : Proc α) where
  ok hrun := by cases hrun; exact .of_same rfl rfl rfl
  error hrun := by cases hrun

theorem counts_modifyState {n : Nat} {f : State → State} (hf : ∀ s, Accessed i n s (f s)) :
    Counts i base n (modifyState f) where
  ok hrun := by cases hrun; exact hf _
  error hrun := by cases hrun

theorem counts_bind {m n : Nat} {p : Proc α} {f : α → Proc β} (hp : Counts i base m p)
    (hf : ∀ a, Counts i (base + m) n (f a)) : Counts i base (m + n) (p >>= f) where
  ok hrun := by
    obtain ⟨a, u, hfirst, hrest⟩ := bind_eq_ok.mp hrun
    exact (hp.ok hfirst).trans ((hf a).ok hrest)
  error hrun := by
    rcases bind_eq_error.mp hrun with hfirst | ⟨a, u, hfirst, hrest⟩
    · obtain ⟨hfatal, k, hk, hmoved, hacc⟩ := hp.error hfirst
      exact ⟨hfatal, k, by omega, hmoved, hacc⟩
    · obtain ⟨hfatal, k, hk, hmoved, hacc⟩ := (hf a).error hrest
      exact ⟨hfatal, m + k, by omega, by omega, (hp.ok hfirst).trans hacc⟩

/-- A procedure that moves nothing, and then one that does. -/
theorem counts_then {n : Nat} {p : Proc α} {f : α → Proc β} (hp : Counts i base 0 p) (hf : ∀ a, Counts i base n (f a)) :
    Counts i base n (p >>= f) :=
  Nat.zero_add n ▸ counts_bind hp hf

theorem counts_withMoved {n : Nat} {p : Proc α} (k : Nat) (hp : Counts i 0 n p) : Counts i k n (withMoved k p) where
  ok hrun := hp.ok (withMoved_eq_ok.mp hrun)
  error hrun := by
    obtain ⟨e, herror, rfl⟩ := withMoved_eq_error.mp hrun
    obtain ⟨hfatal, m, hm, hmoved, hacc⟩ := hp.error herror
    exact ⟨hfatal, m, hm, by rw [hmoved, Nat.zero_add], hacc⟩

theorem counts_forBytes {body : Nat → Proc Unit} {limit : Nat} (hb : ∀ b < limit, Counts i 0 1 (body b)) (n : Nat) :
    ∀ first moved, first + n ≤ limit → Counts i moved n (forBytes body n first moved) := by
  induction n with
  | zero => exact fun _ _ _ => counts_pure ()
  | succ n ih =>
    intro first moved hle
    have hrest := ih (first + 1) (moved + 1) (by omega)
    have hboth : Counts i moved (1 + n) (forBytes body (n + 1) first moved) :=
      counts_bind (counts_withMoved moved (hb first (by omega))) fun _ => hrest
    rwa [Nat.add_comm 1 n] at hboth

theorem counts_forBanks {body : Nat → Proc Unit} {size limit : Nat} (hb : ∀ b < limit, Counts i 0 size (body b))
    (n : Nat) : ∀ first, first + n ≤ limit → Counts i (first * size) (n * size) (forBanks size body n first) := by
  induction n with
  | zero =>
    intro first _
    rw [Nat.zero_mul]
    exact counts_pure ()
  | succ n ih =>
    intro first hle
    have hrest := ih (first + 1) (by omega)
    rw [Nat.succ_mul] at hrest
    rw [Nat.succ_mul, Nat.add_comm (n * size)]
    exact counts_bind (counts_withMoved _ (hb first (by omega))) fun _ => hrest

/-! ### The procedures of the accessors -/

theorem counts_memRead (a : Addr) : Counts i 0 0 (memRead a) where
  ok hrun := by
    rcases memRead_cases a _ with ⟨_, _, _, hm⟩ | ⟨_, _, hm⟩ <;> cases hrun.symm.trans hm
    exact (accessed_setAddr _ a).trans (accessed_read _ _ _ _)
  error hrun := by
    rcases memRead_cases a _ with ⟨_, _, _, hm⟩ | ⟨_, _, hm⟩ <;> cases hrun.symm.trans hm
    exact ⟨.inl rfl, 0, le_rfl, rfl, (accessed_setAddr _ a).trans (accessed_read _ _ _ _)⟩

theorem counts_memWrite {a : Addr} (ha : isControlAddr a = true) (hne : a ≠ 0x0000) (v : Byte) :
    Counts i 0 0 (memWrite a v) where
  ok hrun := by
    rcases memWrite_cases a v _ with ⟨_, _, hm⟩ | ⟨_, _, hm⟩ <;> cases hrun.symm.trans hm
    exact (accessed_setAddr _ a).trans (accessed_write_register ha hne _ _ _ _)
  error hrun := by
    rcases memWrite_cases a v _ with ⟨_, _, hm⟩ | ⟨_, _, hm⟩ <;> cases hrun.symm.trans hm
    exact ⟨.inl rfl, 0, le_rfl, rfl, (accessed_setAddr _ a).trans (accessed_write_register ha hne _ _ _ _)⟩

theorem counts_runSeq {seq : List (Addr × Byte)} (hseq : ∀ p ∈ seq, isControlAddr p.1 = true ∧ p.1 ≠ 0x0000) :
    Counts i 0 0 (runSeq seq) := by
  induction seq with
  | nil => exact counts_pure ()
  | cons p seq ih =>
    obtain ⟨⟨hcontrol, hne⟩, hrest⟩ := List.forall_mem_cons.mp hseq
    exact counts_then (counts_memWrite hcontrol hne p.2) fun _ => ih hrest

/-- The select of a RAM bank writes control registers, and not the RAM enable register (30_encoding.md R114). -/
theorem ramSelectWrites_registers {f : Family} {n : Nat} :
    ∀ p ∈ ramSelectWrites f n, isControlAddr p.1 = true ∧ p.1 ≠ 0x0000 := by
  cases f <;> simp [ramSelectWrites, isControlAddr]

theorem counts_selectForAccess {b : Nat} (hlim : needSelect h = true → b < limRam h) :
    Counts i 0 0 (selectForAccess h b) := by
  unfold selectForAccess
  by_cases hneed : needSelect h = true
  · rw [if_pos hneed, selectRamOp_allowed (Bool.and_eq_true_iff.mp hneed).1 (hlim hneed)]
    exact counts_then (counts_runSeq ramSelectWrites_registers) fun _ =>
      counts_modifyState fun _ => .of_same rfl rfl rfl
  · rw [if_neg hneed]
    exact counts_pure ()

theorem counts_preWriteFix (f : Family) : Counts i 0 0 (preWriteFix f) := by
  cases f with
  | mbc1 => exact counts_memWrite (by decide) (by decide) _
  | mbc2 => exact counts_then (counts_memRead _) fun _ => counts_pure ()
  | romOnly | mbc3 | mbc5 => exact counts_pure ()

theorem counts_takeInput (k : Nat) : Counts i 0 0 (takeInput k) where
  ok hrun := by
    rcases takeInput_cases k _ with ⟨_, hm⟩ | ⟨_, _, hm⟩ | ⟨_, _, hm⟩ <;> cases hrun.symm.trans hm <;>
      exact .of_same rfl rfl rfl
  error hrun := by
    rcases takeInput_cases k _ with ⟨_, hm⟩ | ⟨_, _, hm⟩ | ⟨_, _, hm⟩ <;> cases hrun.symm.trans hm
    exact ⟨.inr rfl, 0, le_rfl, rfl, .of_same rfl rfl rfl⟩

theorem counts_dumpByte (k : Nat) : Counts .ramDump 0 1 (dumpByte k) :=
  counts_then (counts_memRead _) fun v => counts_modifyState fun s => accessed_emit s v

theorem counts_restoreByte (chunk : List Byte) {k : Nat} (hk : k < ramBankSize) :
    Counts .ramRestore 0 1 (restoreByte chunk k) := by
  have hwindow := isRamWindow_ramWindowAddr hk
  have hset (s : State) :
      restoreByte chunk k s = settledWrite (restoreValue chunk k) (afterSetAddr s (ramWindowAddr k)) := rfl
  have hbefore (s : State) : Accessed .ramRestore 0 s ((afterSetAddr s (ramWindowAddr k)).record .wait) :=
    (accessed_setAddr s _).trans (accessed_wait _)
  refine ⟨fun {s t a} hrun => ?_, fun {s t e} hrun => ?_⟩ <;>
    rcases settledWrite_cases (s := afterSetAddr s (ramWindowAddr k)) rfl (restoreValue chunk k) with
      ⟨_, _, hm⟩ | ⟨_, _, hm⟩ <;> cases hrun.symm.trans ((hset s).trans hm)
  · exact (hbefore s).trans ((accessed_write_data hwindow _ _ _).trans (accessed_wait _))
  · exact ⟨.inl rfl, 0, Nat.zero_le 1, rfl, (hbefore s).trans (accessed_write_failed hwindow _ _ _)⟩

theorem counts_dumpBank {b : Nat} (hlim : needSelect h = true → b < limRam h) :
    Counts .ramDump 0 ramBankSize (dumpBank h b) :=
  counts_then (counts_selectForAccess hlim) fun _ =>
    counts_forBytes (limit := ramBankSize) (fun k _ => counts_dumpByte k) _ 0 0 (by omega)

theorem counts_restoreBank {b : Nat} (hlim : needSelect h = true → b < limRam h) :
    Counts .ramRestore 0 ramBankSize (restoreBank h b) :=
  counts_then (counts_selectForAccess hlim) fun _ => counts_then (counts_takeInput _) fun chunk =>
    counts_forBytes (limit := ramBankSize) (fun _ => counts_restoreByte chunk) _ 0 0 (by omega)

end

/-! ### The enable and the disable -/

theorem busOnly_runSeq (seq : List (Addr × Byte)) : BusOnly (runSeq seq) := by
  induction seq with
  | nil => exact busOnly_pure ()
  | cons p seq ih => exact busOnly_bind (busOnly_memWrite p.1 p.2) fun _ => ih

section
variable {h : Header} {v : Byte} {b : Bool} {s t : State}

theorem enableRamOp_eq (h : Header) : enableRamOp (family h) = setRamEnabledOp 0x0A true h := by
  simp only [enableRamOp, enableSeq_eq, setRamEnabledOp]

theorem disableRamOp_eq (h : Header) : disableRamOp (family h) = setRamEnabledOp 0x00 false h := by
  simp only [disableRamOp, disableSeq_eq, setRamEnabledOp]

/-- The events of the write of v to the RAM enable register, newest first (41_driver.md R181). -/
def switchEvents (f : Family) (v : Byte) : List BusEvent := (writeEvents (ramEnableWrites f v)).reverse

theorem switchEvents_of_ne {f : Family} (hf : f ≠ .romOnly) (v : Byte) :
    switchEvents f v = [.write 0x0000 v .ok, .setAddr 0x0000] := by
  rw [switchEvents, ramEnableWrites_of_ne hf]
  rfl

theorem switchEvents_moves_none (f : Family) (v : Byte) : (switchEvents f v).countP isRamWriteOk = 0 := by
  by_cases hf : f = .romOnly
  · subst hf
    rfl
  · rw [switchEvents_of_ne hf]
    rfl

/-- A switch that returns: its write has succeeded, and the flag is set (41_driver.md R170, R171). -/
theorem setRamEnabledOp_ok (hrun : setRamEnabledOp v b h s = .ok () t) :
    t.revTrace = switchEvents (family h) v ++ s.revTrace ∧ t.revOut = s.revOut ∧ t.drv.ramEnabled = b := by
  obtain ⟨⟨⟩, u, hseq, hflag⟩ := bind_eq_ok.mp hrun
  cases hflag
  refine ⟨(runSeq_ok_revTrace hseq :), ?_, rfl⟩
  rw [(busOnly_runSeq _).ok_frame hseq]
  rfl

/-- A switch that fails: there is a register, its one write has failed, and the flag is as it was (41_driver.md R170,
R171). -/
theorem setRamEnabledOp_error {e : Raised} (hrun : setRamEnabledOp v b h s = .error e t) :
    e = ⟨.busError, 0⟩ ∧ family h ≠ .romOnly ∧ t.revTrace = .write 0x0000 v .err :: .setAddr 0x0000 :: s.revTrace ∧
      t.revOut = s.revOut ∧ t.drv = s.drv := by
  rcases bind_eq_error.mp hrun with hseq | ⟨_, _, _, hflag⟩
  · have hframe := (busOnly_runSeq _).error_frame hseq
    have hout : t.revOut = s.revOut := by rw [hframe]; rfl
    have hdrv : t.drv = s.drv := by rw [hframe]; rfl
    have hfam : family h ≠ .romOnly := by
      intro hrom
      rw [hrom] at hseq
      cases hseq
    refine ⟨runSeq_error hseq, hfam, ?_, hout, hdrv⟩
    rw [ramEnableWrites_of_ne hfam] at hseq
    rcases bind_eq_error.mp hseq with hwrite | ⟨_, _, _, hnil⟩
    · exact memWrite_error_revTrace hwrite
    · cases hnil
  · cases hflag

theorem moved_of_switch_ok (i : Instr) (hrun : setRamEnabledOp v b h s = .ok () t) : Moved i 0 s t := by
  obtain ⟨htrace, hout, -⟩ := setRamEnabledOp_ok hrun
  exact .of_events hout htrace (switchEvents_moves_none _ _)

theorem moved_of_switch_error (i : Instr) {e : Raised} (hrun : setRamEnabledOp v b h s = .error e t) :
    Moved i 0 s t := by
  obtain ⟨-, -, htrace, hout, -⟩ := setRamEnabledOp_error hrun
  exact .of_events (evs := [.write 0x0000 v .err, .setAddr 0x0000]) hout htrace rfl

end

/-! ### The ends of an accessor command -/

/-- How an accessor command i that has passed its checks in state s may end (43_ram_accessor.md R232, R237). -/
inductive AccessEnd (i : Instr) (h : Header) (s : State) : EStateM.Result Raised State Reply → Prop
  | fixFailed {e : Raised} {t : State} (hfatal : IsFatal e.status) (hnone : e.moved = 0) (hfix : Accessed i 0 s t) :
      AccessEnd i h s (.error e t)
  | enableFailed {e : Raised} {u t : State} (hfix : Accessed i 0 s u)
      (henable : setRamEnabledOp 0x0A true h u = .error e t) : AccessEnd i h s (.error e t)
  | bankFailed {e : Raised} {u v t : State} (hfix : Accessed i 0 s u)
      (henable : setRamEnabledOp 0x0A true h u = .ok () v) (hsome : ramBanks h ≠ 0) (hfatal : IsFatal e.status)
      (hle : e.moved ≤ ramImageSize h) (hbanks : Accessed i e.moved v t) : AccessEnd i h s (.error e t)
  | disableFailed {e : Raised} {u v w t : State} (hfix : Accessed i 0 s u)
      (henable : setRamEnabledOp 0x0A true h u = .ok () v) (hbanks : Accessed i (ramImageSize h) v w)
      (hdisable : setRamEnabledOp 0x00 false h w = .error e t) :
      AccessEnd i h s (.error ⟨.busError, ramImageSize h⟩ t)
  | done {u v w t : State} (hfix : Accessed i 0 s u) (henable : setRamEnabledOp 0x0A true h u = .ok () v)
      (hbanks : Accessed i (ramImageSize h) v w) (hdisable : setRamEnabledOp 0x00 false h w = .ok () t) :
      AccessEnd i h s (.ok (Reply.ofValue (BitVec.ofNat 32 (ramImageSize h))) t)

section
variable {i : Instr} {h : Header} {fix : Proc Unit} {bank : Nat → Proc Unit}

theorem accessOp_end (hfix : Counts i 0 0 fix) (hbank : ∀ b < ramBanks h, Counts i 0 ramBankSize (bank b)) (s : State) :
    AccessEnd i h s (accessOp h fix bank s) := by
  have hbanks : Counts i 0 (ramImageSize h) (forBanks ramBankSize bank (ramBanks h) 0) := by
    have hloop := counts_forBanks hbank (ramBanks h) 0 (by omega)
    rwa [Nat.zero_mul] at hloop
  rw [accessOp, enableRamOp_eq, disableRamOp_eq]
  cases hrun : fix s with
  | error e t =>
    obtain ⟨hfatal, k, hk, hmoved, hacc⟩ := hfix.error hrun
    obtain rfl := Nat.le_zero.mp hk
    rw [bind_of_error hrun]
    exact .fixFailed hfatal hmoved hacc
  | ok _ u =>
  have hu := hfix.ok hrun
  rw [bind_of_ok hrun]
  cases henable : setRamEnabledOp 0x0A true h u with
  | error e t =>
    rw [bind_of_error henable]
    exact .enableFailed hu henable
  | ok _ v =>
  rw [bind_of_ok henable]
  cases hloop : forBanks ramBankSize bank (ramBanks h) 0 v with
  | error e t =>
    obtain ⟨hfatal, k, hk, hmoved, hacc⟩ := hbanks.error hloop
    rw [Nat.zero_add] at hmoved
    subst hmoved
    rw [bind_of_error hloop]
    refine .bankFailed hu henable (fun hnone => ?_) hfatal hk hacc
    rw [hnone] at hloop
    cases hloop
  | ok _ w =>
  have hw := hbanks.ok hloop
  rw [bind_of_ok hloop]
  cases hdisable : setRamEnabledOp 0x00 false h w with
  | error e t =>
    obtain ⟨rfl, -⟩ := setRamEnabledOp_error hdisable
    rw [bind_of_error (withMoved_eq_error.mpr ⟨_, hdisable, by rw [Nat.add_zero]⟩)]
    exact .disableFailed hu henable hw hdisable
  | ok _ t =>
    rw [bind_of_ok (withMoved_eq_ok.mpr hdisable)]
    exact .done hu henable hw hdisable

variable {s t : State}

theorem AccessEnd.of_error {e : Raised} (hend : AccessEnd i h s (.error e t)) :
    IsFatal e.status ∧ e.moved ≤ ramImageSize h ∧ Moved i e.moved s t := by
  cases hend with
  | fixFailed hfatal hnone hfix => exact ⟨hfatal, by omega, hnone ▸ hfix.toMoved⟩
  | enableFailed hfix henable =>
    obtain ⟨rfl, -⟩ := setRamEnabledOp_error henable
    exact ⟨.inl rfl, Nat.zero_le _, hfix.toMoved.trans (moved_of_switch_error i henable)⟩
  | bankFailed hfix henable _ hfatal hle hbanks =>
    exact ⟨hfatal, hle, (hfix.toMoved.then_none (moved_of_switch_ok i henable)).after_none hbanks.toMoved⟩
  | disableFailed hfix henable hbanks hdisable =>
    exact ⟨.inl rfl, le_rfl,
      ((hfix.toMoved.then_none (moved_of_switch_ok i henable)).after_none hbanks.toMoved).then_none
        (moved_of_switch_error i hdisable)⟩

theorem AccessEnd.of_ok {r : Reply} (hend : AccessEnd i h s (.ok r t)) :
    r = Reply.ofValue (BitVec.ofNat 32 (ramImageSize h)) ∧ t.drv.ramEnabled = false ∧
      Moved i (ramImageSize h) s t := by
  cases hend with
  | done hfix henable hbanks hdisable =>
    obtain ⟨-, -, hflag⟩ := setRamEnabledOp_ok hdisable
    exact ⟨rfl, hflag,
      ((hfix.toMoved.then_none (moved_of_switch_ok i henable)).after_none hbanks.toMoved).then_none
        (moved_of_switch_ok i hdisable)⟩

end

/-! ### The RAM enable register where an accessor fails -/

/-- What the events of an accessor that has failed after k bytes say of ram_enabled, `before` it and `after` it, and of
its disable write (43_ram_accessor.md R240, 70_reset_and_hazards.md R311). -/
structure EnableAccount (h : Header) (k : Nat) (before after : Bool) (evs : List BusEvent) : Prop where
  enabled : .write 0x0000 0x0A .ok ∈ evs → after = true
  kept    : .write 0x0000 0x0A .ok ∉ evs → after = before
  disable : ∀ x, .write 0x0000 0x00 x ∈ evs →
    x = .err ∧ evs.head? = some (.write 0x0000 0x00 .err) ∧ k = ramImageSize h

theorem not_mem_of_spares {evs : List BusEvent} (hspares : ∀ e ∈ evs, SparesEnable e) (v : Byte) (r : WriteAnswer) :
    .write 0x0000 v r ∉ evs := fun hmem => hspares _ hmem v r rfl

theorem AccessEnd.enableAccount {i : Instr} {h : Header} {s t : State} {e : Raised}
    (hfam : family h = .romOnly → ramBanks h = 0) (hend : AccessEnd i h s (.error e t)) :
    ∃ evs, t.revTrace = evs ++ s.revTrace ∧ EnableAccount h e.moved s.drv.ramEnabled t.drv.ramEnabled evs := by
  cases hend with
  | fixFailed _ _ hfix =>
    obtain ⟨evs, htrace, hspares⟩ := hfix.spares
    have hnot := not_mem_of_spares hspares
    exact ⟨evs, htrace, fun hmem => absurd hmem (hnot _ _), fun _ => hfix.ramEnabled,
      fun x hmem => absurd hmem (hnot _ _)⟩
  | enableFailed hfix henable =>
    obtain ⟨evs, htrace, hspares⟩ := hfix.spares
    have hnot := not_mem_of_spares hspares
    obtain ⟨-, -, hswitch, -, hdrv⟩ := setRamEnabledOp_error henable
    refine ⟨.write 0x0000 0x0A .err :: .setAddr 0x0000 :: evs, by rw [hswitch, htrace]; rfl, fun hmem => ?_,
      fun _ => by rw [hdrv, hfix.ramEnabled], fun x hmem => ?_⟩
    · simp only [List.mem_cons, hnot] at hmem
      simp at hmem
    · simp only [List.mem_cons, hnot] at hmem
      simp at hmem
  | bankFailed hfix henable hsome _ _ hbanks =>
    obtain ⟨evs, htrace, hspares⟩ := hfix.spares
    obtain ⟨evs', htrace', hspares'⟩ := hbanks.spares
    have hnot := not_mem_of_spares hspares
    have hnot' := not_mem_of_spares hspares'
    obtain ⟨hswitch, -, hflag⟩ := setRamEnabledOp_ok henable
    rw [switchEvents_of_ne fun hrom => hsome (hfam hrom)] at hswitch
    refine ⟨evs' ++ .write 0x0000 0x0A .ok :: .setAddr 0x0000 :: evs, by simp [htrace', hswitch, htrace],
      fun _ => hbanks.ramEnabled.trans hflag, fun hmem => absurd (by simp) hmem, fun x hmem => ?_⟩
    simp only [List.mem_append, List.mem_cons, hnot, hnot'] at hmem
    simp at hmem
  | disableFailed hfix henable hbanks hdisable =>
    obtain ⟨evs, htrace, hspares⟩ := hfix.spares
    obtain ⟨evs', htrace', hspares'⟩ := hbanks.spares
    have hnot := not_mem_of_spares hspares
    have hnot' := not_mem_of_spares hspares'
    obtain ⟨hswitch, -, hflag⟩ := setRamEnabledOp_ok henable
    obtain ⟨-, hfam, hlast, -, hdrv⟩ := setRamEnabledOp_error hdisable
    rw [switchEvents_of_ne hfam] at hswitch
    refine ⟨.write 0x0000 0x00 .err :: .setAddr 0x0000 :: (evs' ++ .write 0x0000 0x0A .ok :: .setAddr 0x0000 :: evs),
      by simp [hlast, htrace', hswitch, htrace], fun _ => by rw [hdrv, hbanks.ramEnabled, hflag],
      fun hmem => absurd (by simp) hmem, fun x hmem => ?_⟩
    simp only [List.mem_append, List.mem_cons, hnot, hnot', BusEvent.write.injEq, true_and] at hmem
    have herr : x = .err := by simpa using hmem
    exact ⟨herr, rfl, rfl⟩

section
variable {h : Header}

/-- An image is no longer than the header says, and so its size fits a result's value (43_ram_accessor.md R230). -/
theorem ramImageSize_le (h : Header) : ramImageSize h ≤ h.ramSize.toNat := Nat.div_mul_le_self _ _

theorem value_toNat {k : Nat} (hk : k ≤ ramImageSize h) : (BitVec.ofNat 32 k).toNat = k := by
  have hsize := ramImageSize_le h
  have hmax := h.ramSize.isLt
  rw [BitVec.toNat_ofNat]
  omega

end

/-! ### The commands -/

/-- The accessor commands. -/
abbrev IsAccessor (i : Instr) : Prop := i = .ramDump ∨ i = .ramRestore

section
variable {i : Instr} {s t : State} {h : Header} (hi : IsAccessor i) (hphase : s.phase = .ready) (hhdr : s.hdr = some h)
include hi hphase hhdr

/-- Within the bank limit, and but for the restore of a cartridge with no RAM, an accessor runs to one of its ends. -/
theorem accessor_end (hlimit : bankLimitOk h) (hsize : i = .ramRestore → h.ramSize ≠ 0) :
    AccessEnd i h s (commandProc i s) := by
  have hbelow {b : Nat} (hb : b < ramBanks h) (hneed : needSelect h = true) : b < limRam h :=
    hb.trans_le (le_limRam hlimit hneed)
  rcases hi with rfl | rfl
  · rw [commandProc_ramDump hphase hhdr, ramDumpOp_eq_accessOp hlimit]
    exact accessOp_end (counts_pure ()) (fun b hb => counts_dumpBank (hbelow hb)) s
  · rw [commandProc_ramRestore hphase hhdr, ramRestoreOp_eq_accessOp hlimit (hsize rfl)]
    exact accessOp_end (counts_preWriteFix _) (fun b hb => counts_restoreBank (hbelow hb)) s

/-- What an accessor can do in a session: be refused beyond the bank limit, do nothing for want of RAM, or run to one of
its ends (43_ram_accessor.md R231, R235). -/
theorem exec_accessor_cases (hexec : exec i s = .next t) :
    (¬ bankLimitOk h ∧ t = s.respond (resultOf .unsupportedOperation 0)) ∨
    (i = .ramRestore ∧ h.ramSize = 0 ∧ t = s.respond (resultOf .ok 0)) ∨
    (∃ r u, AccessEnd i h s (.ok r u) ∧ t = u.respond (okResult r)) ∨
    (∃ e u, AccessEnd i h s (.error e u) ∧ t = takeError e u) := by
  by_cases hnone : i = .ramRestore ∧ h.ramSize = 0
  · obtain ⟨rfl, hsize⟩ := hnone
    cases hexec.symm.trans (exec_ramRestore_of_no_ram hphase hhdr hsize)
    exact .inr (.inl ⟨rfl, hsize, rfl⟩)
  by_cases hlimit : bankLimitOk h
  · have hend := accessor_end hi hphase hhdr hlimit fun hrestore hsize => hnone ⟨hrestore, hsize⟩
    cases hrun : commandProc i s with
    | ok r u =>
      cases hexec.symm.trans (exec_of_ok hrun)
      exact .inr (.inr (.inl ⟨r, u, hrun ▸ hend, rfl⟩))
    | error e u =>
      cases hexec.symm.trans (exec_of_error hrun)
      exact .inr (.inr (.inr ⟨e, u, hrun ▸ hend, rfl⟩))
  · obtain ⟨hneed, hmany⟩ := Classical.not_imp.mp hlimit
    cases hexec.symm.trans (exec_accessor_refused hphase hhdr hi hneed (Nat.lt_of_not_le hmany))
    exact .inl ⟨hlimit, rfl⟩

/-- The value of an accessor in a session counts the bytes moved (30_encoding.md R104). -/
theorem exec_accessor_moved {r : Result} (hexec : exec i s = .next t) (hlast : t.lastResult = some r) :
    Moved i r.value.toNat s t := by
  rcases exec_accessor_cases hi hphase hhdr hexec with
    ⟨-, rfl⟩ | ⟨-, -, rfl⟩ | ⟨r, u, hend, rfl⟩ | ⟨e, u, hend, rfl⟩ <;> cases hlast
  · exact .of_events (evs := []) rfl rfl rfl
  · exact .of_events (evs := []) rfl rfl rfl
  · obtain ⟨rfl, -, hmoved⟩ := hend.of_ok
    rw [← value_toNat le_rfl] at hmoved
    exact hmoved.of_same rfl rfl
  · obtain ⟨-, hle, hmoved⟩ := hend.of_error
    rw [← value_toNat hle] at hmoved
    exact hmoved.of_same (takeError_revOut e u) (takeError_revTrace e u)

end

/-- So it does in every phase: outside a session an accessor is refused and moves nothing (60_exceptions.md R276,
R277). -/
theorem exec_accessor_counts {i : Instr} {s t : State} {r : Result} (hi : IsAccessor i) (hinv : s.Inv)
    (hexec : exec i s = .next t) (hlast : t.lastResult = some r) : Moved i r.value.toNat s t := by
  have hrefused : RefusedOutOfSession i s := by
    rcases hi with rfl | rfl <;> exact refusedOutOfSession (by simp) (by simp) s
  cases hphase : s.phase with
  | noSession =>
    cases hexec.symm.trans (hrefused.1 hphase)
    cases hlast
    exact .of_events (evs := []) rfl rfl rfl
  | faulted =>
    cases hexec.symm.trans (hrefused.2 hphase)
    cases hlast
    exact .of_events (evs := []) rfl rfl rfl
  | ready =>
    obtain ⟨h, hhdr⟩ := Option.ne_none_iff_exists'.mp (hinv.ready hphase).1
    exact exec_accessor_moved hi hphase hhdr hexec hlast

/-- A RomOnly header has no RAM (40_header.md R146). -/
theorem ramBanks_of_romOnly {h : Header} (hwf : h.wf) (hfam : family h = .romOnly) : ramBanks h = 0 := by
  obtain ⟨-, -, hnone, -⟩ := hwf
  have htype : h.mbcType = .romOnly := by
    revert hfam
    unfold family
    cases h.mbcType <;> simp [familyOf]
  rw [ramBanks, hnone htype]
  rfl

/-- Settles O37: the value counts the bytes moved on every end, and the fatal ends are the errors of `AccessEnd`. -/
theorem accessorsAccountForEveryByte : Obligations.AccessorsAccountForEveryByte := by
  refine fun s t r hinv hlast => ⟨fun hexec => ?_, fun hexec => ?_, fun i h hi hphase hhdr hexec hfatal => ?_⟩
  · obtain ⟨bs, hbs, hlen⟩ := (exec_accessor_counts (.inl rfl) hinv hexec hlast).out rfl
    exact ⟨bs, hbs, hlen.symm⟩
  · obtain ⟨evs, hevs, hcount⟩ := (exec_accessor_counts (.inr rfl) hinv hexec hlast).data rfl
    exact ⟨evs, hevs, hcount.symm⟩
  · have hromOnly := ramBanks_of_romOnly (hinv.session h hhdr).header
    rcases exec_accessor_cases hi hphase hhdr hexec with ⟨-, rfl⟩ | ⟨-, -, rfl⟩ | ⟨r, u, -, rfl⟩ | ⟨e, u, hend, rfl⟩ <;>
      cases hlast
    · simp [resultOf] at hfatal
    · simp [resultOf] at hfatal
    · simp [okResult] at hfatal
    · obtain ⟨-, hle, -⟩ := hend.of_error
      obtain ⟨evs, htrace, haccount⟩ := hend.enableAccount hromOnly
      refine ⟨evs, (takeError_revTrace e u).trans htrace, ?_, ?_, fun x hx => ?_⟩
      · rw [takeError_drv]
        exact haccount.enabled
      · rw [takeError_drv]
        exact haccount.kept
      · obtain ⟨herr, hhead, hmoved⟩ := haccount.disable x hx
        exact ⟨herr, hhead, (value_toNat hle).trans hmoved⟩

/-- Settles O40: beyond the limit the check is the whole command, and within it every end of an accessor is OK or
fatal. -/
theorem bankLimitCheckComesFirst : Obligations.BankLimitCheckComesFirst := by
  refine fun h => ⟨fun s hphase hhdr hneed hmany => ?_, fun hneed hlimit b hb => ?_, ?_⟩
  · exact ⟨exec_accessor_refused hphase hhdr (.inl rfl) hneed hmany,
      exec_accessor_refused hphase hhdr (.inr rfl) hneed hmany⟩
  · exact hb.trans_le (le_limRam hlimit hneed)
  · rintro hlimit i s t hi hphase hhdr hexec ⟨r, hlast, hstatus⟩
    rcases exec_accessor_cases hi hphase hhdr hexec with ⟨hnot, -⟩ | ⟨-, -, rfl⟩ | ⟨r, u, -, rfl⟩ | ⟨e, u, hend, rfl⟩
    · exact hnot hlimit
    all_goals cases hlast
    · cases hstatus
    · cases hstatus
    · obtain ⟨hbus | hfile, -⟩ := hend.of_error
      · cases hbus.symm.trans hstatus
      · cases hfile.symm.trans hstatus

/-- Settles O42: of the ends of an accessor that runs, only the one past the disable is OK. -/
theorem accessorLeavesRamDisabled : Obligations.AccessorLeavesRamDisabled := by
  rintro i s t h hphase hhdr hi hexec ⟨r, hlast, hstatus⟩
  have haccessor : IsAccessor i := hi.imp_right And.left
  rcases exec_accessor_cases haccessor hphase hhdr hexec with
    ⟨-, rfl⟩ | ⟨hrestore, hsize, -⟩ | ⟨r, u, hend, rfl⟩ | ⟨e, u, hend, rfl⟩
  · cases hlast
    cases hstatus
  · rcases hi with hdump | ⟨-, hram⟩
    · cases hdump.symm.trans hrestore
    · exact absurd hsize hram
  · obtain ⟨-, hflag, -⟩ := hend.of_ok
    exact hflag
  · cases hlast
    obtain ⟨hbus | hfile, -⟩ := hend.of_error
    · cases hbus.symm.trans hstatus
    · cases hfile.symm.trans hstatus

/-! ### The input of a restore -/

/-- The procedure takes at most k bytes from the front of S.in, and leaves it otherwise (43_ram_accessor.md R236). -/
def TakesUpTo (k : Nat) (p : Proc α) : Prop :=
  ∀ s, ∃ j ≤ k, (stateAfter p s).input = { s.input with bytes := s.input.bytes.drop j }

theorem TakesUpTo.mono {j k : Nat} {p : Proc α} (hp : TakesUpTo j p) (hjk : j ≤ k) : TakesUpTo k p := fun s => by
  obtain ⟨m, hm, hinput⟩ := hp s
  exact ⟨m, hm.trans hjk, hinput⟩

theorem takesUpTo_of_keeps {p : Proc α} (hp : Keeps (fun s t => t.input = s.input) p) : TakesUpTo 0 p :=
  fun s => ⟨0, le_rfl, hp s⟩

theorem takesUpTo_bind {j k : Nat} {p : Proc α} {f : α → Proc β} (hp : TakesUpTo j p) (hf : ∀ a, TakesUpTo k (f a)) :
    TakesUpTo (j + k) (p >>= f) := by
  intro s
  obtain ⟨m, hm, hfirst⟩ := hp s
  cases hrun : p s with
  | error e t =>
    rw [stateAfter_of_error hrun] at hfirst
    rw [stateAfter_of_error (bind_of_error hrun)]
    exact ⟨m, by omega, hfirst⟩
  | ok a t =>
    obtain ⟨n, hn, hrest⟩ := hf a t
    rw [stateAfter_of_ok hrun] at hfirst
    have hgo : stateAfter (p >>= f) s = stateAfter (f a) t := by simp only [stateAfter, bind_of_ok hrun]
    rw [hgo, hrest, hfirst]
    exact ⟨m + n, by omega, by rw [List.drop_drop]⟩

theorem takesUpTo_forBanks {size k : Nat} {body : Nat → Proc Unit} (hb : ∀ b, TakesUpTo k (body b)) (n : Nat) :
    ∀ first, TakesUpTo (n * k) (forBanks size body n first) := by
  induction n with
  | zero =>
    intro first
    rw [Nat.zero_mul]
    exact takesUpTo_of_keeps (keeps_pure (steady_same State.input) ())
  | succ n ih =>
    intro first
    rw [Nat.succ_mul, Nat.add_comm]
    refine takesUpTo_bind (fun s => ?_) fun _ => ih (first + 1)
    rw [stateAfter_withMoved]
    exact hb first s

theorem takesUpTo_takeInput (k : Nat) : TakesUpTo k (takeInput k) := by
  intro s
  rcases takeInput_cases k s with ⟨_, hrun⟩ | ⟨_, _, hrun⟩ | ⟨hshort, _, hrun⟩
  · rw [stateAfter_of_ok hrun]
    exact ⟨k, le_rfl, rfl⟩
  · rw [stateAfter_of_error hrun]
    exact ⟨0, Nat.zero_le k, rfl⟩
  · rw [stateAfter_of_ok hrun]
    exact ⟨s.input.bytes.length, hshort.le, by rw [List.drop_length]⟩

theorem sameInput_driverSteady : DriverSteady fun s t => t.input = s.input where
  toSteady := steady_same State.input
  setAddr _ _ := rfl
  request _ _ _ := rfl
  wait _ := rfl
  driver _ _ := rfl

theorem takesUpTo_restoreBank (h : Header) (b : Nat) : TakesUpTo ramBankSize (restoreBank h b) := by
  have hD := sameInput_driverSteady
  have hbytes (chunk : List Byte) : TakesUpTo 0 (forBytes (restoreByte chunk) ramBankSize 0 0) :=
    takesUpTo_of_keeps <| keeps_forBytes hD.toSteady (fun _ =>
      keeps_bind hD.toSteady (keeps_busSetAddr hD.toBusSteady _) fun _ => keeps_settledWrite hD.toBusSteady _) _ _ _
  have hbank := takesUpTo_bind (takesUpTo_of_keeps (keeps_selectForAccess hD h b)) fun _ =>
    takesUpTo_bind (takesUpTo_takeInput ramBankSize) hbytes
  rwa [Nat.zero_add] at hbank

/-- A restore takes at most the bytes of the image (43_ram_accessor.md R236). -/
theorem takesUpTo_ramRestoreOp (h : Header) : TakesUpTo (ramImageSize h) (ramRestoreOp h) := by
  have hD := sameInput_driverSteady
  unfold ramRestoreOp
  split
  · exact (takesUpTo_of_keeps (keeps_pure hD.toSteady _)).mono (Nat.zero_le _)
  · have hrun := takesUpTo_bind (takesUpTo_of_keeps (keeps_bankLimitCheck hD h)) fun _ =>
      takesUpTo_bind (takesUpTo_of_keeps (keeps_preWriteFix hD.toBusSteady (family h))) fun _ =>
        takesUpTo_bind (takesUpTo_of_keeps (keeps_enableRamOp hD (family h))) fun _ =>
          takesUpTo_bind (takesUpTo_forBanks (size := ramBankSize) (takesUpTo_restoreBank h) (ramBanks h) 0) fun _ =>
            takesUpTo_of_keeps <| keeps_then_pure hD.toSteady
              (keeps_withMoved (ramImageSize h) (keeps_disableRamOp hD (family h)))
              (Reply.ofValue (BitVec.ofNat 32 (ramImageSize h)))
    simp only [Nat.zero_add, Nat.add_zero] at hrun
    exact hrun

theorem takesUpTo_ramRestore {h : Header} {s : State} (hhdr : s.hdr = some h) : ∃ j ≤ ramImageSize h,
    (stateAfter (commandProc .ramRestore) s).input = { s.input with bytes := s.input.bytes.drop j } := by
  rcases stateAfter_inSession ramRestoreOp s with hstay | ⟨h', hh', hbody⟩
  · exact ⟨0, Nat.zero_le _, congrArg State.input hstay⟩
  · cases hhdr.symm.trans hh'
    obtain ⟨j, hj, hinput⟩ := takesUpTo_ramRestoreOp h s
    exact ⟨j, hj, (congrArg State.input hbody).trans hinput⟩

/-- The end of a command leaves S.in as its procedure left it. -/
theorem exec_input {i : Instr} {s t : State} (hexec : exec i s = .next t) :
    t.input = (stateAfter (commandProc i) s).input := by
  rw [exec_eq_runCommand] at hexec
  rcases runCommand_cases (commandProc i) s with ⟨r, u, hp, hrun⟩ | ⟨e, u, hp, hrun⟩ <;>
    cases hexec.symm.trans hrun
  · rw [stateAfter_of_ok hp, respond_input]
  · rw [stateAfter_of_error hp, takeError_input]

/-- Settles O41: the cases of `takeInput`, and the loop over the banks takes one chunk at most for each. -/
theorem takeInputGivesChunksUntilTheEnd : Obligations.TakeInputGivesChunksUntilTheEnd := by
  refine ⟨fun k s => ⟨fun hlong => takeInput_ok (.inl hlong), fun hshort hfails => takeInput_of_failing hfails hshort,
    fun hshort hends => ?_⟩, fun s t h hhdr hexec => ?_⟩
  · rw [takeInput_ok (.inr hends), List.take_of_length_le hshort.le, List.drop_of_length_le hshort.le]
  · obtain ⟨j, hj, hinput⟩ := takesUpTo_ramRestore hhdr
    exact ⟨j, hj.trans (ramImageSize_le h), (exec_input hexec).trans hinput⟩

end Sys2Proof.Machine
end

section
/-! The round trip on the reference cartridge (43_ram_accessor.md R239, 95_test_vectors.md section 2). After the enable
and a bank's select the RAM window shows that bank of the image, byte by byte; so a restore leaves the padded input in
the image, and a dump reads the image back. -/

namespace Sys2Proof.Machine

/-! ### Bus sequences between two conditions on the cartridge -/

/-- From every state whose cartridge has P the sequence is played to its end, reads the bytes bs and leaves a cartridge
that has Q. -/
def PlaysTo (P : RefCart → Prop) (ops : List BusOp) (bs : List Byte) (Q : RefCart → Prop) : Prop :=
  ∀ s, CartHas P s → ∃ t, play ops s = .ok bs t ∧ CartHas Q t

section
variable {P Q R : RefCart → Prop}

theorem playsTo_nil : PlaysTo P [] [] P := fun s hs => ⟨s, rfl, hs⟩

theorem PlaysTo.mono {ops : List BusOp} {bs : List Byte} (hops : PlaysTo P ops bs Q) (hQR : ∀ c, Q c → R c) :
    PlaysTo P ops bs R := by
  intro s hs
  obtain ⟨t, hplay, ht⟩ := hops s hs
  exact ⟨t, hplay, ht.mono hQR⟩

theorem PlaysTo.append {xs ys : List BusOp} {bs cs : List Byte} (hxs : PlaysTo P xs bs Q) (hys : PlaysTo Q ys cs R) :
    PlaysTo P (xs ++ ys) (bs ++ cs) R := by
  intro s hs
  obtain ⟨u, hfirst, hu⟩ := hxs s hs
  obtain ⟨t, hlast, ht⟩ := hys u hu
  exact ⟨t, play_append_ok.mpr ⟨bs, u, cs, hfirst, hlast, rfl⟩, ht⟩

/-- A sequence of n parts, with a condition before and after each. -/
theorem playsTo_flatMap {P : Nat → RefCart → Prop} {ops : Nat → List BusOp} {out : Nat → List Byte} {n : Nat}
    (hpart : ∀ k < n, PlaysTo (P k) (ops k) (out k) (P (k + 1))) :
    PlaysTo (P 0) ((List.range n).flatMap ops) ((List.range n).flatMap out) (P n) := by
  induction n with
  | zero => exact playsTo_nil
  | succ n ih =>
    have hlast := (ih fun k hk => hpart k (by omega)).append (hpart n (by omega))
    simpa only [List.range_succ, List.flatMap_append, List.flatMap_singleton] using hlast

theorem playsTo_seqOps {seq : List (Addr × Byte)} (hfail : ∀ c, P c → c.failures = [])
    (hstore : ∀ c n, P c → Q ((c.storeAll seq).countBy n)) : PlaysTo P (seqOps seq) [] Q := by
  rintro s ⟨c, hc, hP⟩
  obtain ⟨t, n, hplay, ht⟩ := play_seqOps_reference hc (hfail c hP)
  exact ⟨t, hplay, _, ht, hstore c n hP⟩

/-- A pass of reads, where the cartridge shows the bytes it reads. -/
theorem playsTo_passOps {addrAt : Nat → Addr} {byte : Nat → Byte} {n : Nat} (hfail : ∀ c, P c → c.failures = [])
    (hcount : ∀ c, P c → P (c.countBy n)) (hload : ∀ c, P c → ∀ k < n, c.load (addrAt k) = byte k) :
    PlaysTo P (passOps addrAt n) ((List.range n).map byte) P := by
  rintro s ⟨c, hc, hP⟩
  obtain ⟨t, hplay, ht⟩ := play_passOps_reference hc (hfail c hP) addrAt n
  rw [List.map_congr_left fun k hk => hload c hP k (List.mem_range.mp hk)] at hplay
  exact ⟨t, hplay, _, ht, hcount c hP⟩

/-- A cartridge without failures stores a settled write and counts the request. -/
theorem playsTo_settledWrite {a : Addr} {v : Byte} (hfail : ∀ c, P c → c.failures = [])
    (hstore : ∀ c, P c → Q ((c.store a v).countBy 1)) : PlaysTo P (settledWriteOps a v) [] Q := by
  rintro s ⟨c, hc, hP⟩
  have hbus : (afterSetAddr s a).bus.write (.wait :: (afterSetAddr s a).history) a v =
      (.ok, .reference ((c.store a v).countBy 1)) := by
    rw [show (afterSetAddr s a).bus = .reference c from hc]
    simp [BusSide.write, RefCart.failing, hfail c hP, RefCart.count, RefCart.countBy]
  have hrun := settledWrite_of_ok (s := afterSetAddr s a) rfl hbus
  exact ⟨_, play_settledWriteOps.mpr ⟨rfl, hrun⟩, _, rfl, hstore c hP⟩

end

/-! ### The image the cartridge holds, and the bank its window shows -/

/-- The cartridge fits the header, its RAM is canonical, and the first n bytes of its image are those of `byte`. -/
structure HoldsImage (h : Header) (byte : Nat → Byte) (n : Nat) (c : RefCart) : Prop where
  fits  : CartFits c h
  wf    : Memory.wf ramFill c.ram
  bytes : ∀ o < n, c.ramByte o = byte o

/-- And its RAM is enabled. -/
structure HoldsEnabled (h : Header) (byte : Nat → Byte) (n : Nat) (c : RefCart) : Prop extends
    HoldsImage h byte n c where
  ramg : c.ramg = true

/-- The RAM window shows bank b of the image. -/
def ShowsBank (b : Nat) (c : RefCart) : Prop :=
  ∀ k < 0x2000, c.ramVisible (ramWindowAddr k) = true ∧ c.ramOffset (ramWindowAddr k) = b * 0x2000 + k

/-- And the RAM window shows bank b. -/
structure HoldsShown (h : Header) (byte : Nat → Byte) (n b : Nat) (c : RefCart) : Prop extends
    HoldsEnabled h byte n c where
  window : ShowsBank b c

theorem RefCart.storeAll_ram_of_control {seq : List (Addr × Byte)} (hseq : ∀ p ∈ seq, isControlAddr p.1 = true)
    (c : RefCart) : (c.storeAll seq).ram = c.ram := by
  induction seq generalizing c with
  | nil => rfl
  | cons p seq ih =>
    obtain ⟨hp, hrest⟩ := List.forall_mem_cons.mp hseq
    rw [storeAll_cons, ih hrest, store_ram_of_control hp]

section
variable {h : Header} {byte : Nat → Byte} {n b : Nat} {c : RefCart}

theorem HoldsImage.countBy (hc : HoldsImage h byte n c) (m : Nat) : HoldsImage h byte n (c.countBy m) :=
  ⟨hc.fits.countBy m, hc.wf, hc.bytes⟩

theorem HoldsShown.countBy (hc : HoldsShown h byte n b c) (m : Nat) : HoldsShown h byte n b (c.countBy m) :=
  ⟨⟨hc.toHoldsImage.countBy m, hc.ramg⟩, hc.window⟩

/-- Register writes leave the image. -/
theorem HoldsImage.registers {seq : List (Addr × Byte)} (hseq : ∀ p ∈ seq, isControlAddr p.1 = true)
    (hc : HoldsImage h byte n c) : HoldsImage h byte n (c.storeAll seq) := by
  have hram := c.storeAll_ram_of_control hseq
  refine ⟨hc.fits.storeAll seq, hram ▸ hc.wf, fun o ho => ?_⟩
  rw [RefCart.ramByte, hram]
  exact hc.bytes o ho

/-- What the window shows a write to it leaves as it is. -/
theorem ShowsBank.of_control {d : RefCart} (hcontrol : d.control = c.control) (hshows : ShowsBank b c) :
    ShowsBank b d := by
  intro k hk
  rw [RefCart.ramVisible_eq_of_control hcontrol, RefCart.ramOffset_eq_of_control hcontrol]
  exact hshows k hk

/-- A write where the window shows a byte of the RAM stores it there. -/
theorem RefCart.store_ramByte_shown {a : Addr} (hw : Memory.wf ramFill c.ram) (ha : isControlAddr a = false)
    (hvisible : c.ramVisible a = true) (v : Byte) : (c.store a v).ramByte (c.ramOffset a) = v := by
  rcases c.store_cases a v with ⟨hcontrol, _⟩ | ⟨_, _, hs⟩ | ⟨_, hhidden, _⟩
  · cases ha.symm.trans hcontrol
  · rw [hs, RefCart.ramByte, Memory.read_write hw, if_pos rfl]
  · cases hvisible.symm.trans hhidden

/-- The data write of the next byte, at its place in the bank shown. -/
theorem HoldsShown.store {k : Nat} (hk : k < 0x2000) (hc : HoldsShown h byte (b * 0x2000 + k) b c) :
    HoldsShown h byte (b * 0x2000 + (k + 1)) b (c.store (ramWindowAddr k) (byte (b * 0x2000 + k))) := by
  have hdata := isControlAddr_of_isRamWindow (isRamWindow_ramWindowAddr hk)
  have hcontrol := c.control_store_of_data hdata (byte (b * 0x2000 + k))
  obtain ⟨hvisible, hoffset⟩ := hc.window k hk
  refine ⟨⟨⟨hc.fits.storeAll [(ramWindowAddr k, _)], c.store_wf _ _ hc.wf, fun o ho => ?_⟩, ?_⟩,
    hc.window.of_control hcontrol⟩
  · by_cases hlast : o = b * 0x2000 + k
    · rw [hlast, ← hoffset]
      exact c.store_ramByte_shown hc.wf hdata hvisible _
    · rw [c.store_ramByte _ _ hc.wf fun _ => hoffset ▸ hlast]
      exact hc.bytes o (by omega)
  · exact (congrArg RefCart.ramg hcontrol).trans hc.ramg

/-- A read where the window shows a byte of the RAM answers with it. -/
theorem RefCart.load_of_ramVisible {a : Addr} (ha : isRamWindow a = true) (hvisible : c.ramVisible a = true) :
    c.load a = c.ramByte (c.ramOffset a) := by
  simp only [isRamWindow, Bool.and_eq_true, decide_eq_true_eq] at ha
  rw [RefCart.load, if_neg (by omega), if_neg (by omega), if_pos hvisible]

/-- A read of the bank shown answers with the image's byte. -/
theorem HoldsShown.load (hc : HoldsShown h byte n b c) {k : Nat} (hk : k < 0x2000) (hn : b * 0x2000 + k < n) :
    c.load (ramWindowAddr k) = byte (b * 0x2000 + k) := by
  obtain ⟨hvisible, hoffset⟩ := hc.window k hk
  rw [c.load_of_ramVisible (isRamWindow_ramWindowAddr hk) hvisible, hoffset]
  exact hc.bytes _ hn

end

/-! ### What the register writes of an accessor do -/

/-- The images are whole banks (30_encoding.md R113). -/
theorem ramBanks_mul {h : Header} (hwf : h.wf) : ramBanks h * 0x2000 = h.ramSize.toNat := by
  have hwhole : ∀ size ∈ ramSizes, size / 0x2000 * 0x2000 = size := by decide
  obtain ⟨-, hsize, -⟩ := hwf
  exact hwhole _ hsize

theorem ramEnableWrites_control {f : Family} {v : Byte} : ∀ p ∈ ramEnableWrites f v, isControlAddr p.1 = true := by
  cases f <;> simp [ramEnableWrites, isControlAddr]

theorem accessSelectWrites_control {h : Header} {b : Nat} :
    ∀ p ∈ accessSelectWrites h b, isControlAddr p.1 = true := by
  unfold accessSelectWrites
  split
  · exact fun p hp => (ramSelectWrites_registers p hp).1
  · simp

theorem accessSelectOps_eq (h : Header) (b : Nat) : accessSelectOps h b = seqOps (accessSelectWrites h b) := by
  unfold accessSelectOps accessSelectWrites
  split <;> rfl

section
variable {c : RefCart}

/-- The enable write enables the RAM of a cartridge that has a register for it (10_state.md R34 to R37). -/
theorem ramg_of_enable (hfam : c.family ≠ .romOnly) : (c.storeAll (ramEnableWrites c.family 0x0A)).ramg = true := by
  rcases c with ⟨f⟩
  cases f with
  | romOnly => exact absurd rfl hfam
  | mbc1 | mbc2 | mbc3 | mbc5 => rfl

/-- A bank select leaves the RAM enabled as it was. -/
theorem ramg_of_select (n : Nat) : (c.storeAll (ramSelectWrites c.family n)).ramg = c.ramg := by
  rcases c with ⟨f⟩
  cases f <;> rfl

/-- After the select of bank n the cartridge's RAM bank is n (10_state.md R34, R36, R37). -/
theorem ramBank_of_select {n : Nat} (hbanking : hasRamBanking c.family = true)
    (hn : n < params.famMaxRamBanks c.family) : (c.storeAll (ramSelectWrites c.family n)).ramBank = n := by
  have htwo := maskedField_toNat (m := 2) (by decide) n
  have hfour := maskedField_toNat (m := 4) (by decide) n
  rcases c with ⟨f⟩
  cases f with
  | romOnly | mbc2 => cases hbanking
  | mbc1 => exact htwo.trans (Nat.mod_eq_of_lt hn)
  | mbc5 => exact hfour.trans (Nat.mod_eq_of_lt hn)
  | mbc3 =>
    have hn : n < 4 := hn
    show (BitVec.ofNat 8 (n % 4)).toNat = n
    rw [BitVec.toNat_ofNat]
    omega

/-- The RAM bank and the enable are all that decides what the window shows. -/
theorem showsBank_of_offset {b : Nat} (hramg : c.ramg = true) (hsize : 0 < c.ramSize)
    (hoffset : ∀ k < 0x2000, (c.ramBank * 0x2000 + k) % c.ramSize = b * 0x2000 + k) : ShowsBank b c := by
  intro k hk
  have hwindow := isRamWindow_ramWindowAddr hk
  have haddr : (ramWindowAddr k).toNat - ramWindowBase = k := by
    simp only [ramWindowAddr, ramWindowBase, BitVec.toNat_ofNat]
    omega
  refine ⟨by simp [RefCart.ramVisible, hwindow, hramg, hsize], ?_⟩
  rw [RefCart.ramOffset, haddr]
  exact hoffset k hk

end

section
variable {h : Header} (hwf : h.wf)
include hwf

/-- A cartridge with RAM has a family with registers (40_header.md R146). -/
theorem family_ne_romOnly (hsize : h.ramSize ≠ 0) : family h ≠ .romOnly := by
  intro hrom
  have hbanks := ramBanks_mul hwf
  rw [ramBanks_of_romOnly hwf hrom, Nat.zero_mul] at hbanks
  exact hsize (BitVec.eq_of_toNat_eq hbanks.symm)

variable {c : RefCart} {b : Nat} (hlimit : bankLimitOk h) (hone : needSelect h = true ∨ ramBanks h = 1)
include hlimit hone

/-- After an accessor's select the window shows the bank: because it is selected, or because there is only one
(43_ram_accessor.md R233). -/
theorem showsBank_of_select (hfits : CartFits c h) (hramg : c.ramg = true) (hb : b < ramBanks h) :
    (c.storeAll (accessSelectWrites h b)).ramg = true ∧ ShowsBank b (c.storeAll (accessSelectWrites h b)) := by
  have hbanks := ramBanks_mul hwf
  have himage : (c.storeAll (accessSelectWrites h b)).ramSize = ramBanks h * 0x2000 := by
    rw [(hfits.storeAll _).ramSize, hbanks]
  have hpos : 0 < (c.storeAll (accessSelectWrites h b)).ramSize := by omega
  by_cases hneed : needSelect h = true
  · have hbank : b < params.famMaxRamBanks c.family := by
      rw [hfits.family]
      exact hb.trans_le (hlimit hneed)
    have hbanking : hasRamBanking c.family = true := by
      rw [hfits.family]
      exact (Bool.and_eq_true_iff.mp hneed).1
    have hwrites : accessSelectWrites h b = ramSelectWrites c.family b := by
      rw [accessSelectWrites, if_pos hneed, hfits.family]
    rw [hwrites] at himage hpos ⊢
    have hkept := (ramg_of_select b).trans hramg
    refine ⟨hkept, showsBank_of_offset hkept hpos fun k hk => ?_⟩
    rw [ramBank_of_select hbanking hbank, himage]
    exact Nat.mod_eq_of_lt (by omega)
  · have hsingle := hone.resolve_left hneed
    have hwrites : accessSelectWrites h b = [] := by rw [accessSelectWrites, if_neg hneed]
    rw [hwrites] at himage hpos ⊢
    refine ⟨hramg, showsBank_of_offset hramg hpos fun k hk => ?_⟩
    rw [himage, hsingle]
    omega

end

/-! ### The accessors' sequences -/

theorem dumpBankOps_eq (h : Header) (b : Nat) :
    dumpBankOps h b = accessSelectOps h b ++ passOps ramWindowAddr 0x2000 := rfl

theorem restoreBankOps_eq (h : Header) (input : List Byte) (b : Nat) :
    restoreBankOps h input b = accessSelectOps h b ++ (List.range 0x2000).flatMap fun k =>
      settledWriteOps (ramWindowAddr k) (padded input (b * 0x2000 + k)) := rfl

/-- The bytes of n banks of m bytes, bank-major (20_memory.md R74). -/
theorem flatMap_range_map (byte : Nat → Byte) (n m : Nat) :
    ((List.range n).flatMap fun b => (List.range m).map fun k => byte (b * m + k)) =
      (List.range (n * m)).map byte := by
  induction n with
  | zero => simp
  | succ n ih =>
    rw [List.range_succ, List.flatMap_append, ih, List.flatMap_singleton, Nat.succ_mul, List.range_add, List.map_append,
      List.map_map]
    rfl

section
variable {h : Header} {byte : Nat → Byte} {n : Nat}

theorem playsTo_disable : PlaysTo (HoldsImage h byte n) (seqOps (ramEnableWrites (family h) 0x00)) []
    (HoldsImage h byte n) :=
  playsTo_seqOps (fun _ hc => hc.fits.failures) fun _ m hc => (hc.registers ramEnableWrites_control).countBy m

/-- The pre-write fix; what MBC2's throwaway read returns is of no account (30_encoding.md R115). -/
theorem playsTo_fix {c : RefCart} (hc : HoldsImage h byte n c) :
    ∃ bs, PlaysTo (· = c) (fixOps (family h)) bs (HoldsImage h byte n) := by
  have hfail : ∀ d, d = c → d.failures = [] := fun d hd => hd ▸ hc.fits.failures
  have hsame : PlaysTo (· = c) [] [] (HoldsImage h byte n) := playsTo_nil.mono fun d hd => hd ▸ hc
  cases family h with
  | mbc1 =>
    exact ⟨[], playsTo_seqOps (seq := [(0x6000, 0x01)]) hfail fun d m hd =>
      ((hd ▸ hc : HoldsImage h byte n d).registers (by simp [isControlAddr])).countBy m⟩
  | mbc2 =>
    refine ⟨[c.load 0x0134], fun s ⟨d, hd, hdc⟩ => ?_⟩
    obtain ⟨t, hread, ht⟩ := memRead_reference hd (hfail d hdc) 0x0134
    exact ⟨t, play_readOps.mpr ⟨_, hread, by rw [hdc]⟩, _, ht, (hdc ▸ hc).countBy 1⟩
  | romOnly | mbc3 | mbc5 => exact ⟨[], hsame⟩

variable (hwf : h.wf)
include hwf

theorem playsTo_enable (hsize : h.ramSize ≠ 0) : PlaysTo (HoldsImage h byte n)
    (seqOps (ramEnableWrites (family h) 0x0A)) [] (HoldsEnabled h byte n) := by
  refine playsTo_seqOps (fun _ hc => hc.fits.failures) fun c m hc =>
    ⟨(hc.registers ramEnableWrites_control).countBy m, ?_⟩
  have hfam := hc.fits.family
  rw [← hfam]
  exact ramg_of_enable (hfam ▸ family_ne_romOnly hwf hsize)

variable (hlimit : bankLimitOk h) (hone : needSelect h = true ∨ ramBanks h = 1)
include hlimit hone

theorem playsTo_select {b : Nat} (hb : b < ramBanks h) :
    PlaysTo (HoldsEnabled h byte n) (accessSelectOps h b) [] (HoldsShown h byte n b) := by
  rw [accessSelectOps_eq]
  refine playsTo_seqOps (fun _ hc => hc.fits.failures) fun c m hc => ?_
  obtain ⟨hramg, hshows⟩ := showsBank_of_select hwf hlimit hone hc.fits hc.ramg hb
  exact ⟨⟨(hc.registers accessSelectWrites_control).countBy m, hramg⟩, hshows⟩

/-- A bank of a restore writes its part of the padded input (43_ram_accessor.md R238). -/
theorem playsTo_restoreBank {input : List Byte} {b : Nat} (hb : b < ramBanks h) :
    PlaysTo (HoldsEnabled h (padded input) (b * 0x2000)) (restoreBankOps h input b) []
      (HoldsEnabled h (padded input) ((b + 1) * 0x2000)) := by
  have hselect := playsTo_select (byte := padded input) (n := b * 0x2000) hwf hlimit hone hb
  have hbytes := playsTo_flatMap (P := fun k => HoldsShown h (padded input) (b * 0x2000 + k) b) (n := 0x2000)
    (ops := fun k => settledWriteOps (ramWindowAddr k) (padded input (b * 0x2000 + k))) (out := fun _ => [])
    fun k hk => playsTo_settledWrite (fun _ hc => hc.fits.failures) fun _ hc => (hc.store hk).countBy 1
  have hsilent : ((List.range 0x2000).flatMap fun _ => ([] : List Byte)) = [] :=
    List.flatMap_eq_nil_iff.mpr fun _ _ => rfl
  beta_reduce at hbytes
  rw [Nat.add_zero, hsilent] at hbytes
  have hbank := hselect.append hbytes
  rw [List.append_nil, ← restoreBankOps_eq] at hbank
  rw [Nat.succ_mul]
  exact hbank.mono fun _ hc => hc.toHoldsEnabled

/-- A bank of a dump reads its part of the image (43_ram_accessor.md R232). -/
theorem playsTo_dumpBank {b : Nat} (hb : b < ramBanks h) (hn : (b + 1) * 0x2000 ≤ n) :
    PlaysTo (HoldsEnabled h byte n) (dumpBankOps h b) ((List.range 0x2000).map fun k => byte (b * 0x2000 + k))
      (HoldsEnabled h byte n) := by
  have hreads : PlaysTo (HoldsShown h byte n b) (passOps ramWindowAddr 0x2000)
      ((List.range 0x2000).map fun k => byte (b * 0x2000 + k)) (HoldsShown h byte n b) :=
    playsTo_passOps (fun _ hc => hc.fits.failures) (fun _ hc => hc.countBy _) fun _ hc k hk => hc.load hk (by omega)
  have hbank := (playsTo_select hwf hlimit hone hb).append hreads
  rw [List.nil_append, ← dumpBankOps_eq] at hbank
  exact hbank.mono fun _ hc => hc.toHoldsEnabled

/-- A restore writes the padded input into the image (43_ram_accessor.md R238). -/
theorem playsTo_restore (hsize : h.ramSize ≠ 0) (input : List Byte) {c : RefCart}
    (hc : HoldsImage h (padded input) 0 c) :
    ∃ bs, PlaysTo (· = c) (restoreOps h input) bs (HoldsImage h (padded input) (ramBanks h * 0x2000)) := by
  obtain ⟨bs, hfix⟩ := playsTo_fix hc
  have hbanks := playsTo_flatMap (P := fun b => HoldsEnabled h (padded input) (b * 0x2000)) (out := fun _ => [])
    fun b (hb : b < ramBanks h) => playsTo_restoreBank (input := input) hwf hlimit hone hb
  rw [Nat.zero_mul] at hbanks
  have hclose := playsTo_disable (h := h) (byte := padded input) (n := ramBanks h * 0x2000)
  exact ⟨_, (((hfix.append (playsTo_enable hwf hsize)).append hbanks).mono fun _ hd => hd.toHoldsImage).append hclose⟩

/-- A dump reads the image (43_ram_accessor.md R232). -/
theorem playsTo_dump (hsize : h.ramSize ≠ 0) : PlaysTo (HoldsImage h byte (ramBanks h * 0x2000)) (dumpOps h)
    ((List.range (ramBanks h * 0x2000)).map byte) (HoldsImage h byte (ramBanks h * 0x2000)) := by
  have hbanks := playsTo_flatMap (P := fun _ => HoldsEnabled h byte (ramBanks h * 0x2000))
    fun b (hb : b < ramBanks h) => playsTo_dumpBank (byte := byte) hwf hlimit hone hb (Nat.mul_le_mul_right 0x2000 hb)
  rw [flatMap_range_map] at hbanks
  have hrun := (((playsTo_enable hwf hsize).append hbanks).mono fun _ hd => hd.toHoldsImage).append playsTo_disable
  rwa [List.nil_append, List.append_nil] at hrun

end

/-! ### The commands -/

section
variable {s : State} {h : Header} (hphase : s.phase = .ready) (hhdr : s.hdr = some h) (hwf : h.wf)
  (hsize : h.ramSize ≠ 0) (hlimit : bankLimitOk h) (hone : needSelect h = true ∨ ramBanks h = 1)
include hphase hhdr hwf hsize hlimit hone

/-- A restore leaves the padded input in the image, and the session and S.out as they were. -/
theorem exec_ramRestore_reference (hinput : ramBanks h * 0x2000 ≤ s.input.bytes.length ∨ s.input.fails = false)
    (hcart : CartHas (HoldsImage h (padded s.input.bytes) 0) s) :
    ∃ t, exec .ramRestore s = .next t ∧ lastStatusIs .ok t ∧ t.phase = .ready ∧ t.hdr = some h ∧ t.out = s.out ∧
      CartHas (HoldsImage h (padded s.input.bytes) (ramBanks h * 0x2000)) t := by
  obtain ⟨c, hbus, hc⟩ := hcart
  obtain ⟨bs, hrestore⟩ := playsTo_restore hwf hlimit hone hsize s.input.bytes hc
  obtain ⟨t, hplay, hheld⟩ := hrestore s ⟨c, hbus, rfl⟩
  have hframe : t = withBus s t := (busOnly_play _).ok_frame hplay
  have hready : t.phase = .ready := by rw [hframe, withBus_phase, hphase]
  have hkept : t.hdr = some h := by rw [hframe, withBus_hdr, hhdr]
  have hout : t.out = s.out := by rw [State.out, hframe, withBus_revOut, State.out]
  exact ⟨_, ramRestoreWritesThePaddedInput.2 s h hphase hhdr hsize hlimit hinput bs t hplay, ⟨_, rfl, rfl⟩, hready,
    hkept, hout, hheld.of_bus rfl⟩

/-- A dump adds the image to S.out. -/
theorem exec_ramDump_reference {byte : Nat → Byte} (hcart : CartHas (HoldsImage h byte (ramBanks h * 0x2000)) s) :
    ∃ t, exec .ramDump s = .next t ∧ lastStatusIs .ok t ∧
      t.out = s.out ++ (List.range (ramBanks h * 0x2000)).map byte := by
  obtain ⟨t, hplay, -⟩ := playsTo_dump hwf hlimit hone hsize s hcart
  obtain ⟨-, hexec⟩ := ramDumpEmitsTheRamImage.2 s h hphase hhdr hlimit _ t hplay
  refine ⟨_, hexec, ⟨_, rfl, rfl⟩, ?_⟩
  rw [respond_out, State.out, State.out, List.reverse_append, List.reverse_reverse]

end

/-- Settles O60: the restore plays its sequence and leaves the padded input in the image, and the dump reads it back. -/
theorem restoreThenDumpEmitsThePaddedInput : Obligations.RestoreThenDumpEmitsThePaddedInput := by
  intro s h c hinv hphase hhdr hbus hfits hsize hlimit hone hinput
  have hwf := (hinv.session h hhdr).header
  have hram : Memory.wf ramFill c.ram := by
    have hcanonical := hinv.bus
    rw [hbus] at hcanonical
    exact hcanonical.1
  rw [← ramBanks_mul hwf] at hinput ⊢
  obtain ⟨t, hrestore, hok, hready, hkept, hout, hcart⟩ := exec_ramRestore_reference hphase hhdr hwf hsize hlimit hone
    hinput ⟨c, hbus, hfits, hram, fun o ho => absurd ho (Nat.not_lt_zero o)⟩
  obtain ⟨u, hdump, hok', hout'⟩ := exec_ramDump_reference hready hkept hwf hsize hlimit hone hcart
  exact ⟨t, u, hrestore, hok, hdump, hok', hout ▸ hout'⟩

end Sys2Proof.Machine
end

section
/-! The address translator (44_translate.md). The exact reply of each translation, and its agreement with the accesses
of the commands that use the same arithmetic: a turn of ROM_READ's loop reads at the address XLATE_ROM gives, and the
accesses of an accessor to the RAM window come in the order of the image (`InImageOrder`), whatever ends it. -/

namespace Sys2Proof.Machine

/-! ### The translations -/

/-- An address keeps its number in the width of a result's aux (30_encoding.md R104). -/
theorem zext32_ofNat {n : Nat} (hn : n < 2 ^ 16) : zext32 (BitVec.ofNat 16 n) = BitVec.ofNat 32 n := by
  apply BitVec.eq_of_toNat_eq
  simp only [zext32, BitVec.toNat_setWidth, BitVec.toNat_ofNat, Nat.mod_eq_of_lt hn]

theorem zext32_toNat (a : Addr) : (zext32 a).toNat = a.toNat :=
  BitVec.toNat_setWidth_of_le (by decide)

theorem zext32_romBusAddr (o : Nat) :
    zext32 (romBusAddr o) = BitVec.ofNat 32 (if o < 0x4000 then o else 0x4000 + o % 0x4000) := by
  rw [romBusAddr_eq, zext32_ofNat (by split <;> omega)]

theorem ramBusAddr_toNat (o : Nat) : (ramBusAddr o).toNat = 0xA000 + o % 0x2000 := by
  simp only [ramBusAddr, ramWindowBase, ramIntraOf, ramBankSize, BitVec.toNat_ofNat]
  omega

theorem zext32_ramBusAddr (o : Nat) : zext32 (ramBusAddr o) = BitVec.ofNat 32 (0xA000 + o % 0x2000) :=
  zext32_ofNat (n := 0xA000 + o % 0x2000) (by omega)

/-- A bank number of a 24 bit offset keeps its number in a result's value (30_encoding.md R104). -/
theorem bankValue_toNat (o : BitVec 24) (size : Nat) : (BitVec.ofNat 32 (o.toNat / size)).toNat = o.toNat / size := by
  have hle : o.toNat / size ≤ o.toNat := Nat.div_le_self _ _
  rw [BitVec.toNat_ofNat, Nat.mod_eq_of_lt (by omega)]

section
variable {s : State} {h : Header} (hphase : s.phase = .ready) (hhdr : s.hdr = some h) (o : BitVec 24)
include hphase hhdr

theorem exec_xlateRom : exec (.xlateRom o) s = .next (s.respond
    ⟨.ok, BitVec.ofNat 32 (o.toNat / 0x4000), zext32 (romBusAddr o.toNat), decide (o.toNat < h.romSize.toNat),
      none⟩) :=
  exec_of_ok (r := translateReply (romBankOf o.toNat) (romBusAddr o.toNat) o.toNat h.romSize)
    (inSession_ready hphase hhdr _)

theorem exec_xlateRam : exec (.xlateRam o) s = .next (s.respond
    ⟨.ok, BitVec.ofNat 32 (o.toNat / 0x2000), zext32 (ramBusAddr o.toNat), decide (o.toNat < h.ramSize.toNat),
      none⟩) :=
  exec_of_ok (r := translateReply (ramBankOf o.toNat) (ramBusAddr o.toNat) o.toNat h.ramSize)
    (inSession_ready hphase hhdr _)

end

/-- Settles O43: outside a session both are refused, and in one each replies with the arithmetic of its windows. -/
theorem translationDividesByTheBankSize : Obligations.TranslationDividesByTheBankSize := by
  refine fun s o => ⟨encode_eq_wordOf _, encode_eq_wordOf _, refusedOutOfSession (by simp) (by simp) s,
    refusedOutOfSession (by simp) (by simp) s, fun h hphase hhdr => ⟨?rom, ?ram⟩⟩
  case rom => rw [exec_xlateRom hphase hhdr, zext32_romBusAddr]
  case ram => rw [exec_xlateRam hphase hhdr, zext32_ramBusAddr]

/-! ### The read of ROM_READ -/

section
variable {s t : State} {h : Header}

/-- A byte delivered has been read last, at the bus address of its offset (42_rom_reader.md R213). -/
theorem deliverByte_reads {c : Offset} (hrun : deliverByte c s = .ok () t) :
    (∃ v older, t.revTrace = .read (romBusAddr c.toNat) (.ok v) :: older) ∧ t.addr = some (romBusAddr c.toNat) ∧
      t.drv = s.drv := by
  obtain ⟨v, u, hread, hrun⟩ := bind_eq_ok.mp hrun
  obtain ⟨_, _, hemit, hrun⟩ := bind_eq_ok.mp hrun
  cases hemit
  cases hrun
  rcases memRead_cases (romBusAddr c.toNat) s with ⟨_, _, _, hm⟩ | ⟨_, _, hm⟩ <;> cases hread.symm.trans hm
  exact ⟨⟨v, _, rfl⟩, rfl, rfl⟩

/-- A select that returns leaves its bank in the mirror (41_driver.md R179). -/
theorem selectRomOp_mirror {n : Nat} (hn : 1 ≤ n) (hrun : selectRomOp h n s = .ok () t) :
    t.drv.romBank = BitVec.ofNat 16 n := by
  by_cases hlim : limRom h ≤ substituteBank n
  · rw [selectRomOp_refused hlim] at hrun
    cases hrun
  · rw [selectRomOp_allowed (Nat.lt_of_not_le hlim), substituteBank_pos hn] at hrun
    obtain ⟨_, _, _, hmirror⟩ := bind_eq_ok.mp hrun
    cases hmirror
    rfl

/-- A turn of the loop that returns has read last at the bus address of the cursor, and at a boundary it has selected
the bank of the cursor (42_rom_reader.md R213). -/
theorem readRomByte_reads (hrun : readRomByte h s = .ok () t) :
    (∃ v older, t.revTrace = .read (romBusAddr s.rd.cursor.toNat) (.ok v) :: older) ∧
      t.addr = some (romBusAddr s.rd.cursor.toNat) ∧
      (selectsAt s.rd.cursor.toNat → t.drv.romBank = BitVec.ofNat 16 (s.rd.cursor.toNat / 0x4000)) := by
  rw [readRomByte_eq] at hrun
  split at hrun
  next hboundary =>
    obtain ⟨_, u, hsel, hrun⟩ := bind_eq_ok.mp hrun
    obtain ⟨hread, haddr, hdrv⟩ := deliverByte_reads hrun
    refine ⟨hread, haddr, fun hat => ?_⟩
    rw [hdrv]
    exact selectRomOp_mirror (show 1 ≤ s.rd.cursor.toNat / 0x4000 by omega) hsel
  next hboundary =>
    obtain ⟨hread, haddr, -⟩ := deliverByte_reads hrun
    exact ⟨hread, haddr, fun hat => absurd ((atRomBoundary_iff _).mpr hat) hboundary⟩

/-- A ROM_READ of one byte that returns OK is one turn of the loop and its result record. -/
theorem exec_romRead_one (hphase : s.phase = .ready) (hhdr : s.hdr = some h)
    (hcursor : s.rd.cursor.toNat < h.romSize.toNat) (hexec : exec (.romRead 1) s = .next t) (hok : lastStatusIs .ok t) :
    ∃ u, readRomByte h s = .ok () u ∧ t = u.respond (resultOf .ok 1) := by
  have hone : 1 = min (1 : BitVec 24).toNat (h.romSize.toNat - s.rd.cursor.toNat) := by
    show 1 = min 1 _
    omega
  have hproc := commandProc_romRead_before_end hphase hhdr (by decide) hcursor.ne hone
  cases hturn : readRomByte h s with
  | ok _ u =>
    have hloop : forBytes (fun _ => readRomByte h) 1 0 0 s = .ok () u := bind_of_ok (withMoved_eq_ok.mpr hturn)
    cases hexec.symm.trans (exec_of_ok (hproc.trans (bind_of_ok hloop)))
    exact ⟨u, rfl, rfl⟩
  | error e u =>
    have hloop : forBytes (fun _ => readRomByte h) 1 0 0 s = .error ⟨e.status, 0 + e.moved⟩ u :=
      bind_of_error (withMoved_eq_error.mpr ⟨e, hturn, rfl⟩)
    cases hexec.symm.trans (exec_of_error (hproc.trans (bind_of_error hloop)))
    obtain ⟨_, hlast, hstatus⟩ := hok
    cases hlast
    exact absurd hstatus (readRomByte_error hturn).1.not_ok

end

/-! ### Accesses in the order of the image -/

/-- Access o is at the bank and the bus address of image byte o (20_memory.md R73, R74). -/
def InImageOrder (accesses : List (Option Byte × Addr)) : Prop := ∀ (o : Nat) (bank : Option Byte) (a : Addr),
  accesses[o]? = some (bank, a) → bank.map (·.toNat) = some (o / 0x2000) ∧ a.toNat = 0xA000 + o % 0x2000

/-- Since the trace was `old`, the RAM window has been accessed n times in the order of the image, and `bank` is what
the RAM bank register was last given: events that follow are read on from there. -/
def AccessedTo (old : List BusEvent) (n : Nat) (bank : Option Byte) (s : State) : Prop :=
  ∃ evs accesses, s.revTrace = evs ++ old ∧ accesses.length = n ∧ InImageOrder accesses ∧
    ∀ newer, windowAccesses none (evs.reverse ++ newer) = accesses ++ windowAccesses bank newer

/-- What holds wherever an accessor stops. -/
def StoppedInOrder (old : List BusEvent) (s : State) : Prop := ∃ n bank, AccessedTo old n bank s

theorem inImageOrder_nil : InImageOrder [] := fun _ _ _ => nofun

theorem ramWindowAddr_toNat {k : Nat} (hk : k < ramBankSize) : (ramWindowAddr k).toNat = 0xA000 + k := by
  unfold ramBankSize at hk
  simp only [ramWindowAddr, ramWindowBase, BitVec.toNat_ofNat]
  omega

/-- The next access in the order is that of byte k of bank b, where b is selected. -/
theorem InImageOrder.concat {accesses : List (Option Byte × Addr)} {b k : Nat} {v : Byte}
    (horder : InImageOrder accesses) (hlen : accesses.length = b * ramBankSize + k) (hv : v.toNat = b)
    (hk : k < ramBankSize) : InImageOrder (accesses ++ [(some v, ramWindowAddr k)]) := by
  intro o bank a ho
  rw [List.getElem?_append] at ho
  split at ho
  next => exact horder o bank a ho
  next hlast =>
    obtain ⟨hzero, heq⟩ := Option.ite_none_right_eq_some.mp (List.getElem?_singleton ▸ ho)
    cases heq
    have haddr := ramWindowAddr_toNat hk
    unfold ramBankSize at hlen hk
    exact ⟨congrArg some (show v.toNat = o / 0x2000 by omega), by omega⟩

section
variable {old : List BusEvent} {n : Nat} {bank : Option Byte} {s t : State}

theorem AccessedTo.start (s : State) : AccessedTo s.revTrace 0 none s :=
  ⟨[], [], rfl, rfl, inImageOrder_nil, fun _ => rfl⟩

theorem AccessedTo.of_same (hs : AccessedTo old n bank s) (htrace : t.revTrace = s.revTrace) :
    AccessedTo old n bank t := by
  unfold AccessedTo
  rwa [htrace]

theorem AccessedTo.stopped (hs : AccessedTo old n bank s) : StoppedInOrder old s := ⟨n, bank, hs⟩

/-- An event that is no access, and may be a write to the RAM bank register. -/
theorem AccessedTo.pass {bank' : Option Byte} {e : BusEvent} (hs : AccessedTo old n bank s)
    (htrace : t.revTrace = e :: s.revTrace)
    (hpass : ∀ newer, windowAccesses bank (e :: newer) = windowAccesses bank' newer) : AccessedTo old n bank' t := by
  obtain ⟨evs, accesses, hevs, hlen, horder, hread⟩ := hs
  refine ⟨e :: evs, accesses, by rw [htrace, hevs, List.cons_append], hlen, horder, fun newer => ?_⟩
  rw [List.reverse_cons, List.append_assoc, hread, List.singleton_append, hpass]

/-- The access of byte k of bank b, where b is selected. -/
theorem AccessedTo.access {b k : Nat} {v : Byte} {e : BusEvent} (hs : AccessedTo old (b * ramBankSize + k) (some v) s)
    (hv : v.toNat = b) (hk : k < ramBankSize) (htrace : t.revTrace = e :: s.revTrace)
    (haccess : ∀ newer, windowAccesses (some v) (e :: newer) =
      (some v, ramWindowAddr k) :: windowAccesses (some v) newer) :
    AccessedTo old (b * ramBankSize + (k + 1)) (some v) t := by
  obtain ⟨evs, accesses, hevs, hlen, horder, hread⟩ := hs
  refine ⟨e :: evs, accesses ++ [(some v, ramWindowAddr k)], by rw [htrace, hevs, List.cons_append],
    by rw [List.length_append, hlen, List.length_singleton, Nat.add_assoc], horder.concat hlen hv hk, fun newer => ?_⟩
  rw [List.reverse_cons, List.append_assoc, hread, List.singleton_append, haccess, List.append_assoc,
    List.singleton_append]

theorem AccessedTo.setAddr (hs : AccessedTo old n bank s) (a : Addr) : AccessedTo old n bank (afterSetAddr s a) :=
  hs.pass rfl fun _ => rfl

theorem AccessedTo.wait (hs : AccessedTo old n bank s) : AccessedTo old n bank (s.record .wait) :=
  hs.pass rfl fun _ => rfl

/-! The requests of an accessor, whatever the bus answers. -/

theorem windowAccesses_write_bank (v : Byte) (r : WriteAnswer) (newer : List BusEvent) :
    windowAccesses bank (.write 0x4000 v r :: newer) = windowAccesses (some v) newer := by
  rw [windowAccesses_write, if_pos rfl]

theorem windowAccesses_write_control {a : Addr} (ha : isControlAddr a = true) (hne : a ≠ 0x4000) (v : Byte)
    (r : WriteAnswer) (newer : List BusEvent) :
    windowAccesses bank (.write a v r :: newer) = windowAccesses bank newer := by
  have hwindow : ¬ isRamWindow a = true := fun hw => by
    rw [isControlAddr_of_isRamWindow hw] at ha
    cases ha
  rw [windowAccesses_write, if_neg hne, if_neg hwindow]

theorem AccessedTo.read_window {b k : Nat} {v : Byte} (hs : AccessedTo old (b * ramBankSize + k) (some v) s)
    (hv : v.toNat = b) (hk : k < ramBankSize) (r : ReadAnswer) (side : BusSide) :
    AccessedTo old (b * ramBankSize + (k + 1)) (some v) (afterRequest s (.read (ramWindowAddr k) r) side) :=
  hs.access hv hk rfl fun _ => by rw [windowAccesses_read, if_pos (isRamWindow_ramWindowAddr hk)]

theorem AccessedTo.write_window {b k : Nat} {v : Byte} (hs : AccessedTo old (b * ramBankSize + k) (some v) s)
    (hv : v.toNat = b) (hk : k < ramBankSize) (w : Byte) (r : WriteAnswer) (side : BusSide) :
    AccessedTo old (b * ramBankSize + (k + 1)) (some v) (afterRequest s (.write (ramWindowAddr k) w r) side) := by
  have hwindow := isRamWindow_ramWindowAddr hk
  have hne : ramWindowAddr k ≠ 0x4000 := fun heq => by
    rw [heq] at hwindow
    exact absurd hwindow (by decide)
  exact hs.access hv hk rfl fun _ => by rw [windowAccesses_write, if_neg hne, if_pos hwindow]

end

/-! ### Running from one condition to the next -/

section
variable {α : Type} {E Q : State → Prop} {p : Proc α} {s : State}

theorem RunsFrom.mono {Q' : State → Prop} (hp : RunsFrom E Q p s) (hQ : ∀ t, Q t → Q' t) : RunsFrom E Q' p s :=
  ⟨fun hok => hQ _ (hp.ok hok), hp.error⟩

/-- What a procedure does from one state is all that counts. -/
theorem RunsFrom.of_eq {q : Proc α} (hq : RunsFrom E Q q s) (heq : p s = q s) : RunsFrom E Q p s :=
  ⟨fun hok => hq.ok (heq.symm.trans hok), fun herror => hq.error (heq.symm.trans herror)⟩

end

/-! A loop goes from what holds before its first turn to what holds after its last. -/

section
variable {E : State → Prop} {P : Nat → State → Prop} {body : Nat → Proc Unit} {limit : Nat}
  (hb : ∀ k < limit, Runs E (P k) (body k) (P (k + 1)))
include hb

theorem runs_forBytes_succ (n : Nat) : ∀ first moved, first + n ≤ limit →
    Runs E (P first) (forBytes body n first moved) (P (first + n)) := by
  induction n with
  | zero => exact fun _ _ _ => runs_pure (fun _ => id) ()
  | succ n ih =>
    intro first moved hle
    rw [← Nat.add_assoc, Nat.add_right_comm]
    exact runs_bind (runs_withMoved _ (hb first (by omega))) fun _ => ih _ _ (by omega)

theorem runs_forBanks_succ {size : Nat} (n : Nat) : ∀ first, first + n ≤ limit →
    Runs E (P first) (forBanks size body n first) (P (first + n)) := by
  induction n with
  | zero => exact fun _ _ => runs_pure (fun _ => id) ()
  | succ n ih =>
    intro first hle
    rw [← Nat.add_assoc, Nat.add_right_comm]
    exact runs_bind (runs_withMoved _ (hb first (by omega))) fun _ => ih _ (by omega)

end

/-! ### The procedures of the accessors -/

section
variable {old : List BusEvent} {n : Nat} {bank : Option Byte} {h : Header}

/-- A register write, by what it does to the reading of the events. -/
theorem accessed_memWrite {bank' : Option Byte} {a : Addr} {v : Byte}
    (hpass : ∀ r newer, windowAccesses bank (.write a v r :: newer) = windowAccesses bank' newer) :
    Runs (StoppedInOrder old) (AccessedTo old n bank) (memWrite a v) (AccessedTo old n bank') := fun s hs => by
  rcases memWrite_cases a v s with ⟨_, _, hm⟩ | ⟨_, _, hm⟩
  · exact runsFrom_of_ok hm ((hs.setAddr a).pass rfl (hpass _))
  · exact runsFrom_of_error hm ((hs.setAddr a).pass rfl (hpass _)).stopped

theorem accessed_memWrite_control {a : Addr} (ha : isControlAddr a = true) (hne : a ≠ 0x4000) (v : Byte) :
    Runs (StoppedInOrder old) (AccessedTo old n bank) (memWrite a v) (AccessedTo old n bank) :=
  accessed_memWrite (windowAccesses_write_control ha hne v)

theorem accessed_memWrite_bank (v : Byte) :
    Runs (StoppedInOrder old) (AccessedTo old n bank) (memWrite 0x4000 v) (AccessedTo old n (some v)) :=
  accessed_memWrite (windowAccesses_write_bank v)

theorem accessed_setRamEnabledOp (v : Byte) (b : Bool) :
    Runs (StoppedInOrder old) (AccessedTo old n bank) (setRamEnabledOp v b h) (AccessedTo old n bank) := by
  have hwrites : Runs (StoppedInOrder old) (AccessedTo old n bank) (runSeq (ramEnableWrites (family h) v))
      (AccessedTo old n bank) := by
    by_cases hfam : family h = .romOnly
    · rw [hfam]
      exact runs_pure (fun _ => id) ()
    · rw [ramEnableWrites_of_ne hfam]
      exact runs_bind (accessed_memWrite_control (by decide) (by decide) v) fun _ => runs_pure (fun _ => id) ()
  exact runs_bind hwrites fun _ => runs_modifyState fun _ hs => hs.of_same rfl

theorem accessed_preWriteFix {f : Family} (hbanking : hasRamBanking f = true) :
    Runs (StoppedInOrder old) (AccessedTo old n bank) (preWriteFix f) (AccessedTo old n bank) := by
  cases f with
  | romOnly | mbc2 => cases hbanking
  | mbc1 => exact accessed_memWrite_control (by decide) (by decide) _
  | mbc3 | mbc5 => exact runs_pure (fun _ => id) ()

/-- The writes that select RAM bank b leave b in the RAM bank register (30_encoding.md R114, 41_driver.md R175). -/
theorem accessed_ramSelectWrites {f : Family} {b : Nat} (hbanking : hasRamBanking f = true)
    (hb : b < params.famMaxRamBanks f) :
    Runs (StoppedInOrder old) (AccessedTo old n bank) (runSeq (ramSelectWrites f b))
      (AccessedTo old n (some (BitVec.ofNat 8 b))) := by
  have hbank {m : Nat} {bank : Option Byte} (hm : b < m) : Runs (StoppedInOrder old) (AccessedTo old n bank)
      (runSeq [(0x4000, BitVec.ofNat 8 (b % m))]) (AccessedTo old n (some (BitVec.ofNat 8 b))) := by
    rw [Nat.mod_eq_of_lt hm]
    exact runs_bind (accessed_memWrite_bank _) fun _ => runs_pure (fun _ => id) ()
  cases f with
  | romOnly | mbc2 => cases hbanking
  | mbc1 => exact runs_bind (accessed_memWrite_control (by decide) (by decide) _) fun _ => hbank hb
  | mbc3 | mbc5 => exact hbank hb

theorem accessed_selectForAccess {b : Nat} (hneed : needSelect h = true) (hb : b < limRam h) :
    Runs (StoppedInOrder old) (AccessedTo old n bank) (selectForAccess h b)
      (AccessedTo old n (some (BitVec.ofNat 8 b))) := by
  obtain ⟨hbanking, -⟩ := Bool.and_eq_true_iff.mp hneed
  have hmax : b < params.famMaxRamBanks (family h) := hb.trans_le (Nat.min_le_left ..)
  rw [selectForAccess, if_pos hneed, selectRamOp_allowed hbanking hb]
  exact runs_bind (accessed_ramSelectWrites hbanking hmax) fun _ => runs_modifyState fun _ hs => hs.of_same rfl

theorem accessed_takeInput (k : Nat) :
    Runs (StoppedInOrder old) (AccessedTo old n bank) (takeInput k) (AccessedTo old n bank) := fun s hs => by
  rcases takeInput_cases k s with ⟨_, hm⟩ | ⟨_, _, hm⟩ | ⟨_, _, hm⟩
  · exact runsFrom_of_ok hm (hs.of_same rfl)
  · exact runsFrom_of_error hm hs.stopped
  · exact runsFrom_of_ok hm (hs.of_same rfl)

/-! One byte of bank b, which the byte v in the RAM bank register selects. -/

variable {b k : Nat} {v : Byte} (hv : v.toNat = b) (hk : k < ramBankSize)
include hv hk

theorem accessed_dumpByte : Runs (StoppedInOrder old) (AccessedTo old (b * ramBankSize + k) (some v)) (dumpByte k)
    (AccessedTo old (b * ramBankSize + (k + 1)) (some v)) := by
  refine runs_bind (Q := AccessedTo old (b * ramBankSize + (k + 1)) (some v)) (fun s hs => ?_) fun _ =>
    runs_modifyState fun _ hs => hs.of_same rfl
  have hread := (hs.setAddr (ramWindowAddr k)).read_window hv hk
  rcases memRead_cases (ramWindowAddr k) s with ⟨_, _, _, hm⟩ | ⟨_, _, hm⟩
  · exact runsFrom_of_ok hm (hread _ _)
  · exact runsFrom_of_error hm (hread _ _).stopped

theorem accessed_restoreByte (chunk : List Byte) :
    Runs (StoppedInOrder old) (AccessedTo old (b * ramBankSize + k) (some v)) (restoreByte chunk k)
      (AccessedTo old (b * ramBankSize + (k + 1)) (some v)) := by
  refine runs_bind (p := busSetAddr (ramWindowAddr k)) (Q := fun s => s.addr = some (ramWindowAddr k) ∧
    AccessedTo old (b * ramBankSize + k) (some v) s) (runs_modifyState fun s hs => ⟨rfl, hs.setAddr _⟩) fun _ => ?_
  rintro s ⟨haddr, hs⟩
  have hwrite := hs.wait.write_window hv hk (restoreValue chunk k)
  rcases settledWrite_cases haddr (restoreValue chunk k) with ⟨_, _, hm⟩ | ⟨_, _, hm⟩
  · exact runsFrom_of_ok hm (hwrite _ _).wait
  · exact runsFrom_of_error hm (hwrite _ _).stopped

end

/-! ### The banks and the bodies -/

/-- The image is accessed up to bank b, whatever bank is selected. -/
def AccessedBanks (old : List BusEvent) (b : Nat) (s : State) : Prop :=
  ∃ bank, AccessedTo old (b * ramBankSize) bank s

section
variable {old : List BusEvent} {h : Header} {b : Nat} (hneed : needSelect h = true) (hb : b < limRam h)
include hneed hb

/-- A bank of an accessor: its select, and then its bytes. -/
theorem accessed_bank {rest : Proc Unit} (hrest : ∀ v : Byte, v.toNat = b → Runs (StoppedInOrder old)
      (AccessedTo old (b * ramBankSize) (some v)) rest (AccessedTo old (b * ramBankSize + ramBankSize) (some v))) :
    Runs (StoppedInOrder old) (AccessedBanks old b) (do selectForAccess h b; rest) (AccessedBanks old (b + 1)) := by
  rintro s ⟨bank, hs⟩
  have hbyte : (BitVec.ofNat 8 b).toNat = b := by
    have hmax := limRam_le h
    rw [BitVec.toNat_ofNat]
    omega
  have hrun := runs_bind (accessed_selectForAccess hneed hb) (fun _ => hrest _ hbyte) s hs
  rw [← Nat.succ_mul] at hrun
  exact hrun.mono fun _ ht => ⟨_, ht⟩

theorem accessed_dumpBank :
    Runs (StoppedInOrder old) (AccessedBanks old b) (dumpBank h b) (AccessedBanks old (b + 1)) :=
  accessed_bank hneed hb fun v hv => by
    have hloop := runs_forBytes_succ (P := fun k => AccessedTo old (b * ramBankSize + k) (some v))
      (fun k hk => accessed_dumpByte (old := old) hv hk) ramBankSize 0 0 (by omega)
    rwa [Nat.add_zero, Nat.zero_add] at hloop

theorem accessed_restoreBank :
    Runs (StoppedInOrder old) (AccessedBanks old b) (restoreBank h b) (AccessedBanks old (b + 1)) :=
  accessed_bank hneed hb fun v hv => runs_bind (accessed_takeInput _) fun chunk => by
    have hloop := runs_forBytes_succ (P := fun k => AccessedTo old (b * ramBankSize + k) (some v))
      (fun k hk => accessed_restoreByte (old := old) hv hk chunk) ramBankSize 0 0 (by omega)
    rwa [Nat.add_zero, Nat.zero_add] at hloop

end

/-- What an accessor does after its checks accesses every bank of the image in order (43_ram_accessor.md R232, R237). -/
theorem accessed_accessOp {old : List BusEvent} {h : Header} {fix : Proc Unit} {body : Nat → Proc Unit}
    (hfix : Runs (StoppedInOrder old) (AccessedTo old 0 none) fix (AccessedTo old 0 none))
    (hbody : ∀ b < ramBanks h, Runs (StoppedInOrder old) (AccessedBanks old b) (body b) (AccessedBanks old (b + 1))) :
    Runs (StoppedInOrder old) (AccessedTo old 0 none) (accessOp h fix body) (AccessedBanks old (ramBanks h)) := by
  have hbanks := runs_forBanks_succ (size := ramBankSize) hbody (ramBanks h) 0 (by omega)
  rw [Nat.zero_add] at hbanks
  have hdisable : Runs (StoppedInOrder old) (AccessedBanks old (ramBanks h)) (setRamEnabledOp 0x00 false h)
      (AccessedBanks old (ramBanks h)) := fun s ⟨_, hs⟩ =>
    (accessed_setRamEnabledOp 0x00 false s hs).mono fun _ ht => ⟨_, ht⟩
  rw [accessOp, enableRamOp_eq, disableRamOp_eq]
  exact runs_bind hfix fun _ => runs_bind (accessed_setRamEnabledOp _ _) fun _ =>
    runs_bind (fun s hs => hbanks s ⟨none, by rwa [Nat.zero_mul]⟩) fun _ =>
      runs_bind (runs_withMoved _ hdisable) fun _ => runs_pure (fun _ => id) _

/-! ### The accessors -/

section
variable {i : Instr} {s t : State} {h : Header} (hi : IsAccessor i) (hphase : s.phase = .ready) (hhdr : s.hdr = some h)
  (hneed : needSelect h = true)
include hi hphase hhdr hneed

/-- Within the bank limit an accessor accesses the image in order, all of it where it returns. -/
theorem accessor_inOrder (hlimit : bankLimitOk h) :
    RunsFrom (StoppedInOrder s.revTrace) (AccessedBanks s.revTrace (ramBanks h)) (commandProc i) s := by
  have hstart := AccessedTo.start s
  have hbelow {b : Nat} (hb : b < ramBanks h) : b < limRam h := hb.trans_le (le_limRam hlimit hneed)
  rcases hi with rfl | rfl
  · have hrun := accessed_accessOp (runs_pure (fun _ => id) ()) (fun b hb => accessed_dumpBank hneed (hbelow hb)) s
      hstart
    rw [← ramDumpOp_eq_accessOp hlimit] at hrun
    exact hrun.of_eq (commandProc_ramDump hphase hhdr)
  · have hproc := commandProc_ramRestore hphase hhdr
    by_cases hsize : h.ramSize = 0
    · have hnone : ramBanks h = 0 := by rw [ramBanks, hsize]; rfl
      rw [ramRestoreOp, if_pos hsize, pure_apply] at hproc
      exact runsFrom_of_ok hproc ⟨none, by rwa [hnone, Nat.zero_mul]⟩
    · obtain ⟨hbanking, -⟩ := Bool.and_eq_true_iff.mp hneed
      have hrun := accessed_accessOp (accessed_preWriteFix hbanking)
        (fun b hb => accessed_restoreBank hneed (hbelow hb)) s hstart
      rw [← ramRestoreOp_eq_accessOp hlimit hsize] at hrun
      exact hrun.of_eq hproc

omit hneed in
/-- An accessor that raises an error within the bank limit has not returned OK (60_exceptions.md R272, R273). -/
theorem accessor_error_ne_ok (hlimit : bankLimitOk h) {e : Raised} {u : State} (hrun : commandProc i s = .error e u) :
    e.status ≠ .ok := by
  have hsize : i = .ramRestore → h.ramSize ≠ 0 := by
    rintro rfl hzero
    rw [commandProc_ramRestore hphase hhdr, ramRestoreOp, if_pos hzero] at hrun
    cases hrun
  obtain ⟨hbus | hfile, -⟩ := (hrun ▸ accessor_end hi hphase hhdr hlimit hsize).of_error
  · simp [hbus]
  · simp [hfile]

/-- However an accessor ends, it has accessed the image in order, and all of it where it returns OK
(43_ram_accessor.md R230). -/
theorem exec_accessor_inOrder (hexec : exec i s = .next t) :
    ∃ n bank, AccessedTo s.revTrace n bank t ∧ (lastStatusIs .ok t → n = ramBanks h * 0x2000) := by
  by_cases hlimit : bankLimitOk h
  · have hinOrder := accessor_inOrder hi hphase hhdr hneed hlimit
    cases hrun : commandProc i s with
    | ok r u =>
      cases hexec.symm.trans (exec_of_ok hrun)
      obtain ⟨bank, hall⟩ := hinOrder.ok hrun
      exact ⟨_, bank, hall.of_same rfl, fun _ => rfl⟩
    | error e u =>
      cases hexec.symm.trans (exec_of_error hrun)
      obtain ⟨n, bank, hsome⟩ := hinOrder.error hrun
      refine ⟨n, bank, hsome.of_same (takeError_revTrace e u), fun ⟨_, hlast, hstatus⟩ => ?_⟩
      cases hlast
      exact absurd hstatus (accessor_error_ne_ok hi hphase hhdr hlimit hrun)
  · obtain ⟨-, hmany⟩ := Classical.not_imp.mp hlimit
    cases hexec.symm.trans (exec_accessor_refused hphase hhdr hi hneed (Nat.lt_of_not_le hmany))
    refine ⟨0, none, (AccessedTo.start s).of_same rfl, fun ⟨_, hlast, hstatus⟩ => ?_⟩
    cases hlast
    cases hstatus

end

/-- Settles O34: the turn of ROM_READ's loop reads where XLATE_ROM says, and an accessor accesses the image in order. -/
theorem translationAgreesWithTheStream : Obligations.TranslationAgreesWithTheStream := by
  refine ⟨fun s t u h r hphase hhdr hcursor hread hok hxlate hlast => ?rom,
    fun i s t h hi hphase hhdr hneed hexec => ?ram⟩
  case rom =>
    cases hxlate.symm.trans (exec_xlateRom hphase hhdr _)
    cases hlast
    obtain ⟨w, hturn, rfl⟩ := exec_romRead_one hphase hhdr hcursor hread hok
    obtain ⟨⟨v, older, htrace⟩, haddr, hbank⟩ := readRomByte_reads hturn
    refine ⟨⟨_, v, older, htrace, haddr, zext32_toNat _⟩, fun hat => ?_⟩
    rw [respond_drv, hbank hat, bankValue_toNat, BitVec.toNat_ofNat]
    omega
  case ram =>
    obtain ⟨n, bank, ⟨evs, accesses, htrace, hlen, horder, hread⟩, hall⟩ :=
      exec_accessor_inOrder hi hphase hhdr hneed hexec
    have haccesses : windowAccesses none evs.reverse = accesses := by simpa using hread []
    refine ⟨evs, htrace, fun hok => ?_, fun o bank a u r ho hxlate hlast => ?_⟩
    · rw [haccesses, hlen, hall hok]
    · cases hxlate.symm.trans (exec_xlateRam hphase hhdr o)
      cases hlast
      rw [haccesses] at ho
      obtain ⟨hbank, haddr⟩ := horder _ _ _ ho
      exact ⟨hbank.trans (congrArg some (bankValue_toNat o 0x2000).symm),
        haddr.trans ((zext32_toNat _).trans (ramBusAddr_toNat _)).symm⟩

end Sys2Proof.Machine
end

section
/-! The errors of the commands (60_exceptions.md). What a procedure may raise, and where, is said of each part once
(`RaisesFrom`), so that every error of a command is one of four (`CommandError`): a bus request that failed last, an
input that failed, a bank ROM_READ cannot select, or a check that refuses the command before it has done anything. The
statements are read off these. -/

namespace Sys2Proof.Machine

variable {α β : Type}

/-! ### What a procedure raises -/

/-- Where the procedure raises an error from state s, its status and the state it leaves meet E. -/
def RaisesFrom (E : Status → State → Prop) (p : Proc α) (s : State) : Prop := ∀ e t, p s = .error e t → E e.status t

/-- From every state. -/
abbrev Raises (E : Status → State → Prop) (p : Proc α) : Prop := ∀ s, RaisesFrom E p s

section
variable {E : Status → State → Prop}

theorem raisesFrom_of_ok {p : Proc α} {s t : State} {a : α} (hok : p s = .ok a t) : RaisesFrom E p s :=
  fun _ _ herror => nomatch hok.symm.trans herror

theorem raisesFrom_of_error {p : Proc α} {s t : State} {e : Raised} (herror : p s = .error e t) (hE : E e.status t) :
    RaisesFrom E p s := by
  intro e' t' herror'
  cases herror.symm.trans herror'
  exact hE

theorem raises_pure (a : α) : Raises E (pure a : Proc α) := fun _ => raisesFrom_of_ok rfl

theorem raises_modifyState (f : State → State) : Raises E (modifyState f) := fun _ => raisesFrom_of_ok rfl

theorem raisesFrom_bind {p : Proc α} {f : α → Proc β} {s : State} (hp : RaisesFrom E p s)
    (hf : ∀ a t, p s = .ok a t → RaisesFrom E (f a) t) : RaisesFrom E (p >>= f) s := by
  intro e t hrun
  rcases bind_eq_error.mp hrun with hfirst | ⟨a, u, hok, hrest⟩
  · exact hp e t hfirst
  · exact hf a u hok e t hrest

theorem raises_bind {p : Proc α} {f : α → Proc β} (hp : Raises E p) (hf : ∀ a, Raises E (f a)) : Raises E (p >>= f) :=
  fun s => raisesFrom_bind (hp s) fun a t _ => hf a t

theorem raisesFrom_then_pure {p : Proc α} {s : State} (hp : RaisesFrom E p s) (b : β) :
    RaisesFrom E (do let _ ← p; pure b) s := raisesFrom_bind hp fun _ t _ => raises_pure b t

theorem raises_withMoved {p : Proc α} (k : Nat) (hp : Raises E p) : Raises E (withMoved k p) := by
  intro s e t hrun
  obtain ⟨e₀, hfail, rfl⟩ := withMoved_eq_error.mp hrun
  exact hp s e₀ t hfail

theorem raises_forBytes {body : Nat → Proc Unit} (hb : ∀ k, Raises E (body k)) (n : Nat) :
    ∀ first moved, Raises E (forBytes body n first moved) := by
  induction n with
  | zero => exact fun _ _ => raises_pure ()
  | succ n ih => exact fun first moved => raises_bind (raises_withMoved _ (hb first)) fun _ => ih _ _

theorem raises_forBanks {body : Nat → Proc Unit} {size limit : Nat} (hb : ∀ b < limit, Raises E (body b)) (n : Nat) :
    ∀ first, first + n ≤ limit → Raises E (forBanks size body n first) := by
  induction n with
  | zero => exact fun _ _ => raises_pure ()
  | succ n ih =>
    exact fun first hle => raises_bind (raises_withMoved _ (hb first (by omega))) fun _ => ih _ (by omega)

end

/-! ### The errors of a command -/

/-- The last event is a request that failed (60_exceptions.md R272). -/
def EndsInFailure (s : State) : Prop := ∃ e older, s.revTrace = e :: older ∧ isFailure e = true

/-- An error that command i, begun in state s, may raise: its status, and the state the command then leaves. -/
inductive CommandError (i : Instr) (s : State) : Status → State → Prop
  /-- A bus request has failed, and nothing was done after it (60_exceptions.md R272). -/
  | bus {t : State} (hlast : EndsInFailure t) : CommandError i s .busError t
  /-- The input of a restore has failed (60_exceptions.md R273). -/
  | input (hi : i = .ramRestore) (t : State) : CommandError i s .fileIoError t
  /-- ROM_READ has come to a bank it cannot select (60_exceptions.md R274). -/
  | bank (hi : ∃ cap, i = .romRead cap) (t : State) : CommandError i s .unsupportedOperation t
  /-- A check has refused the command before it did anything (60_exceptions.md R271). -/
  | refused {e : Status} (hfatal : fatalOf e = none) (hunset : e = .addressUnset → s.phase = .ready ∧ s.addr = none) :
      CommandError i s e s

/-! ### The bus accesses -/

theorem endsInFailure_read (s : State) (a : Addr) (side : BusSide) :
    EndsInFailure (afterRequest s (.read a .err) side) := ⟨_, _, rfl, rfl⟩

theorem endsInFailure_write (s : State) (a : Addr) (v : Byte) (side : BusSide) :
    EndsInFailure (afterRequest s (.write a v .err) side) := ⟨_, _, rfl, rfl⟩

section
variable {i : Instr} {s : State}

theorem raisesFrom_busRead {t : State} {a : Addr} (haddr : t.addr = some a) :
    RaisesFrom (CommandError i s) busRead t := by
  have hrun := busRead_at haddr
  rcases hb : t.bus.read t.history a with ⟨_ | _, side⟩ <;> rw [hb] at hrun
  · exact raisesFrom_of_ok hrun
  · exact raisesFrom_of_error hrun (.bus (endsInFailure_read ..))

theorem raisesFrom_busWrite {t : State} {a : Addr} (haddr : t.addr = some a) (v : Byte) :
    RaisesFrom (CommandError i s) (busWrite v) t := by
  have hrun := busWrite_at haddr v
  rcases hb : t.bus.write t.history a v with ⟨_ | _, side⟩ <;> rw [hb] at hrun
  · exact raisesFrom_of_ok hrun
  · exact raisesFrom_of_error hrun (.bus (endsInFailure_write ..))

theorem raisesFrom_settledWrite {t : State} {a : Addr} (haddr : t.addr = some a) (v : Byte) :
    RaisesFrom (CommandError i s) (settledWrite v) t := by
  rcases settledWrite_cases haddr v with ⟨_, _, hrun⟩ | ⟨_, _, hrun⟩
  · exact raisesFrom_of_ok hrun
  · exact raisesFrom_of_error hrun (.bus (endsInFailure_write ..))

theorem raises_memRead (a : Addr) : Raises (CommandError i s) (memRead a) :=
  fun t => raisesFrom_busRead (t := afterSetAddr t a) rfl

theorem raises_memWrite (a : Addr) (v : Byte) : Raises (CommandError i s) (memWrite a v) :=
  fun t => raisesFrom_busWrite (t := afterSetAddr t a) rfl v

theorem raises_readRange (n : Nat) : ∀ a, Raises (CommandError i s) (readRange n a) := by
  induction n with
  | zero => exact fun _ => raises_pure []
  | succ n ih =>
    exact fun a => raises_bind (raises_memRead a) fun _ => raises_bind (ih _) fun _ => raises_pure _

theorem raises_readHeader : Raises (CommandError i s) readHeader :=
  raises_bind (raises_readRange _ _) fun _ => raises_pure _

/-! ### The driver's operations -/

theorem raises_runSeq (seq : List (Addr × Byte)) : Raises (CommandError i s) (runSeq seq) := by
  induction seq with
  | nil => exact raises_pure ()
  | cons p seq ih => exact raises_bind (raises_memWrite p.1 p.2) fun _ => ih

theorem raises_runSeq_modifyDriver (seq : List (Addr × Byte)) (f : Driver → Driver) :
    Raises (CommandError i s) (do runSeq seq; modifyDriver f) :=
  raises_bind (raises_runSeq seq) fun _ => raises_modifyState _

variable {h : Header}

/-- Where the refusal of a select is an error the command may raise, so is every error of the select. -/
theorem raisesFrom_selectRomOp {t : State} (hrefused : CommandError i s .unsupportedOperation t) (n : Nat) :
    RaisesFrom (CommandError i s) (selectRomOp h n) t := by
  by_cases hlim : limRom h ≤ substituteBank n
  · rw [selectRomOp_refused hlim]
    exact raisesFrom_of_error (raise_apply _ t) hrefused
  · rw [selectRomOp_allowed (Nat.lt_of_not_le hlim)]
    exact raises_runSeq_modifyDriver _ _ t

theorem raisesFrom_selectRamOp {t : State} {n : Nat}
    (hrefused : hasRamBanking (family h) = false ∨ limRam h ≤ n → CommandError i s .unsupportedOperation t) :
    RaisesFrom (CommandError i s) (selectRamOp h n) t := by
  by_cases hcheck : hasRamBanking (family h) = false ∨ limRam h ≤ n
  · rw [selectRamOp_refused hcheck]
    exact raisesFrom_of_error (raise_apply _ t) (hrefused hcheck)
  · obtain ⟨hbanking, hlim⟩ := not_or.mp hcheck
    rw [selectRamOp_allowed (Bool.eq_true_of_not_eq_false hbanking) (Nat.lt_of_not_le hlim)]
    exact raises_runSeq_modifyDriver _ _ t

/-! ### The ROM reader -/

theorem raises_deliverByte (c : Offset) : Raises (CommandError i s) (deliverByte c) :=
  raises_bind (raises_memRead _) fun _ => raises_bind (raises_modifyState _) fun _ => raises_modifyState _

theorem raises_readRomByte (hi : ∃ cap, i = .romRead cap) : Raises (CommandError i s) (readRomByte h) := by
  intro t e u hrun
  rw [readRomByte_eq] at hrun
  split at hrun
  · exact raisesFrom_bind (raisesFrom_selectRomOp (.bank hi t) _) (fun _ v _ => raises_deliverByte _ v) e u hrun
  · exact raises_deliverByte _ t e u hrun

theorem raises_romReadOp (hi : ∃ cap, i = .romRead cap) (n : Nat) : Raises (CommandError i s) (romReadOp h n) := by
  intro t
  by_cases hn : n = 0
  · exact raisesFrom_of_ok (if_pos hn)
  by_cases hend : t.rd.cursor.toNat = h.romSize.toNat
  · exact raisesFrom_of_ok ((if_neg hn).trans (if_pos hend))
  · intro e u hrun
    rw [romReadOp_before_end hn hend rfl] at hrun
    exact raisesFrom_then_pure (raises_forBytes (fun _ => raises_readRomByte hi) _ 0 0 t) _ e u hrun

/-! ### The RAM accessor, within the bank limit -/

theorem raises_selectForAccess {b : Nat} (hlim : needSelect h = true → b < limRam h) :
    Raises (CommandError i s) (selectForAccess h b) := by
  intro t
  unfold selectForAccess
  split
  case isTrue hneed =>
    obtain ⟨hbanking, -⟩ := Bool.and_eq_true_iff.mp hneed
    have hallowed : ¬(hasRamBanking (family h) = false ∨ limRam h ≤ b) := by
      simp [hbanking, hlim hneed]
    exact raisesFrom_selectRamOp fun hrefused => absurd hrefused hallowed
  case isFalse => exact raises_pure () t

theorem raises_dumpBank {b : Nat} (hlim : needSelect h = true → b < limRam h) :
    Raises (CommandError i s) (dumpBank h b) :=
  raises_bind (raises_selectForAccess hlim) fun _ =>
    raises_forBytes (fun _ => raises_bind (raises_memRead _) fun _ => raises_modifyState _) _ 0 0

theorem raises_takeInput (hi : i = .ramRestore) (k : Nat) : Raises (CommandError i s) (takeInput k) := by
  intro t
  rcases takeInput_cases k t with ⟨_, hrun⟩ | ⟨_, _, hrun⟩ | ⟨_, _, hrun⟩
  · exact raisesFrom_of_ok hrun
  · exact raisesFrom_of_error hrun (.input hi t)
  · exact raisesFrom_of_ok hrun

theorem raises_restoreByte (chunk : List Byte) (k : Nat) : Raises (CommandError i s) (restoreByte chunk k) :=
  fun t => raisesFrom_settledWrite (t := afterSetAddr t (ramWindowAddr k)) rfl _

theorem raises_restoreBank (hi : i = .ramRestore) {b : Nat} (hlim : needSelect h = true → b < limRam h) :
    Raises (CommandError i s) (restoreBank h b) :=
  raises_bind (raises_selectForAccess hlim) fun _ => raises_bind (raises_takeInput hi _) fun chunk =>
    raises_forBytes (raises_restoreByte chunk) _ 0 0

theorem raises_preWriteFix (f : Family) : Raises (CommandError i s) (preWriteFix f) := by
  cases f with
  | mbc1 => exact raises_memWrite _ _
  | mbc2 => exact raises_bind (raises_memRead _) fun _ => raises_pure ()
  | romOnly | mbc3 | mbc5 => exact raises_pure ()

theorem raises_accessOp {fix : Proc Unit} {bank : Nat → Proc Unit} (hfix : Raises (CommandError i s) fix)
    (hbank : ∀ b < ramBanks h, Raises (CommandError i s) (bank b)) :
    Raises (CommandError i s) (accessOp h fix bank) :=
  raises_bind hfix fun _ => raises_bind (raises_runSeq_modifyDriver _ _) fun _ =>
    raises_bind (raises_forBanks hbank (ramBanks h) 0 (by omega)) fun _ =>
      raises_bind (raises_withMoved _ (raises_runSeq_modifyDriver _ _)) fun _ => raises_pure _

end

/-! ### The checks -/

section
variable {i : Instr} {s : State}

/-- A check that refuses the command in the state it began in, with any status but AddressUnset. -/
theorem raisesFrom_refusal {p : Proc α} {e : Status} (hrun : p s = .error ⟨e, 0⟩ s) (hfatal : fatalOf e = none)
    (hne : e ≠ .addressUnset) : RaisesFrom (CommandError i s) p s :=
  raisesFrom_of_error hrun (.refused hfatal fun hunset => absurd hunset hne)

theorem raisesFrom_requireNotFaulted_then {f : Unit → Proc α}
    (hf : RaisesFrom (CommandError i s) (f ()) s) : RaisesFrom (CommandError i s) (requireNotFaulted >>= f) s := by
  by_cases hphase : s.phase = .faulted
  · exact raisesFrom_refusal (bind_of_error (requireNotFaulted_faulted hphase)) rfl nofun
  · have hok := requireNotFaulted_ok hphase
    refine raisesFrom_bind (raisesFrom_of_ok hok) fun _ t ht => ?_
    cases hok.symm.trans ht
    exact hf

theorem raisesFrom_requireSession_then {f : Unit → Proc α}
    (hf : s.phase = .ready → RaisesFrom (CommandError i s) (f ()) s) :
    RaisesFrom (CommandError i s) (requireSession >>= f) s := by
  cases hphase : s.phase with
  | noSession => exact raisesFrom_refusal (bind_of_error (requireSession_noSession hphase)) rfl nofun
  | faulted => exact raisesFrom_refusal (bind_of_error (requireSession_faulted hphase)) rfl nofun
  | ready =>
    have hok := requireSession_ready hphase
    refine raisesFrom_bind (raisesFrom_of_ok hok) fun _ t ht => ?_
    cases hok.symm.trans ht
    exact hf hphase

theorem raisesFrom_inSession {body : Header → Proc Reply} (hbody : ∀ h, RaisesFrom (CommandError i s) (body h) s) :
    RaisesFrom (CommandError i s) (inSession body) s :=
  raisesFrom_requireSession_then fun _ => by
    cases hhdr : s.hdr with
    | none =>
      have hno : sessionHeader s = .error ⟨.noSession, 0⟩ s := by simp [sessionHeader, hhdr]
      exact raisesFrom_refusal (bind_of_error hno) rfl nofun
    | some h =>
      have hok := sessionHeader_some hhdr
      refine raisesFrom_bind (raisesFrom_of_ok hok) fun _ t ht => ?_
      cases hok.symm.trans ht
      exact hbody h

/-- UnsupportedOperation, raised before the command has done anything. -/
theorem commandError_unsupported : CommandError i s .unsupportedOperation s := .refused rfl nofun

/-- An accessor beyond the bank limit is refused, and within it fails as its body does (43_ram_accessor.md R231). -/
theorem raisesFrom_ramDumpOp {h : Header} : RaisesFrom (CommandError i s) (ramDumpOp h) s := by
  by_cases hlimit : bankLimitOk h
  · rw [ramDumpOp_eq_accessOp hlimit]
    exact raises_accessOp (raises_pure ()) (fun b hb => raises_dumpBank fun hneed =>
      hb.trans_le (le_limRam hlimit hneed)) s
  · obtain ⟨hneed, hmany⟩ := Classical.not_imp.mp hlimit
    rw [ramDumpOp, bankLimitCheck_refused hneed (Nat.lt_of_not_le hmany)]
    exact raisesFrom_of_error (bind_of_error (raise_apply _ s)) commandError_unsupported

theorem raisesFrom_ramRestoreOp {h : Header} (hi : i = .ramRestore) :
    RaisesFrom (CommandError i s) (ramRestoreOp h) s := by
  by_cases hsize : h.ramSize = 0
  · rw [ramRestoreOp, if_pos hsize]
    exact raises_pure _ s
  by_cases hlimit : bankLimitOk h
  · rw [ramRestoreOp_eq_accessOp hlimit hsize]
    exact raises_accessOp (raises_preWriteFix _) (fun b hb => raises_restoreBank hi fun hneed =>
      hb.trans_le (le_limRam hlimit hneed)) s
  · obtain ⟨hneed, hmany⟩ := Classical.not_imp.mp hlimit
    rw [ramRestoreOp, if_neg hsize, bankLimitCheck_refused hneed (Nat.lt_of_not_le hmany)]
    exact raisesFrom_of_error (bind_of_error (raise_apply _ s)) commandError_unsupported

/-! ### Every command -/

theorem raisesFrom_readByte : RaisesFrom (CommandError .readByte s) (commandProc .readByte) s :=
  raisesFrom_requireSession_then fun hphase => by
    rcases readByteAddr_cases s with ⟨haddr, hrun⟩ | ⟨_, _, _, _, hrun⟩ | ⟨a, haddr, _, hrun⟩
    · exact raisesFrom_of_error (bind_of_error hrun) (.refused rfl fun _ => ⟨hphase, haddr⟩)
    · exact raisesFrom_refusal (bind_of_error hrun) rfl nofun
    · refine raisesFrom_bind (raisesFrom_of_ok hrun) fun _ t ht => ?_
      cases hrun.symm.trans ht
      exact raisesFrom_bind (raisesFrom_busRead haddr) fun _ t _ => raises_pure _ t

theorem raisesFrom_writeByte (v : BitVec 8) :
    RaisesFrom (CommandError (.writeByte v) s) (commandProc (.writeByte v)) s :=
  raisesFrom_requireSession_then fun hphase => by
    rcases writeByteAddr_cases s with
      ⟨haddr, hrun⟩ | ⟨_, _, _, hrun⟩ | ⟨_, _, _, _, _, hrun⟩ | ⟨a, haddr, _, _, hrun⟩
    · exact raisesFrom_of_error (bind_of_error hrun) (.refused rfl fun _ => ⟨hphase, haddr⟩)
    · exact raisesFrom_refusal (bind_of_error hrun) rfl nofun
    · exact raisesFrom_refusal (bind_of_error hrun) rfl nofun
    · refine raisesFrom_bind (raisesFrom_of_ok hrun) fun _ t ht => ?_
      cases hrun.symm.trans ht
      split
      · exact raisesFrom_then_pure (raisesFrom_settledWrite haddr _) _
      · exact raisesFrom_then_pure (raisesFrom_busWrite haddr _) _

/-- Every error of a command is one of the four. -/
theorem raisesFrom_commandProc (i : Instr) (s : State) : RaisesFrom (CommandError i s) (commandProc i) s := by
  cases i with
  | parseHeader =>
    exact raisesFrom_requireNotFaulted_then <| raises_bind raises_readHeader (fun _ => raises_pure _) s
  | makeRomReader =>
    exact raisesFrom_requireNotFaulted_then <| raises_bind raises_readHeader
      (fun _ => raises_bind (raises_modifyState _) fun _ => raises_pure _) s
  | enableRam => exact raisesFrom_inSession fun _ => raisesFrom_then_pure (raises_runSeq_modifyDriver _ _ s) _
  | disableRam => exact raisesFrom_inSession fun _ => raisesFrom_then_pure (raises_runSeq_modifyDriver _ _ s) _
  | selectRomBank n =>
    exact raisesFrom_inSession fun _ => raisesFrom_then_pure (raisesFrom_selectRomOp commandError_unsupported _) _
  | selectRamBank n =>
    exact raisesFrom_inSession fun _ =>
      raisesFrom_then_pure (raisesFrom_selectRamOp fun _ => commandError_unsupported) _
  | setAddr a =>
    exact raisesFrom_requireSession_then fun _ => raisesFrom_then_pure (raises_modifyState _ s) _
  | readByte => exact raisesFrom_readByte
  | writeByte v => exact raisesFrom_writeByte v
  | romSize => exact raisesFrom_inSession fun _ => raises_pure _ s
  | romStatus => exact raisesFrom_requireSession_then (f := fun _ => pure (statusReply s)) fun _ => raises_pure _ s
  | romRead cap => exact raisesFrom_inSession fun _ => raises_romReadOp ⟨cap, rfl⟩ _ s
  | ramDump => exact raisesFrom_inSession fun _ => raisesFrom_ramDumpOp
  | ramRestore => exact raisesFrom_inSession fun _ => raisesFrom_ramRestoreOp rfl
  | xlateRom o => exact raisesFrom_inSession fun _ => raises_pure _ s
  | xlateRam o => exact raisesFrom_inSession fun _ => raises_pure _ s

end

/-! ### The end of a command, by its last result -/

section
variable {i : Instr} {s t : State}

/-- A command returns OK, or takes one of its errors; the state its procedure leaves has S.fault as it was, and the phase
too but for the opening of a session. -/
theorem exec_ends {r : Result} (hexec : exec i s = .next t) (hlast : t.lastResult = some r) :
    ∃ u, u.fault = s.fault ∧ (u.phase = s.phase ∨ (i = .makeRomReader ∧ u.phase = .ready)) ∧
      ((r.status = .ok ∧ t = u.respond r) ∨
        ∃ e, CommandError i s r.status u ∧ r = errorResult e ∧ t = takeError e u) := by
  have hacts := acts_commandProc i s
  refine ⟨_, hacts.fault_eq, hacts.phase_cases, ?_⟩
  cases hrun : commandProc i s with
  | ok reply u =>
    cases hexec.symm.trans (exec_of_ok hrun)
    cases hlast
    rw [stateAfter_of_ok hrun]
    exact .inl ⟨rfl, rfl⟩
  | error e u =>
    cases hexec.symm.trans (exec_of_error hrun)
    cases hlast
    rw [stateAfter_of_error hrun]
    exact .inr ⟨e, raisesFrom_commandProc i s e u hrun, rfl, rfl⟩

end

/-- The fatal statuses are BusError and FileIoError alone (60_exceptions.md R270). -/
theorem fatalOf_eq_none {e : Status} (hbus : e ≠ .busError) (hinput : e ≠ .fileIoError) : fatalOf e = none := by
  cases e with
  | busError => exact absurd rfl hbus
  | fileIoError => exact absurd rfl hinput
  | _ => rfl

/-- Taking an error that is not fatal adds its result record and nothing else (60_exceptions.md R274, R283). -/
theorem takeError_of_not_fatal {e : Raised} (hfatal : fatalOf e.status = none) (s : State) :
    takeError e s = s.respond (errorResult e) := by
  rw [takeError, enterFaulted_of_not_fatal hfatal]

/-- Taking a fatal error faults the session and says why (60_exceptions.md R272, R273). -/
theorem takeError_of_fatal {e : Raised} {f : FatalError} (hfatal : fatalOf e.status = some f) (s : State) :
    takeError e s = (faultedWith f s).respond (errorResult e) := by
  rw [takeError, enterFaulted_of_fatal hfatal, faultedWith]

/-! ### The statements -/

/-- In phase Faulted the first check of every command refuses it (60_exceptions.md R277). -/
theorem exec_of_faulted (i : Instr) {s : State} (hphase : s.phase = .faulted) :
    exec i s = .next (s.respond (resultOf .sessionFaulted 0)) := by
  by_cases hheader : i = .parseHeader ∨ i = .makeRomReader
  · refine exec_of_refused rfl ?_
    rcases hheader with rfl | rfl <;> exact bind_of_error (requireNotFaulted_faulted hphase)
  · obtain ⟨hparse, hmake⟩ := not_or.mp hheader
    exact (refusedOutOfSession hparse hmake s).2 hphase

/-- What a step does: nothing, the host's new input, a reset, or the end of a command word (60_exceptions.md R271,
R288). -/
theorem step_cases {s t : State} (hstep : step s = .next t) :
    t = s ∨
    (∃ src rest, s.host = .setInput src :: rest ∧ t = { s with host := rest, input := src }) ∨
    (∃ rest, s.host = .reset :: rest ∧ t = resetEvent { s with host := rest }) ∨
    (∃ w rest, s.host = .command w :: rest ∧
      ((∃ e, decode w = .error e ∧ t = illegalCommand e { s with host := rest }) ∨
        ∃ i, decode w = .ok i ∧ exec i { s with host := rest } = .next t)) := by
  unfold step fetch at hstep
  rcases hhost : s.host with _ | ⟨w | src | _, rest⟩ <;> simp only [hhost] at hstep
  case nil => cases hstep; exact .inl rfl
  case cons.setInput => cases hstep; exact .inr (.inl ⟨src, rest, rfl, rfl⟩)
  case cons.reset => cases hstep; exact .inr (.inr (.inl ⟨rest, rfl, rfl⟩))
  case cons.command =>
    refine .inr (.inr (.inr ⟨w, rest, rfl, ?_⟩))
    cases hdecode : decode w <;> simp only [hdecode] at hstep
    case error e => cases hstep; exact .inl ⟨e, rfl, rfl⟩
    case ok i => exact .inr ⟨i, rfl, hstep⟩

/-- Settles O45: every command is refused by its first check, and no other action of the host but a reset writes the
phase or S.fault. -/
theorem faultedSessionRefusesEveryCommand : Obligations.FaultedSessionRefusesEveryCommand := by
  refine ⟨rfl, fun i _ => exec_of_faulted i, fun s t hphase hstep => ?_⟩
  rcases step_cases hstep with rfl | ⟨src, rest, -, rfl⟩ | ⟨rest, hhost, -⟩ |
    ⟨w, rest, -, ⟨e, -, rfl⟩ | ⟨i, -, hexec⟩⟩
  · exact .inr ⟨hphase, rfl⟩
  · exact .inr ⟨hphase, rfl⟩
  · exact .inl ⟨rest, hhost⟩
  · exact .inr ⟨hphase, rfl⟩
  · cases hexec.symm.trans (exec_of_faulted i (s := { s with host := rest }) hphase)
    exact .inr ⟨hphase, rfl⟩

/-- Settles O46: RequireSession is the first check of each of these commands. -/
theorem noSessionRefusesDriverCommands : Obligations.NoSessionRefusesDriverCommands :=
  ⟨rfl, fun _ s hphase hparse hmake => (refusedOutOfSession hparse hmake s).1 hphase⟩

/-- Settles O47, by the ends of a command: the fatal ones are those of a failed request and a failed input. -/
theorem fatalErrorsFaultTheSession : Obligations.FatalErrorsFaultTheSession := by
  intro i s t r hexec hlast
  obtain ⟨u, hfault, hphase, ⟨hok, rfl⟩ | ⟨e, herror, rfl, rfl⟩⟩ := exec_ends hexec hlast
  · rw [hok]
    exact ⟨nofun, nofun, fun _ _ => ⟨hfault, hphase⟩⟩
  refine ⟨fun hbus => ?_, fun hinput => ?_, fun hbus hinput => ?_⟩
  · rw [takeError_of_fatal (f := .busError) (congrArg fatalOf hbus)]
    rw [hbus] at herror
    cases herror with
    | bus hlast => exact ⟨rfl, rfl, hlast⟩
    | refused hfatal => cases hfatal
  · rw [takeError_of_fatal (f := .fileIoError) (congrArg fatalOf hinput)]
    rw [hinput] at herror
    cases herror with
    | input hi => exact ⟨rfl, rfl, hi⟩
    | refused hfatal => cases hfatal
  · rw [takeError_of_not_fatal (fatalOf_eq_none hbus hinput)]
    exact ⟨hfault, hphase⟩

/-- Settles O48: of the errors that are not fatal only ROM_READ's is raised after the checks. -/
theorem otherErrorsChangeNothing : Obligations.OtherErrorsChangeNothing := by
  intro i s t r hexec hlast hok hbus hinput hread
  obtain ⟨u, -, -, ⟨hok', -⟩ | ⟨e, herror, rfl, rfl⟩⟩ := exec_ends hexec hlast
  · exact absurd hok' hok
  · generalize hstatus : (errorResult e).status = status at herror hbus hinput hread
    cases herror with
    | bus => exact absurd rfl hbus
    | input => exact absurd rfl hinput
    | bank hi =>
      obtain ⟨cap, hcap⟩ := hi
      exact absurd rfl (hread.resolve_left fun hnot => hnot cap hcap)
    | refused hfatal => exact takeError_of_not_fatal ((congrArg fatalOf hstatus).trans hfatal) s

/-- Settles O57: AddressUnset is the refusal of a check in phase Ready with no address set, which the invariant rules
out. -/
theorem addressUnsetNeverOccursInASession : Obligations.AddressUnsetNeverOccursInASession := by
  rintro i s t hinv hexec ⟨r, hlast, hstatus⟩
  obtain ⟨u, -, -, ⟨hok, -⟩ | ⟨e, herror, -, -⟩⟩ := exec_ends hexec hlast
  · cases hok.symm.trans hstatus
  · rw [hstatus] at herror
    cases herror with
    | refused _ hunset =>
      obtain ⟨hready, haddr⟩ := hunset rfl
      exact (hinv.ready hready).2 haddr

end Sys2Proof.Machine
end

section
/-! Reset and hazards (70_reset_and_hazards.md): what the host does between commands, and the settle discipline of the
trace. The acts of all commands but WRITE_BYTE and RAM_RESTORE never write the RAM window; the data writes of those two
are settled writes, which keep the discipline as a whole though no single act of theirs does. -/

namespace Sys2Proof.Machine

variable {α : Type}

/-! ### The host's actions between commands -/

/-- With nothing queued the block waits (70_reset_and_hazards.md R301). -/
theorem step_of_idle {s : State} (hhost : s.host = []) : step s = .next s := by
  simp only [step, fetch, hhost]

theorem step_of_setInput {s : State} {src : InputSource} {rest : List HostAction}
    (hhost : s.host = .setInput src :: rest) : step s = .next { s with host := rest, input := src } := by
  simp only [step, fetch, hhost]

theorem step_of_reset {s : State} {rest : List HostAction} (hhost : s.host = .reset :: rest) :
    step s = .next (resetEvent { s with host := rest }) := by
  simp only [step, fetch, hhost]

/-- Settles O8: neither action is a command, so nothing is decoded or run. -/
theorem hostActionsBetweenCommands : Obligations.HostActionsBetweenCommands :=
  fun _ => ⟨step_of_idle, fun _ _ => step_of_setInput⟩

/-- Settles O9: the step is the reset event, whose fields are those of `State.reset` or of the state before. -/
theorem resetEventRestoresResetValues : Obligations.ResetEventRestoresResetValues :=
  fun _ _ hhost =>
    ⟨_, step_of_reset hhost, rfl, rfl, rfl, rfl, rfl, rfl, rfl, rfl, rfl, rfl, rfl, rfl, rfl⟩

/-! ### Settled traces -/

section
variable {trace : List BusEvent}

/-- What follows a settled trace cannot unsettle its newest event: that is no data write which still waits for its
second wait. -/
theorem settledFrom_of_settled (newer : Option BusEvent) (h : settled trace = true) :
    settledFrom newer trace = true := by
  cases trace with
  | nil => rfl
  | cons e older =>
    simp only [settled, settledFrom, Bool.and_eq_true, Bool.or_eq_true] at h ⊢
    obtain ⟨hwrite | ⟨hbefore, hafter | hnone⟩, hrest⟩ := h
    · exact ⟨.inl hwrite, hrest⟩
    · exact ⟨.inr ⟨hbefore, .inl hafter⟩, hrest⟩
    · cases hnone

theorem settled_cons {e : BusEvent} (he : isRamWrite e = false) (h : settled trace = true) :
    settled (e :: trace) = true := by
  simp [settled, settledFrom, he, settledFrom_of_settled _ h]

/-- A write between two waits (20_memory.md R76). -/
theorem settled_bracketed (a : Addr) (v : Byte) (r : WriteAnswer) (h : settled trace = true) :
    settled (.wait :: .write a v r :: .wait :: trace) = true := by
  simp [settled, settledFrom, isRamWrite, settledFrom_of_settled _ h]

/-- A write that failed needs no second wait (70_reset_and_hazards.md R309). -/
theorem settled_failed (a : Addr) (v : Byte) (h : settled trace = true) :
    settled (.write a v .err :: .wait :: trace) = true := by
  simp [settled, settledFrom, isRamWrite, isFailure, settledFrom_of_settled _ h]

end

/-! ### What keeps the discipline -/

/-- The settle discipline of the trace is kept from s to t. -/
def KeepsSettled (s t : State) : Prop := settled s.revTrace = true → settled t.revTrace = true

theorem keepsSettled_steady : Steady KeepsSettled where
  refl _ := id
  trans h₁ h₂ := h₂ ∘ h₁

theorem keepsSettled_of_same {s t : State} (h : t.revTrace = s.revTrace) : KeepsSettled s t := fun hs => h ▸ hs

/-- The commands that write data to the RAM window. -/
abbrev WritesRamWindow (i : Instr) : Prop := (∃ v, i = .writeByte v) ∨ i = .ramRestore

theorem isRamWindow_of_tableRegister {a : Addr} (ha : a ∈ tableRegisters) : isRamWindow a = false :=
  Bool.eq_false_of_not_eq_true fun hwindow => by
    cases (isControlAddr_of_isRamWindow hwindow).symm.trans (isControlAddr_of_tableRegister ha)

theorem WriteTarget.not_ramWindow {i : Instr} {o : Option Header} {a : Addr} (hw : WriteTarget i o a)
    (hi : ¬ WritesRamWindow i) : isRamWindow a = false := by
  rcases hw with ⟨_, _, _, hreg⟩ | ⟨hrestore, _⟩ | ⟨hwrite, _⟩
  · exact isRamWindow_of_tableRegister hreg
  · exact absurd (.inr hrestore) hi
  · exact absurd (.inl hwrite) hi

/-- The acts of a command that writes no data to the RAM window. -/
theorem Acts.keepsSettled {i : Instr} {o : Option Header} {s t : State} (h : Acts i o s t)
    (hi : ¬ WritesRamWindow i) : KeepsSettled s t :=
  h.rel keepsSettled_steady fun _ _ act => by
    cases act with
    | write _ hw _ => exact settled_cons (hw.not_ramWindow hi)
    | setAddr | read | wait => exact settled_cons rfl
    | _ => exact id

/-- A data write between its waits (20_memory.md R76, 70_reset_and_hazards.md R309). -/
theorem keepsSettled_settledWrite {s : State} {a : Addr} (ha : s.addr = some a) (v : Byte) :
    KeepsSettled s (stateAfter (settledWrite v) s) := by
  rcases settledWrite_cases ha v with ⟨_, _, hrun⟩ | ⟨_, _, hrun⟩
  · rw [stateAfter_of_ok hrun]; exact settled_bracketed a v .ok
  · rw [stateAfter_of_error hrun]; exact settled_failed a v

/-- A write outside the RAM window needs no waits. -/
theorem keepsSettled_busWrite {s : State} {a : Addr} (ha : s.addr = some a) (hwindow : isRamWindow a = false)
    (v : Byte) : KeepsSettled s (stateAfter (busWrite v) s) := by
  have hrun := busWrite_at ha v
  rcases hb : s.bus.write s.history a v with ⟨_ | _, side⟩ <;> rw [hb] at hrun
  · rw [stateAfter_of_ok hrun]; exact settled_cons hwindow
  · rw [stateAfter_of_error hrun]; exact settled_cons hwindow

/-! ### The two commands that write data -/

/-- WRITE_BYTE writes a settled byte in the RAM window and a plain one outside it (41_driver.md R178). -/
theorem keepsSettled_writeByte (v : BitVec 8) : Keeps KeepsSettled (commandProc (.writeByte v)) := by
  have hS := keepsSettled_steady
  refine keeps_bind hS (keeps_requireSession hS) fun _ s => ?_
  refine stateAfter_bind_rel hS (keeps_writeByteAddr hS s) fun a t ht => ?_
  rcases writeByteAddr_cases s with ⟨_, hr⟩ | ⟨_, _, _, hr⟩ | ⟨_, _, _, _, _, hr⟩ | ⟨a, ha, _, _, hr⟩ <;>
    rw [hr] at ht <;> cases ht
  split
  case isTrue => rw [stateAfter_then_pure]; exact keepsSettled_settledWrite ha _
  case isFalse hwindow =>
    rw [stateAfter_then_pure]
    exact keepsSettled_busWrite ha (Bool.eq_false_of_not_eq_true hwindow) _

theorem keepsSettled_takeInput (k : Nat) : Keeps KeepsSettled (takeInput k) := fun s => by
  rcases takeInput_cases k s with ⟨_, hrun⟩ | ⟨_, _, hrun⟩ | ⟨_, _, hrun⟩
  · rw [stateAfter_of_ok hrun]; exact keepsSettled_of_same rfl
  · rw [stateAfter_of_error hrun]; exact keepsSettled_of_same rfl
  · rw [stateAfter_of_ok hrun]; exact keepsSettled_of_same rfl

theorem keepsSettled_restoreByte (chunk : List Byte) (k : Nat) : Keeps KeepsSettled (restoreByte chunk k) := fun s =>
  stateAfter_bind_rel keepsSettled_steady (settled_cons rfl) fun _ _ ht => by
    cases ht
    exact keepsSettled_settledWrite rfl _

/-- A procedure RAM_DUMP can run too writes no data. -/
theorem keepsSettled_of_dump {o : Option Header} {p : Proc α} (hp : Keeps (Acts .ramDump o) p) :
    Keeps KeepsSettled p := fun s => (hp s).keepsSettled (by simp)

theorem keepsSettled_restoreBank (h : Header) (b : Nat) : Keeps KeepsSettled (restoreBank h b) :=
  have hS := keepsSettled_steady
  keeps_bind hS (keepsSettled_of_dump (acts_selectForAccess (.inr (.inl rfl)) b)) fun _ =>
    keeps_bind hS (keepsSettled_takeInput _) fun chunk => keeps_forBytes hS (keepsSettled_restoreByte chunk) _ _ _

/-- RAM_RESTORE but for its banks does no more than RAM_DUMP can, or MBC1's and MBC2's fix before the enable
(43_ram_accessor.md R237). -/
theorem keepsSettled_ramRestoreOp (h : Header) : Keeps KeepsSettled (ramRestoreOp h) :=
  have hS := keepsSettled_steady
  have hflag : SetsRamEnabled .ramDump := .inr (.inr (.inl rfl))
  keeps_ite (keeps_pure hS _)
    (keeps_bind hS (keepsSettled_of_dump (o := some h) acts_bankLimitCheck) fun _ =>
      keeps_bind hS (keepsSettled_of_dump acts_preWriteFix) fun _ =>
        keeps_bind hS (keepsSettled_of_dump (acts_enableRamOp hflag)) fun _ =>
          keeps_bind hS (keeps_forBanks hS (keepsSettled_restoreBank h) _ _) fun _ =>
            keeps_then_pure hS (keeps_withMoved _ (keepsSettled_of_dump (acts_disableRamOp hflag))) _)

/-! ### Every step -/

theorem keepsSettled_commandProc (i : Instr) : Keeps KeepsSettled (commandProc i) := by
  cases i with
  | writeByte v => exact keepsSettled_writeByte v
  | ramRestore => exact keeps_inSession keepsSettled_steady keepsSettled_ramRestoreOp
  | _ => exact fun s => (acts_commandProc _ s).keepsSettled (by simp)

theorem exec_keepsSettled {i : Instr} {s t : State} (hexec : exec i s = .next t) : KeepsSettled s t := by
  unfold KeepsSettled
  rw [exec_revTrace hexec]
  exact keepsSettled_commandProc i s

/-- Settles O53, over what the step finds at the host port: a command keeps the discipline, a reset empties the trace,
and nothing else adds an event. -/
theorem settleWaitsBracketEveryRamWrite : Obligations.SettleWaitsBracketEveryRamWrite := by
  intro s t hsettled hstep
  rcases step_cases hstep with rfl | ⟨src, rest, -, rfl⟩ | ⟨rest, -, rfl⟩ |
    ⟨w, rest, -, ⟨e, -, rfl⟩ | ⟨i, -, hexec⟩⟩
  · exact hsettled
  · exact hsettled
  · rfl
  · exact hsettled
  · exact exec_keepsSettled hexec hsettled

end Sys2Proof.Machine
end
